-- ==== Sys2Proof/Word.lean ====
section
/-!
DEFINITION. The words of the block: a byte, a 16-bit half word (a pulse word), a 32-bit register word, a 14-bit
byte offset in the host register space, and one-bit values written as bits (R8, R62, R80).
-/
namespace Sys2Proof

/-- One byte. -/
abbrev Byte := BitVec 8

/-- A 16-bit word: the width of a pulse word (R6, PULSE_W). -/
abbrev Half := BitVec 16

/-- A 32-bit word: the width of a register, of a timestamp and of write data (R62, R50). -/
abbrev Word := BitVec 32

/-- A byte offset in the 16 KiB host register space (R60, R80). -/
abbrev Offset := BitVec 14

/-- A one-bit value as a bit vector (R8). -/
def bit (b : Bool) : BitVec 1 := BitVec.ofBool b

end Sys2Proof
end

