-- ==== Sys2Proof/Syntax.lean ====
section
/-!
DEFINITION. The operations of the block: the named registers of the register map (R82), a host bus transaction (R80,
R81), and Instr, one constructor per row of spec/opcode_table.json (R102).
-/
namespace Sys2Proof

/-- The radio modes, in the encoding order of STATUS.RADIO_MODE: 0 OFF, 1 RX, 2 TX, 3 UNSET (R40, R93). -/
inductive RadioMode where
  | off
  | rx
  | tx
  | unset
deriving DecidableEq, Repr, Inhabited

/-- The capture algorithm variants of UPDATE_SLICER: 0 Legacy, 1 Advanced (R36, R93). -/
inductive Slicer where
  | legacy
  | advanced
deriving DecidableEq, Repr, Inhabited

/-- The registers of the register map below the pulse window (R82). -/
inductive Reg where
  | id
  | caps
  | settleUs
  | ctrl
  | status
  | err
  | errInfo
  | errData
  | intEn
  | intPend
  | cmd
  | nowUs
  | capturedAt
  | signalStrength
  | pulseCount
  | repeats
  | interRepeatDelayMs
  | cfgSampleRate
  | cfgMinRawPulses
  | cfgSeekTimeoutMs
  | cfgMinPreambleUs
  | cfgMinPulseLenUs
  | cfgSignalEndTimeoutUs
  | cfgFlags
  | actSampleRate
  | actMinRawPulses
  | actSeekTimeoutMs
  | actMinPreambleUs
  | actMinPulseLenUs
  | actSignalEndTimeoutUs
  | actFlags
deriving DecidableEq, Repr, Inhabited

/-- A host bus transaction: write enable, byte offset, write data (R80, format 1; R81). -/
structure BusTxn where
  we : Bool
  offset : Offset
  data : Word
deriving DecidableEq, Repr, Inhabited

/-- A window index: the field offset[12:2] of a transaction with offset[13] = 1 (R98). -/
abbrev Index := BitVec 11

/-- One constructor per row of the opcode table (R102). CMD rows carry the operands of the command word (R93), BUS
write rows the write data, window rows the index, EVENT rows nothing: what an event uses it reads from the state. -/
inductive Instr where
  -- CMD
  | nop
  | consume
  | refreshConfig
  | setMode (m : RadioMode)
  | rawSend
  | updateSlicer (v : Slicer)
  | scan
  -- BUS, writable registers
  | wrCtrl (data : Word)
  | wrErr (data : Word)
  | wrIntEn (data : Word)
  | wrIntPend (data : Word)
  | wrCmd (data : Word)
  | wrPulseCount (data : Word)
  | wrRepeats (data : Word)
  | wrInterRepeatDelayMs (data : Word)
  | wrCfgSampleRate (data : Word)
  | wrCfgMinRawPulses (data : Word)
  | wrCfgSeekTimeoutMs (data : Word)
  | wrCfgMinPreambleUs (data : Word)
  | wrCfgMinPulseLenUs (data : Word)
  | wrCfgSignalEndTimeoutUs (data : Word)
  | wrCfgFlags (data : Word)
  | wrPulse (i : Index) (data : Word)
  -- BUS, writes to read-only registers
  | wrRoId (data : Word)
  | wrRoCaps (data : Word)
  | wrRoSettleUs (data : Word)
  | wrRoStatus (data : Word)
  | wrRoErrInfo (data : Word)
  | wrRoErrData (data : Word)
  | wrRoNowUs (data : Word)
  | wrRoCapturedAt (data : Word)
  | wrRoSignalStrength (data : Word)
  | wrRoActSampleRate (data : Word)
  | wrRoActMinRawPulses (data : Word)
  | wrRoActSeekTimeoutMs (data : Word)
  | wrRoActMinPreambleUs (data : Word)
  | wrRoActMinPulseLenUs (data : Word)
  | wrRoActSignalEndTimeoutUs (data : Word)
  | wrRoActFlags (data : Word)
  -- BUS, reads
  | rdReg (r : Reg)
  | rdPulse (i : Index)
  -- EVENT
  | evEdgeIdle
  | evEdgeSeekingShort
  | evEdgeSeekingCommit
  | evEdgeCapturingGlitch
  | evEdgeCapturingAccept
  | evEdgeDone
  | evDeadlineSeeking
  | evDeadlineCapturing
  | evPollEnd
  | evRadioStep
  | evTxStep
deriving DecidableEq, Repr, Inhabited

end Sys2Proof
end

