-- ==== Sys2Proof/Config.lean ====
section
/-!
DEFINITION. What a build of the block fixes (R6), the runtime configuration record (R7, R37, R38), what the
environment supplies in one tick (R53), and the two values the spec leaves open, as constants without a body: the
adaptive gap rule (R142) and the inputs of a tick for which the state holds none (R53).
-/
namespace Sys2Proof

/-- The build parameters of R6 that a build chooses. HAS_ADV_SLICER is 0 in this hardware (D38) and so no field. -/
structure Build where
  /-- C, the capacity in half-pulses: 1 to 2047. -/
  capacity : Nat
  /-- SETTLE_US, the radio settle delay in ticks: 1 to 2^31 - 1. -/
  settleUs : Word
  /-- HAS_RSSI. -/
  hasRssi : Bool
  /-- HAS_ADAPTIVE_GAP. -/
  hasAdaptiveGap : Bool
  /-- BASE, the platform address of the register window, 16 KiB aligned (R6, D48). DESIGN CHOICE, unsafe (log entry 13):
  32 bits wide, where the spec gives a platform address no width. -/
  base : Word
  /-- PIN_POLARITY: the electrical level of an asserted output (D31). -/
  assertedLevel : Bool
deriving DecidableEq, Repr

/-- The ranges R6 gives the parameters. -/
def Build.wf (b : Build) : Bool :=
  decide (1 ≤ b.capacity) && decide (b.capacity ≤ 2047) && decide (1 ≤ b.settleUs.toNat)
    && decide (b.settleUs.toNat < 2 ^ 31) && decide (b.base.toNat % 2 ^ 14 = 0)

/-- The build State.reset has: C = 1200, HAS_RSSI = 0, HAS_ADAPTIVE_GAP = 0 (R6, the reference values), SETTLE_US = 10
(95_test_vectors.md section 0). DESIGN CHOICE: base 0 and active-high outputs, unsafe (log entry 1): no claim over all
states rests on them. -/
def Build.reference : Build :=
  { capacity := 1200, settleUs := 10#32, hasRssi := false, hasAdaptiveGap := false, base := 0#32, assertedLevel := true }

/-- The runtime configuration: the fields of cfg_sh (R37) and of cfg (R38). -/
structure TimingConfig where
  sampleRate : Half
  minRawPulses : Half
  seekTimeoutMs : Half
  minPreambleUs : Word
  minPulseLenUs : Word
  signalEndTimeoutUs : Word
  asyncMode : Bool
  adaptiveGapEn : Bool
deriving DecidableEq, Repr

/-- The reset values of the configuration for capacity C (R37, D22). -/
def TimingConfig.reset (capacity : Nat) : TimingConfig :=
  { sampleRate := 1#16
    minRawPulses := BitVec.ofNat 16 (min 24 capacity)
    seekTimeoutMs := 0#16
    minPreambleUs := 100#32
    minPulseLenUs := 0#32
    signalEndTimeoutUs := 5000#32
    asyncMode := true
    adaptiveGapEn := false }

/-- What the environment supplies for one tick: the receiver level, the RSSI sample and the host transactions of the
tick in arrival order (R53). -/
structure TickInput where
  rx : Bool
  rssi : Half
  host : List BusTxn
deriving DecidableEq, Repr, Inhabited

/-- One step's input: a tick with its samples and transactions, or the platform's reset of the block (R260, R261). -/
inductive Input where
  | tick (t : TickInput)
  | reset
deriving DecidableEq, Repr, Inhabited

/-- The adaptive gap rule GapPolicy (R142, D14): a pure function of the stored pulses and the active configuration.
FREE VALUE, safe (log entry 7): it has no body, so nothing can be proved about its values. -/
opaque Config.gapPolicy : List Half → TimingConfig → Option Nat

/-- The input of a tick for which the state holds none (R53: a free input of each step, under no law). FREE VALUE,
safe (log entry 2). -/
opaque Config.freeInput : Nat → Input

end Sys2Proof
end

