-- ==== Sys2Proof/WellFormed.lean ====
section
/-!
DEFINITION. Which terms of Instr are operations of a build with capacity C: a window index is at most C (R61, R98);
every other operand is legal at every value of its type.
-/
namespace Sys2Proof

/-- Well-formed for capacity C. -/
def Instr.wf (capacity : Nat) : Instr → Bool
  | .wrPulse i _ => decide (i.toNat ≤ capacity)
  | .rdPulse i => decide (i.toNat ≤ capacity)
  | _ => true

end Sys2Proof
end

