-- ==== Sys2Proof/Decode.lean ====
section
/-!
DEFINITION. Decoding and encoding (30_encoding.md). A decoder tells the three formats apart by their source (R99), so
what it reads is an Encoded: a command word, a bus transaction, or an event selector with the outcome of the test that
tells the two rows of one selector apart (R102). Decoding is total and rejects by name; encode writes the words of an
operation.
-/
namespace Sys2Proof

/-- What a decoder reads (R80, R99). In an event, `long` is the outcome of the width test of the row's `condition`
(R102): the interval is not below the threshold. -/
inductive Encoded where
  | cmd (w : Word)
  | bus (h : BusTxn)
  | event (selector : BitVec 5) (long : Bool)
deriving DecidableEq, Repr, Inhabited

/-- Why a decoder rejects. -/
inductive DecodeError where
  /-- A command word with data[31:16] other than 0 (R94). -/
  | cmdHighBits
  /-- A command word with OPCODE 0x07 to 0xFF (R94). -/
  | cmdReservedOpcode
  /-- A command word with a reserved ARG bit set (R94). -/
  | cmdArgument
  /-- A transaction with offset[1:0] other than 0 (R63). -/
  | misaligned
  /-- A transaction to an offset the register map calls reserved (R66, R82). -/
  | reservedOffset
  /-- An event code 5 to 7 (R96). -/
  | unusedEventCode
  /-- A deadline event in IDLE or DONE, which cannot occur (R132). -/
  | noRowInState
deriving DecidableEq, Repr

/-! ### Field encodings -/

/-- STATUS.RADIO_MODE and the operand of SET_MODE (R93). -/
def RadioMode.code : RadioMode → BitVec 2
  | .off => 0#2
  | .rx => 1#2
  | .tx => 2#2
  | .unset => 3#2

/-- The mode an operand field of SET_MODE names (R93). -/
def RadioMode.ofCode (c : BitVec 2) : RadioMode :=
  match c.toNat with
  | 0 => .off
  | 1 => .rx
  | 2 => .tx
  | _ => .unset

/-- The operand of UPDATE_SLICER (R93). -/
def Slicer.code : Slicer → BitVec 1
  | .legacy => 0#1
  | .advanced => 1#1

/-- The variant an operand field of UPDATE_SLICER names (R93). -/
def Slicer.ofCode (c : BitVec 1) : Slicer :=
  match c.toNat with
  | 0 => .legacy
  | _ => .advanced

/-! ### Command words -/

/-- OPCODE, bits 7 to 0 of a command word (R91). -/
def cmdOpcode (w : Word) : BitVec 8 := w.extractLsb' 0 8

/-- ARG, bits 15 to 8 of a command word (R91). -/
def cmdArg (w : Word) : BitVec 8 := w.extractLsb' 8 8

/-- A command word from its fields (R91). -/
def cmdWord (arg opcode : BitVec 8) : Word := 0#16 ++ arg ++ opcode

/-- A command without an operand: legal only with ARG = 0 (R94). -/
def plainCommand (w : Word) (i : Instr) : Except DecodeError Instr :=
  if cmdArg w = 0#8 then .ok i else .error .cmdArgument

/-- The command decoder: the opcode map of R92 under the legality rules of R94. -/
def decodeCmd (w : Word) : Except DecodeError Instr :=
  if w.extractLsb' 16 16 = 0#16 then
    match (cmdOpcode w).toNat with
    | 0 => plainCommand w .nop
    | 1 => plainCommand w .consume
    | 2 => plainCommand w .refreshConfig
    | 3 =>
      if (cmdArg w).extractLsb' 2 6 = 0#6 then .ok (.setMode (RadioMode.ofCode ((cmdArg w).extractLsb' 0 2)))
      else .error .cmdArgument
    | 4 => plainCommand w .rawSend
    | 5 =>
      if (cmdArg w).extractLsb' 1 7 = 0#7 then .ok (.updateSlicer (Slicer.ofCode ((cmdArg w).extractLsb' 0 1)))
      else .error .cmdArgument
    | 6 => plainCommand w .scan
    | _ => .error .cmdReservedOpcode
  else .error .cmdHighBits

/-- The word of SET_MODE (R93). -/
def setModeWord (m : RadioMode) : Word := cmdWord (0#6 ++ m.code) 0x03#8

/-- The word of UPDATE_SLICER (R93). -/
def updateSlicerWord (v : Slicer) : Word := cmdWord (0#7 ++ v.code) 0x05#8

/-! ### Bus transactions -/

/-- The registers of the map, in the order of R82. -/
def Reg.all : List Reg :=
  [.id, .caps, .settleUs, .ctrl, .status, .err, .errInfo, .errData, .intEn, .intPend, .cmd, .nowUs, .capturedAt,
   .signalStrength, .pulseCount, .repeats, .interRepeatDelayMs, .cfgSampleRate, .cfgMinRawPulses, .cfgSeekTimeoutMs,
   .cfgMinPreambleUs, .cfgMinPulseLenUs, .cfgSignalEndTimeoutUs, .cfgFlags, .actSampleRate, .actMinRawPulses,
   .actSeekTimeoutMs, .actMinPreambleUs, .actMinPulseLenUs, .actSignalEndTimeoutUs, .actFlags]

/-- The offset of a register (R82). -/
def Reg.offset : Reg → Offset
  | .id => 0x000#14
  | .caps => 0x004#14
  | .settleUs => 0x008#14
  | .ctrl => 0x00C#14
  | .status => 0x010#14
  | .err => 0x014#14
  | .errInfo => 0x018#14
  | .errData => 0x01C#14
  | .intEn => 0x020#14
  | .intPend => 0x024#14
  | .cmd => 0x028#14
  | .nowUs => 0x02C#14
  | .capturedAt => 0x030#14
  | .signalStrength => 0x034#14
  | .pulseCount => 0x038#14
  | .repeats => 0x03C#14
  | .interRepeatDelayMs => 0x040#14
  | .cfgSampleRate => 0x080#14
  | .cfgMinRawPulses => 0x084#14
  | .cfgSeekTimeoutMs => 0x088#14
  | .cfgMinPreambleUs => 0x08C#14
  | .cfgMinPulseLenUs => 0x090#14
  | .cfgSignalEndTimeoutUs => 0x094#14
  | .cfgFlags => 0x098#14
  | .actSampleRate => 0x0C0#14
  | .actMinRawPulses => 0x0C4#14
  | .actSeekTimeoutMs => 0x0C8#14
  | .actMinPreambleUs => 0x0CC#14
  | .actMinPulseLenUs => 0x0D0#14
  | .actSignalEndTimeoutUs => 0x0D4#14
  | .actFlags => 0x0D8#14

/-- The register at an offset, none where the map has none (R81, R82). -/
def regAt (offset : Offset) : Option Reg := Reg.all.find? (fun r => r.offset = offset)

/-- The operation a write to a register is (R81, R102): the register's own write rule, or its read-only row. -/
def Reg.writeInstr (data : Word) : Reg → Instr
  | .id => .wrRoId data
  | .caps => .wrRoCaps data
  | .settleUs => .wrRoSettleUs data
  | .ctrl => .wrCtrl data
  | .status => .wrRoStatus data
  | .err => .wrErr data
  | .errInfo => .wrRoErrInfo data
  | .errData => .wrRoErrData data
  | .intEn => .wrIntEn data
  | .intPend => .wrIntPend data
  | .cmd => .wrCmd data
  | .nowUs => .wrRoNowUs data
  | .capturedAt => .wrRoCapturedAt data
  | .signalStrength => .wrRoSignalStrength data
  | .pulseCount => .wrPulseCount data
  | .repeats => .wrRepeats data
  | .interRepeatDelayMs => .wrInterRepeatDelayMs data
  | .cfgSampleRate => .wrCfgSampleRate data
  | .cfgMinRawPulses => .wrCfgMinRawPulses data
  | .cfgSeekTimeoutMs => .wrCfgSeekTimeoutMs data
  | .cfgMinPreambleUs => .wrCfgMinPreambleUs data
  | .cfgMinPulseLenUs => .wrCfgMinPulseLenUs data
  | .cfgSignalEndTimeoutUs => .wrCfgSignalEndTimeoutUs data
  | .cfgFlags => .wrCfgFlags data
  | .actSampleRate => .wrRoActSampleRate data
  | .actMinRawPulses => .wrRoActMinRawPulses data
  | .actSeekTimeoutMs => .wrRoActSeekTimeoutMs data
  | .actMinPreambleUs => .wrRoActMinPreambleUs data
  | .actMinPulseLenUs => .wrRoActMinPulseLenUs data
  | .actSignalEndTimeoutUs => .wrRoActSignalEndTimeoutUs data
  | .actFlags => .wrRoActFlags data

/-- The selector of a transaction: WE above offset[13:0] (R97). -/
def BusTxn.descriptor (h : BusTxn) : BitVec 15 := bit h.we ++ h.offset

/-- The transaction with a given selector and data (R97). -/
def busOf (d : BitVec 15) (data : Word) : BusTxn :=
  { we := d.getLsbD 14, offset := d.extractLsb' 0 14, data := data }

/-- The offset of window word i: 0x2000 + 4 i (R82). -/
def windowOffset (i : Index) : Offset := 1#1 ++ i ++ 0#2

/-- Decode a transaction for capacity C: misaligned, then the window, then the registers (R81, R98). -/
def decodeBus (capacity : Nat) (h : BusTxn) : Except DecodeError Instr :=
  if h.offset.extractLsb' 0 2 = 0#2 then
    if h.offset.getLsbD 13 then
      if (h.offset.extractLsb' 2 11).toNat ≤ capacity then
        .ok (if h.we then .wrPulse (h.offset.extractLsb' 2 11) h.data else .rdPulse (h.offset.extractLsb' 2 11))
      else .error .reservedOffset
    else
      match regAt h.offset with
      | some r => .ok (if h.we then r.writeInstr h.data else .rdReg r)
      | none => .error .reservedOffset
  else .error .misaligned

/-! ### Events -/

/-- Decode an event selector: the code in bits 4 to 2, the capture state in bits 1 to 0 (R96, R102). -/
def decodeEvent (selector : BitVec 5) (long : Bool) : Except DecodeError Instr :=
  match (selector.extractLsb' 2 3).toNat, (selector.extractLsb' 0 2).toNat with
  | 0, 0 => .ok .evEdgeIdle
  | 0, 1 => .ok (if long then .evEdgeSeekingCommit else .evEdgeSeekingShort)
  | 0, 2 => .ok (if long then .evEdgeCapturingAccept else .evEdgeCapturingGlitch)
  | 0, _ => .ok .evEdgeDone
  | 1, 1 => .ok .evDeadlineSeeking
  | 1, 2 => .ok .evDeadlineCapturing
  | 1, _ => .error .noRowInState
  | 2, _ => .ok .evPollEnd
  | 3, _ => .ok .evRadioStep
  | 4, _ => .ok .evTxStep
  | _, _ => .error .unusedEventCode

/-! ### All formats -/

/-- Decode what a decoder reads, for capacity C (R99). -/
def decode (capacity : Nat) : Encoded → Except DecodeError Instr
  | .cmd w => decodeCmd w
  | .bus h => decodeBus capacity h
  | .event selector long => decodeEvent selector long

/-- A write transaction to a register. -/
def writeTxn (r : Reg) (data : Word) : Encoded := .bus { we := true, offset := r.offset, data := data }

/-- The words of an operation, from the encoding tables of R92, R93, R96 and R97. A read carries no data (R80) and is
written with data 0; an event row that masks out the capture state is written with those bits 0 (R102). -/
def encode : Instr → Encoded
  | .nop => .cmd (cmdWord 0#8 0x00#8)
  | .consume => .cmd (cmdWord 0#8 0x01#8)
  | .refreshConfig => .cmd (cmdWord 0#8 0x02#8)
  | .setMode m => .cmd (setModeWord m)
  | .rawSend => .cmd (cmdWord 0#8 0x04#8)
  | .updateSlicer v => .cmd (updateSlicerWord v)
  | .scan => .cmd (cmdWord 0#8 0x06#8)
  | .wrCtrl d => writeTxn .ctrl d
  | .wrErr d => writeTxn .err d
  | .wrIntEn d => writeTxn .intEn d
  | .wrIntPend d => writeTxn .intPend d
  | .wrCmd d => writeTxn .cmd d
  | .wrPulseCount d => writeTxn .pulseCount d
  | .wrRepeats d => writeTxn .repeats d
  | .wrInterRepeatDelayMs d => writeTxn .interRepeatDelayMs d
  | .wrCfgSampleRate d => writeTxn .cfgSampleRate d
  | .wrCfgMinRawPulses d => writeTxn .cfgMinRawPulses d
  | .wrCfgSeekTimeoutMs d => writeTxn .cfgSeekTimeoutMs d
  | .wrCfgMinPreambleUs d => writeTxn .cfgMinPreambleUs d
  | .wrCfgMinPulseLenUs d => writeTxn .cfgMinPulseLenUs d
  | .wrCfgSignalEndTimeoutUs d => writeTxn .cfgSignalEndTimeoutUs d
  | .wrCfgFlags d => writeTxn .cfgFlags d
  | .wrPulse i d => .bus { we := true, offset := windowOffset i, data := d }
  | .wrRoId d => writeTxn .id d
  | .wrRoCaps d => writeTxn .caps d
  | .wrRoSettleUs d => writeTxn .settleUs d
  | .wrRoStatus d => writeTxn .status d
  | .wrRoErrInfo d => writeTxn .errInfo d
  | .wrRoErrData d => writeTxn .errData d
  | .wrRoNowUs d => writeTxn .nowUs d
  | .wrRoCapturedAt d => writeTxn .capturedAt d
  | .wrRoSignalStrength d => writeTxn .signalStrength d
  | .wrRoActSampleRate d => writeTxn .actSampleRate d
  | .wrRoActMinRawPulses d => writeTxn .actMinRawPulses d
  | .wrRoActSeekTimeoutMs d => writeTxn .actSeekTimeoutMs d
  | .wrRoActMinPreambleUs d => writeTxn .actMinPreambleUs d
  | .wrRoActMinPulseLenUs d => writeTxn .actMinPulseLenUs d
  | .wrRoActSignalEndTimeoutUs d => writeTxn .actSignalEndTimeoutUs d
  | .wrRoActFlags d => writeTxn .actFlags d
  | .rdReg r => .bus { we := false, offset := r.offset, data := 0#32 }
  | .rdPulse i => .bus { we := false, offset := windowOffset i, data := 0#32 }
  | .evEdgeIdle => .event 0b00000#5 false
  | .evEdgeSeekingShort => .event 0b00001#5 false
  | .evEdgeSeekingCommit => .event 0b00001#5 true
  | .evEdgeCapturingGlitch => .event 0b00010#5 false
  | .evEdgeCapturingAccept => .event 0b00010#5 true
  | .evEdgeDone => .event 0b00011#5 false
  | .evDeadlineSeeking => .event 0b00101#5 false
  | .evDeadlineCapturing => .event 0b00110#5 false
  | .evPollEnd => .event 0b01000#5 false
  | .evRadioStep => .event 0b01100#5 false
  | .evTxStep => .event 0b10000#5 false

/-! ### The opcode table's words -/

/-- What an instruction of the opcode table with the bits w is to a decoder. A row of up to 8 bits is an event
selector, with the outcome of the row's width test in bit 5 (DESIGN CHOICE, safe, log entry 4: the table gives the two
rows of one selector the same bits); of up to 16 bits a bus descriptor with data 0; of up to 32 bits a command word; a
longer one a bus descriptor in bits 15 to 0 with its data in bits 47 to 16. Bits outside the format reject. -/
def tableWord (nbits w : Nat) : Option Encoded :=
  if nbits ≤ 8 then
    if w < 2 ^ 6 then some (.event (BitVec.ofNat 5 w) (w.testBit 5)) else none
  else if nbits ≤ 16 then
    if w < 2 ^ 15 then some (.bus (busOf (BitVec.ofNat 15 w) 0#32)) else none
  else if nbits ≤ 32 then
    if w < 2 ^ 32 then some (.cmd (BitVec.ofNat 32 w)) else none
  else if w % 2 ^ 16 < 2 ^ 15 ∧ w / 2 ^ 16 < 2 ^ 32 then
    some (.bus (busOf (BitVec.ofNat 15 (w % 2 ^ 16)) (BitVec.ofNat 32 (w / 2 ^ 16))))
  else none

/-- The instruction the decoder reads from an opcode-table word, for the build State.reset has; none where the
decoder rejects. -/
def decodeTableWord (nbits w : Nat) : Option Instr :=
  match tableWord nbits w with
  | some e =>
    match decode Build.reference.capacity e with
    | .ok i => some i
    | .error _ => none
  | none => none

end Sys2Proof
end

