-- ==== Sys2Proof/Machine/State.lean ====
section
/-!
DEFINITION. The state of the block (10_state.md), in the groups of R20: the pulse buffer with its metadata, the
capture engine, the configuration, the radio power sub-block, the TX engine, errors and interrupts, the time base, and
the observation of a run (R55); and the model's own fields: the build parameters and the environment's inputs.
-/
namespace Sys2Proof.Machine

/-- `cap_state` (R22). -/
inductive CapState where
  | idle
  | seeking
  | capturing
  | done
deriving DecidableEq, Repr

/-- `end_reason` (R24). -/
inductive EndReason where
  | none
  | tooLong
  | signalEndTimeout
  | reachedLongPulseTimeOut
  | dynamicGapLengthReached
deriving DecidableEq, Repr

/-- `dl_kind` (R32). -/
inductive DeadlineKind where
  | seek
  | silence
  | adaptive
deriving DecidableEq, Repr

/-- `radio_step` (R41): none, first settle, second settle. -/
inductive RadioStep where
  | none
  | first
  | second
deriving DecidableEq, Repr

/-- `radio_origin` (R41): who started the sequence. -/
inductive Origin where
  | cmd
  | tx
deriving DecidableEq, Repr

/-- `tx_phase` (R44). -/
inductive TxPhase where
  | idle
  | acquire
  | pulse
  | gap
  | release
deriving DecidableEq, Repr

/-- The four radio outputs (R42). -/
inductive Pin where
  | rxGndEn
  | rxVccEn
  | txVccEn
  | txData
deriving DecidableEq, Repr

/-- The host-side error causes (R230). -/
inductive ErrCause where
  | illegalCmd
  | cmdRejected
  | writeRejected
  | cfgInvalid
  | busErr
  | fatal
deriving DecidableEq, Repr

/-- The bytes of the pulse window that are not 0: (byte offset in the host register space, byte) pairs, offsets rising
(R26, R62, R82). -/
abbrev Memory := List Host.Cell

/-- The buffer's metadata and transmit parameters (R24, R25, R27 to R30). -/
structure BufferMeta where
  endReason : EndReason
  pulseCount : Half
  repeats : Half
  interRepeatDelayMs : Half
  capturedAt : Word
  signalStrength : Half
deriving DecidableEq, Repr

/-- The capture engine: `cap_state`, `ready`, the timestamps, the deadline timer, `hold` and `slicer` (R22, R23, R31,
R32, R35, R36). -/
structure Capture where
  state : CapState
  ready : Bool
  firstEdge : Word
  lastEdge : Word
  dlArmed : Bool
  deadline : Word
  dlKind : DeadlineKind
  hold : Bool
  slicer : Bool
deriving DecidableEq, Repr

/-- The edge detector (R33). -/
structure EdgeDetector where
  rxPrev : Bool
  rxPrevValid : Bool
deriving DecidableEq, Repr

/-- The poll window of synchronous mode: `poll_open`, `poll_end` (R34). -/
structure PollWindow where
  isOpen : Bool
  endAt : Word
deriving DecidableEq, Repr

/-- `radio_mode` and the radio sequencer (R40, R41). -/
structure Radio where
  mode : RadioMode
  busy : Bool
  target : RadioMode
  step : RadioStep
  wait : Word
  origin : Origin
deriving DecidableEq, Repr

/-- The levels of the four radio outputs (R42). -/
structure Pins where
  rxGndEn : Bool
  rxVccEn : Bool
  txVccEn : Bool
  txData : Bool
deriving DecidableEq, Repr

/-- The TX engine (R44, R45). -/
structure TxEngine where
  phase : TxPhase
  prior : RadioMode
  rep : Half
  idx : Half
  wait : Word
deriving DecidableEq, Repr

/-- `err`, `err_cause`, `err_addr`, `err_data` (R46, R47). -/
structure Errors where
  flags : BitVec 7
  cause : BitVec 4
  addr : Offset
  data : Word
deriving DecidableEq, Repr

/-- `int_en`, `int_pend` and the output `irq` (R48, R49). -/
structure Interrupts where
  enable : BitVec 4
  pending : BitVec 4
  irq : Bool
deriving DecidableEq, Repr

/-- One entry of the output trace (R55). -/
structure TraceEntry where
  tick : Word
  pin : Pin
  level : Bool
deriving DecidableEq, Repr

/-- One value returned by a host read, with the tick and the offset of the read (R55). -/
structure HostRead where
  tick : Word
  offset : Offset
  value : Word
deriving DecidableEq, Repr

/-- The environment's side (R53): the samples of the tick being run, the inputs placed for the coming ticks (oldest
first), and the number of steps run, which picks the free input of a tick for which none is placed (log entry 2). -/
structure Environment where
  rxIn : Bool
  rssi : Half
  inputs : List Input
  ticks : Nat
deriving DecidableEq, Repr

/-- The state of the block. -/
structure State where
  build : Build
  mem : Memory
  buf : BufferMeta
  cap : Capture
  edge : EdgeDetector
  poll : PollWindow
  cfgSh : TimingConfig
  cfg : TimingConfig
  radio : Radio
  pins : Pins
  tx : TxEngine
  errs : Errors
  ints : Interrupts
  now : Word
  trace : List TraceEntry
  reads : List HostRead
  env : Environment
deriving DecidableEq, Repr

/-- Why the model stops where the spec does not. -/
inductive Fault where
  /-- A buffer word with an index above C is read or written: execWrPulse, execRdPulse on an ill-formed instruction,
  and the capture and TX engines in states that break R59. R61: no such index is ever formed. Safe (log entry 9). -/
  | bufferIndexOutOfRange
deriving DecidableEq, Repr

/-- Why the model refuses an instruction. -/
inductive Refusal where
  /-- Raised only by an arm of exec for an instruction without a meaning; safe. No arm does (every row has one). -/
  | notModelled (mnemonic : String)
deriving DecidableEq, Repr

/-- The outcome of an operation of the block. -/
abbrev Out := Host.Outcome State Fault Refusal

/-- What a byte of the pulse window that no cell lists reads as: its reset value (R26: every word 0). -/
def Memory.unlisted : Byte := 0#8

/-- The canonical form of the buffer's cells: offsets strictly rising, and no cell equal to what an unlisted byte
reads as. -/
def Memory.wf : Memory → Bool
  | [] => true
  | c :: m => (c.2 != Memory.unlisted) && m.all (fun d => decide (c.1 < d.1)) && Memory.wf m

/-- The block of build b right after reset (R260), with no input placed. -/
def State.resetOf (b : Build) : State :=
  { build := b
    mem := []
    buf :=
      { endReason := .none, pulseCount := 0#16, repeats := 0#16, interRepeatDelayMs := 0#16, capturedAt := 0#32
        signalStrength := 0#16 }
    cap :=
      { state := .idle, ready := false, firstEdge := 0#32, lastEdge := 0#32, dlArmed := false, deadline := 0#32
        dlKind := .silence, hold := false, slicer := false }
    edge := { rxPrev := false, rxPrevValid := false }
    poll := { isOpen := false, endAt := 0#32 }
    cfgSh := TimingConfig.reset b.capacity
    cfg := TimingConfig.reset b.capacity
    radio := { mode := .unset, busy := false, target := .off, step := .none, wait := 0#32, origin := .cmd }
    pins := { rxGndEn := false, rxVccEn := false, txVccEn := false, txData := false }
    tx := { phase := .idle, prior := .off, rep := 0#16, idx := 0#16, wait := 0#32 }
    errs := { flags := 0#7, cause := 0#4, addr := 0#14, data := 0#32 }
    ints := { enable := 0#4, pending := 0#4, irq := false }
    now := 0#32
    trace := []
    reads := []
    env := { rxIn := false, rssi := 0#16, inputs := [], ticks := 0 } }

/-- The block right after reset, in the reference build (R260; log entry 1). -/
def State.reset : State := State.resetOf Build.reference

end Sys2Proof.Machine
end

