-- ==== Sys2Proof/Machine/Flags.lean ====
section
/-!
DEFINITION. The derived predicates and flags of the block: codes of the enumerations as the registers show them, the
timestamp difference, `armed` (R57), the quiescence predicate Q (R58), `valid` (R39), the glitch predicate (R137), the
conditions of the events (R96), and the interrupt level (R49).
-/
namespace Sys2Proof.Machine

/-- `elapsed(a, b)`: the wrapped difference of two timestamps (R8, R50). -/
def elapsed (a b : Word) : Word := a - b

/-- STATUS.CAP_STATE and the state field of an event selector (R86, R102). -/
def CapState.code : CapState → BitVec 2
  | .idle => 0#2
  | .seeking => 1#2
  | .capturing => 2#2
  | .done => 3#2

/-- STATUS.END_REASON (R86). -/
def EndReason.code : EndReason → BitVec 3
  | .none => 0#3
  | .tooLong => 1#3
  | .signalEndTimeout => 2#3
  | .reachedLongPulseTimeOut => 3#3
  | .dynamicGapLengthReached => 4#3

/-- The cause code of an error, which is also the number of its ERR bit (R230). -/
def ErrCause.code : ErrCause → Nat
  | .illegalCmd => 1
  | .cmdRejected => 2
  | .writeRejected => 3
  | .cfgInvalid => 4
  | .busErr => 5
  | .fatal => 6

/-- `tx_busy` (R44). -/
def txBusy (s : State) : Bool := decide (s.tx.phase ≠ .idle)

/-- A capture is in SEEKING or CAPTURING. -/
def inCapture (s : State) : Bool := decide (s.cap.state = .seeking) || decide (s.cap.state = .capturing)

/-- `armed(S)`: the capture engine observes edges (R57). -/
def armed (s : State) : Bool :=
  decide (s.radio.mode = .rx) && !s.radio.busy && (s.cfg.asyncMode || s.poll.isOpen || inCapture s)

/-- `Q(S)`: the block is quiescent (R58). -/
def quiescent (s : State) : Bool :=
  !txBusy s
    && (decide (s.cap.state = .done) || (decide (s.cap.state = .idle) && (s.cap.hold || !armed s)))

/-- ERR.FATAL, the lock on every command (R46, R220). -/
def fatalLocked (s : State) : Bool := s.errs.flags.getLsbD 6

/-- `valid(c)` for capacity C (R39). -/
def cfgValid (capacity : Nat) (c : TimingConfig) : Bool :=
  decide (1 ≤ c.sampleRate.toNat) && decide (c.minRawPulses.toNat ≤ capacity)
    && decide (1 ≤ c.signalEndTimeoutUs.toNat) && decide (c.signalEndTimeoutUs.toNat < 2 ^ 31)
    && decide (c.minPreambleUs.toNat < 2 ^ 31) && decide (c.minPulseLenUs.toNat < 2 ^ 31)

/-- `glitch(w)` (R137). -/
def glitch (s : State) (w : Word) : Bool := decide (w < s.cfg.minPulseLenUs)

/-- The condition of EV_EDGE (R96, R131). -/
def edgeObserved (s : State) : Bool := (s.env.rxIn != s.edge.rxPrev) && s.edge.rxPrevValid && armed s

/-- The condition of EV_DEADLINE (R96, R143). -/
def deadlineDue (s : State) : Bool := s.cap.dlArmed && decide (s.now = s.cap.deadline)

/-- The condition of EV_POLL_END (R96, R147). -/
def pollDue (s : State) : Bool := s.poll.isOpen && decide (s.now = s.poll.endAt)

/-- The width an edge in SEEKING closes: from the edge that left IDLE (R134). -/
def seekWidth (s : State) : Word := elapsed s.now s.cap.firstEdge

/-- The width an edge in CAPTURING closes: from the last accepted edge (R139). -/
def pulseWidth (s : State) : Word := elapsed s.now s.cap.lastEdge

/-- The outcome of the width test that tells two edge rows of one selector apart (R102, R134, R139). -/
def longInterval (s : State) : Bool :=
  match s.cap.state with
  | .seeking => !decide (seekWidth s < s.cfg.minPreambleUs)
  | .capturing => !glitch s (pulseWidth s)
  | .idle => false
  | .done => false

/-- The level of `irq`: some pending source is enabled (R49, R235). -/
def irqLevel (s : State) : Bool := decide (s.ints.pending &&& s.ints.enable ≠ 0#4)

/-- The electrical level of an output with logical level b (R6 PIN_POLARITY, D31). -/
def electricalLevel (s : State) (b : Bool) : Bool := b == s.build.assertedLevel

end Sys2Proof.Machine
end

