-- ==== Sys2Proof/Machine/Ops.lean ====
section
/-!
DEFINITION. The shared operations over the state: sequencing of outcomes, the pulse buffer's bytes and words (R61,
R62), the error record that this block has in place of an exception (R231, R232, R238: there is no trap entry and no
trap return), the interrupt sources (R234), the pins with the output trace (R9, R55), host reads (R55) and reset (R260).
-/
namespace Sys2Proof.Machine

/-! ### Sequencing -/

/-- Run f on the next state; a stop stays a stop. -/
def andThen (o : Out) (f : State → Out) : Out :=
  match o with
  | .next s => f s
  | .fault r => .fault r
  | .refused r => .refused r

/-! ### The pulse buffer -/

/-- The byte at an offset of the pulse window. -/
def Memory.read : Memory → Nat → Byte
  | [], _ => Memory.unlisted
  | c :: m, a => if c.1 = a then c.2 else Memory.read m a

/-- Write the byte at an offset, keeping the canonical form. -/
def Memory.write : Memory → Nat → Byte → Memory
  | [], a, v => if v = Memory.unlisted then [] else [(a, v)]
  | c :: m, a, v =>
    if a < c.1 then (if v = Memory.unlisted then c :: m else (a, v) :: c :: m)
    else if a = c.1 then (if v = Memory.unlisted then m else (a, v) :: m)
    else c :: Memory.write m a v

/-- The byte offset of word i in the host register space (R82); the host's window and the block's own accesses share
the bytes. -/
def pulseAddr (i : Nat) : Nat := 0x2000 + 4 * i

/-- `MemRead(i, 2)`: the 16-bit word at index i, little-endian (R61, R62). -/
def Memory.readPulse (m : Memory) (i : Nat) : Half := m.read (pulseAddr i + 1) ++ m.read (pulseAddr i)

/-- `MemWrite(i, 2, v)` (R61, R62). -/
def Memory.writePulse (m : Memory) (i : Nat) (v : Half) : Memory :=
  (m.write (pulseAddr i) (v.extractLsb' 0 8)).write (pulseAddr i + 1) (v.extractLsb' 8 8)

/-- `pulses[i]` (R9). -/
def pulse (s : State) (i : Nat) : Half := s.mem.readPulse i

/-- `pulses[i] <- v`; an index above C is never formed (R61) and faults. -/
def setPulse (i : Nat) (v : Half) (s : State) : Out :=
  if i ≤ s.build.capacity then .next { s with mem := s.mem.writePulse i v } else .fault .bufferIndexOutOfRange

/-- The stored pulses `pulses[1 .. n]` (R142). -/
def storedPulses (s : State) : List Half :=
  (List.range s.buf.pulseCount.toNat).map (fun k => pulse s (k + 1))

/-! ### Errors and interrupts -/

/-- Set the pending bit of an interrupt source: 0 READY, 1 TX_DONE, 2 RADIO_DONE, 3 ERROR (R48, R234). -/
def setPending (k : Nat) (s : State) : State :=
  { s with ints := { s.ints with pending := s.ints.pending ||| (1#4 <<< k) } }

/-- `raise Err(c, a, d)`: the one record every host-side error makes (R231). -/
def raiseErr (c : ErrCause) (addr : Offset) (data : Word) (s : State) : State :=
  setPending 3
    { s with
      errs :=
        { flags := s.errs.flags ||| (1#7 <<< c.code), cause := BitVec.ofNat 4 c.code, addr := addr, data := data } }

/-- `raise Fatal(a, d)` (R232). -/
def raiseFatal (addr : Offset) (data : Word) (s : State) : State := raiseErr .fatal addr data s

/-- An error of a command: its address is that of CMD, its data the command word (R230). -/
def rejectCmd (c : ErrCause) (word : Word) (s : State) : State := raiseErr c Reg.cmd.offset word s

/-- The FATAL lock in front of every command (R220): while it holds, the command records CMD_REJECTED and does nothing
else. -/
def unlessFatal (word : Word) (run : State → Out) (s : State) : Out :=
  if fatalLocked s then .next (rejectCmd .cmdRejected word s) else run s

/-! ### Pins -/

/-- An output at a level. -/
def Pins.drive (p : Pins) : Pin → Bool → Pins
  | .rxGndEn, b => { p with rxGndEn := b }
  | .rxVccEn, b => { p with rxVccEn := b }
  | .txVccEn, b => { p with txVccEn := b }
  | .txData, b => { p with txData := b }

/-- `pin(p) <- b`: drive the output and append to the trace (R9, R55). -/
def drivePin (p : Pin) (b : Bool) (s : State) : State :=
  { s with pins := s.pins.drive p b, trace := s.trace ++ [{ tick := s.now, pin := p, level := b }] }

/-- Ordered pin writes of one step (R9). -/
def drivePins : List (Pin × Bool) → State → State
  | [], s => s
  | w :: ws, s => drivePins ws (drivePin w.1 w.2 s)

/-! ### Host reads -/

/-- Return a value to the host: it joins the observation of the run and changes nothing else (R55, R65). -/
def returnRead (offset : Offset) (value : Word) (s : State) : State :=
  { s with reads := s.reads ++ [{ tick := s.now, offset := offset, value := value }] }

/-! ### Reset -/

/-- Reset at any time: every state element at its reset value in one step (R260, R261). The environment's placed
inputs and its counter are no state of the block and stay. -/
def platformReset (s : State) : State := { State.resetOf s.build with env := s.env }

end Sys2Proof.Machine
end

