-- ==== Sys2Proof/Machine/Operands.lean ====
section
/-!
DEFINITION. The operands of bus transactions: the words a host reads (R82 to R90, R98) and the fields a write takes
from its data (R90, R98); the platform's placement of the window (R66, D48) and the byte lanes of a word (R62).
-/
namespace Sys2Proof.Machine

/-! ### Read words, most significant field first -/

/-- ID (R84). -/
def idWord : Word := 0x52464C07#32

/-- CAPS (R84): HAS_ADV_SLICER, bit 17, is 0 in this hardware. -/
def capsWord (s : State) : Word :=
  0#13 ++ bit s.build.hasAdaptiveGap ++ 0#1 ++ bit s.build.hasRssi ++ BitVec.ofNat 16 s.build.capacity

/-- STATUS (R86). -/
def statusWord (s : State) : Word :=
  0#15 ++ bit s.edge.rxPrev ++ bit (fatalLocked s) ++ bit (armed s) ++ bit s.cap.slicer ++ bit s.poll.isOpen
    ++ bit (txBusy s) ++ bit s.radio.busy ++ s.radio.mode.code ++ 0#1 ++ s.buf.endReason.code ++ 0#1
    ++ bit s.cap.ready ++ s.cap.state.code

/-- ERR_INFO (R87). -/
def errInfoWord (s : State) : Word := 0#2 ++ s.errs.addr ++ 0#12 ++ s.errs.cause

/-- CFG_FLAGS and ACT_FLAGS (R88). -/
def flagsWord (c : TimingConfig) : Word := 0#30 ++ bit c.adaptiveGapEn ++ bit c.asyncMode

/-- `readval(r)`: the field assembly of R84 to R89, reserved bits 0; CMD reads 0 (R83, R211). -/
def readval (s : State) : Reg → Word
  | .id => idWord
  | .caps => capsWord s
  | .settleUs => s.build.settleUs
  | .ctrl => 0#31 ++ bit s.cap.hold
  | .status => statusWord s
  | .err => 0#25 ++ s.errs.flags
  | .errInfo => errInfoWord s
  | .errData => s.errs.data
  | .intEn => 0#28 ++ s.ints.enable
  | .intPend => 0#28 ++ s.ints.pending
  | .cmd => 0#32
  | .nowUs => s.now
  | .capturedAt => s.buf.capturedAt
  | .signalStrength => s.buf.signalStrength.signExtend 32
  | .pulseCount => s.buf.pulseCount.zeroExtend 32
  | .repeats => s.buf.repeats.zeroExtend 32
  | .interRepeatDelayMs => s.buf.interRepeatDelayMs.zeroExtend 32
  | .cfgSampleRate => s.cfgSh.sampleRate.zeroExtend 32
  | .cfgMinRawPulses => s.cfgSh.minRawPulses.zeroExtend 32
  | .cfgSeekTimeoutMs => s.cfgSh.seekTimeoutMs.zeroExtend 32
  | .cfgMinPreambleUs => s.cfgSh.minPreambleUs
  | .cfgMinPulseLenUs => s.cfgSh.minPulseLenUs
  | .cfgSignalEndTimeoutUs => s.cfgSh.signalEndTimeoutUs
  | .cfgFlags => flagsWord s.cfgSh
  | .actSampleRate => s.cfg.sampleRate.zeroExtend 32
  | .actMinRawPulses => s.cfg.minRawPulses.zeroExtend 32
  | .actSeekTimeoutMs => s.cfg.seekTimeoutMs.zeroExtend 32
  | .actMinPreambleUs => s.cfg.minPreambleUs
  | .actMinPulseLenUs => s.cfg.minPulseLenUs
  | .actSignalEndTimeoutUs => s.cfg.signalEndTimeoutUs
  | .actFlags => flagsWord s.cfg

/-! ### Write data -/

/-- data[15:0] (R98). -/
def lowHalf (data : Word) : Half := data.extractLsb' 0 16

/-- The bits a write-1-to-clear register keeps (R83). -/
def clearOnes {n : Nat} (old written : BitVec n) : BitVec n := old &&& ~~~written

/-! ### The platform's view -/

/-- The offset of a platform address, where the window of R66 holds it: BASE is 16 KiB aligned (R6, D48). DESIGN CHOICE,
unsafe (log entry 13): a platform address is 32 bits wide, where the spec gives it no width. -/
def offsetOfAddress (s : State) (address : Word) : Option Offset :=
  if s.build.base.toNat ≤ address.toNat ∧ address.toNat < s.build.base.toNat + 2 ^ 14 then
    some (BitVec.ofNat 14 (address.toNat - s.build.base.toNat))
  else none

/-- Byte lane k of a register word, the byte at BASE + offset + k (R62). -/
def byteLane (w : Word) (k : Nat) : Byte := w.extractLsb' (8 * k) 8

end Sys2Proof.Machine
end

