-- ==== Sys2Proof/Machine/Buffer.lean ====
section
/-!
DEFINITION. Pulse buffer access and hand-off (42_buffer.md): the meanings of RD_PULSE, WR_PULSE, WR_PULSE_COUNT,
WR_REPEATS, WR_INTER_REPEAT_DELAY_MS and CONSUME.
-/
namespace Sys2Proof.Machine

/-- A gated write: performed only while Q holds and the value is legal, otherwise WRITE_REJECTED (R83 RWG, R171). -/
def gatedWrite (offset : Offset) (data : Word) (legal : Bool) (run : State → Out) (s : State) : Out :=
  if quiescent s && legal then run s else .next (raiseErr .writeRejected offset data s)

/-- RD_PULSE (R170). An index above C has no word: decode rejects it as a reserved offset, and here it faults. -/
def execRdPulse (i : Index) (s : State) : Out :=
  if i.toNat ≤ s.build.capacity then .next (returnRead (windowOffset i) ((pulse s i.toNat).zeroExtend 32) s)
  else .fault .bufferIndexOutOfRange

/-- WR_PULSE (R171). -/
def execWrPulse (i : Index) (data : Word) (s : State) : Out :=
  gatedWrite (windowOffset i) data true (setPulse i.toNat (lowHalf data)) s

/-- WR_PULSE_COUNT (R172). -/
def execWrPulseCount (data : Word) (s : State) : Out :=
  gatedWrite Reg.pulseCount.offset data (decide ((lowHalf data).toNat ≤ s.build.capacity))
    (fun s => .next { s with buf := { s.buf with pulseCount := lowHalf data } }) s

/-- WR_REPEATS (R173). -/
def execWrRepeats (data : Word) (s : State) : Out :=
  gatedWrite Reg.repeats.offset data true (fun s => .next { s with buf := { s.buf with repeats := lowHalf data } }) s

/-- WR_INTER_REPEAT_DELAY_MS (R174). -/
def execWrInterRepeatDelayMs (data : Word) (s : State) : Out :=
  gatedWrite Reg.interRepeatDelayMs.offset data true
    (fun s => .next { s with buf := { s.buf with interRepeatDelayMs := lowHalf data } }) s

/-- CONSUME without the FATAL lock (R175). -/
def consumeBody (s : State) : State :=
  if s.cap.ready then { s with cap := { s.cap with ready := false, state := .idle } } else s

/-- CONSUME (R175). -/
def execConsume (s : State) : Out := unlessFatal (cmdWord 0#8 0x01#8) (fun s => .next (consumeBody s)) s

end Sys2Proof.Machine
end

