-- ==== Sys2Proof/Machine/Capture.lean ====
section
/-!
DEFINITION. Pulse capture, glitch filter and frame detector (41_capture.md): storing a pulse (R135), arming the silence
deadline (R136, R142), ending a capture (R146), and the meanings of the edge, deadline and poll-window events.

An event is a condition that a phase of the tick tests (R95). The meaning of an event row is its rule where the row's
condition holds, and no change where it does not, because the event then does not occur (log entry 4).
-/
namespace Sys2Proof.Machine

/-! ### Operations of a capture -/

/-- The stored value of a width: floor division by M, saturated at PULSE_MAX (R135). -/
def scaledWidth (m : Half) (w : Word) : Half := BitVec.ofNat 16 (min (w.toNat / m.toNat) 0xFFFF)

/-- `store(w)`: append a half-pulse at the next index (R135). -/
def storePulse (w : Word) (s : State) : Out :=
  setPulse (s.buf.pulseCount.toNat + 1) (scaledWidth s.cfg.sampleRate w)
    { s with buf := { s.buf with pulseCount := s.buf.pulseCount + 1#16 } }

/-- The shortened timeout the build's gap policy gives, where it is consulted and its result is in range (R136,
R142). -/
def adaptiveGap (s : State) : Option Nat :=
  if s.build.hasAdaptiveGap && s.cfg.adaptiveGapEn then
    match Config.gapPolicy (storedPulses s) s.cfg with
    | some g => if 1 ≤ g ∧ g < s.cfg.signalEndTimeoutUs.toNat then some g else none
    | none => none
  else none

/-- `arm(t)` at the tick being run (R136). -/
def armDeadline (s : State) : State :=
  match adaptiveGap s with
  | some g =>
    { s with cap := { s.cap with dlArmed := true, deadline := s.now + BitVec.ofNat 32 g, dlKind := .adaptive } }
  | none =>
    { s with cap := { s.cap with dlArmed := true, deadline := s.now + s.cfg.signalEndTimeoutUs, dlKind := .silence } }

/-- `finish(reason, t)` at the tick being run: deliver a long enough train, discard another (R146). -/
def finish (reason : EndReason) (s : State) : State :=
  let s' :=
    { s with
      buf := { s.buf with endReason := reason, capturedAt := s.now }
      poll := { s.poll with isOpen := false } }
  if s.cfg.minRawPulses.toNat ≤ s.buf.pulseCount.toNat then
    setPending 0 { s' with cap := { s.cap with dlArmed := false, state := .done, ready := true } }
  else { s' with cap := { s.cap with dlArmed := false, state := .idle } }

/-- After a store: a full buffer ends the capture with TooLong, otherwise the deadline is armed again (R138, R141). -/
def closeOrArm (s : State) : State :=
  if s.buf.pulseCount.toNat = s.build.capacity then finish .tooLong s else armDeadline s

/-- The edge detector's sample of the line (R131). -/
def sampleEdge (s : State) : State := { s with edge := { rxPrev := s.env.rxIn, rxPrevValid := true } }

/-- An edge row: its rule runs where an edge is observed in the row's capture state with the row's outcome of the width
test (R96, R102, R132); the detector takes its sample first (R131). -/
def edgeRow (c : CapState) (long : Bool) (run : State → Out) (s : State) : Out :=
  if edgeObserved s && decide (s.cap.state = c) && (longInterval s == long) then run (sampleEdge s) else .next s

/-- A deadline row: its rule runs where the deadline falls due in the row's capture state (R96, R143). -/
def deadlineRow (c : CapState) (run : State → State) (s : State) : State :=
  if deadlineDue s && decide (s.cap.state = c) then run s else s

/-! ### Edge rules -/

/-- `edge_idle(t)` (R133). -/
def startSeeking (s : State) : State :=
  if s.cap.hold then s
  else
    { s with
      cap :=
        { s.cap with
          firstEdge := s.now, lastEdge := s.now, state := .seeking, dlArmed := true
          deadline := s.now + s.cfg.signalEndTimeoutUs, dlKind := .seek } }

/-- What the commit writes before the preamble interval is stored (R138). -/
def beginCapture (s : State) : State :=
  { s with
    cap := { s.cap with state := .capturing, lastEdge := s.now }
    buf :=
      { s.buf with
        pulseCount := 0#16, endReason := .none, signalStrength := if s.build.hasRssi then s.env.rssi else 0#16 } }

/-- `seek_commit(t, r, w)` (R138): a preamble interval that is a glitch is not stored (D7). -/
def seekCommit (s : State) : Out :=
  if glitch s (seekWidth s) then .next (armDeadline (beginCapture s))
  else andThen (storePulse (seekWidth s) (beginCapture s)) (fun s' => .next (closeOrArm s'))

/-- `accept(t, w)` (R141). -/
def acceptPulse (s : State) : Out :=
  andThen (storePulse (pulseWidth s) s)
    (fun s' => .next (closeOrArm { s' with cap := { s'.cap with lastEdge := s'.now } }))

/-- `edge_done()`: drop the edge and flag it (R140, R233). -/
def dropEdge (s : State) : State := { s with errs := { s.errs with flags := s.errs.flags ||| 1#7 } }

/-! ### Deadline rules -/

/-- `seek_abandon()` (R144). -/
def seekAbandon (s : State) : State := { s with cap := { s.cap with state := .idle, dlArmed := false } }

/-- The end reason of a timeout (R145). -/
def timeoutReason (s : State) : EndReason :=
  if s.cap.dlKind = .adaptive then .dynamicGapLengthReached
  else if 0xFFFF < (pulseWidth s).toNat / s.cfg.sampleRate.toNat then .reachedLongPulseTimeOut
  else .signalEndTimeout

/-- `capture_timeout(t)` (R145). -/
def captureTimeout (s : State) : State := finish (timeoutReason s) s

/-! ### Meanings -/

/-- EV_EDGE.IDLE (R133). -/
def execEvEdgeIdle (s : State) : Out := edgeRow .idle false (fun s => .next (startSeeking s)) s

/-- EV_EDGE.SEEKING.SHORT (R134): nothing but the detector's sample changes. -/
def execEvEdgeSeekingShort (s : State) : Out := edgeRow .seeking false (fun s => .next s) s

/-- EV_EDGE.SEEKING.COMMIT (R138). -/
def execEvEdgeSeekingCommit (s : State) : Out := edgeRow .seeking true seekCommit s

/-- EV_EDGE.CAPTURING.GLITCH (R139): nothing but the detector's sample changes. -/
def execEvEdgeCapturingGlitch (s : State) : Out := edgeRow .capturing false (fun s => .next s) s

/-- EV_EDGE.CAPTURING.ACCEPT (R141). -/
def execEvEdgeCapturingAccept (s : State) : Out := edgeRow .capturing true acceptPulse s

/-- EV_EDGE.DONE (R140). -/
def execEvEdgeDone (s : State) : Out := edgeRow .done false (fun s => .next (dropEdge s)) s

/-- EV_DEADLINE.SEEKING (R144). -/
def execEvDeadlineSeeking (s : State) : Out := .next (deadlineRow .seeking seekAbandon s)

/-- EV_DEADLINE.CAPTURING (R145). -/
def execEvDeadlineCapturing (s : State) : Out := .next (deadlineRow .capturing captureTimeout s)

/-- EV_POLL_END (R147). -/
def execEvPollEnd (s : State) : Out :=
  .next (if pollDue s then { s with poll := { s.poll with isOpen := false } } else s)

end Sys2Proof.Machine
end

