-- ==== Sys2Proof/Machine/Radio.lean ====
section
/-!
DEFINITION. The radio power sub-block (40_radio.md): the pin sequences (R111), the radio sequencer (R112 to R114), and
the meanings of SET_MODE (R110) and EV_RADIO_STEP (R113).
-/
namespace Sys2Proof.Machine

/-! ### Pin sequences (R111) -/

/-- Ground switch before supply switch. -/
def enableRx : List (Pin × Bool) := [(.rxGndEn, true), (.rxVccEn, true)]

/-- The reverse order of enable_RX. -/
def disableRx : List (Pin × Bool) := [(.rxVccEn, false), (.rxGndEn, false)]

/-- Data low before power. -/
def enableTx : List (Pin × Bool) := [(.txData, false), (.txVccEn, true)]

/-- The reverse order of enable_TX; the data pin ends low. -/
def disableTx : List (Pin × Bool) := [(.txVccEn, false), (.txData, false)]

/-- Step 1 of a change to a mode: the opposite role is disabled. UNSET is never a target (R41). -/
def stepOnePins : RadioMode → List (Pin × Bool)
  | .rx => disableTx
  | .tx => disableRx
  | .off => disableRx
  | .unset => []

/-- Step 2 of a change to a mode: the role is enabled, or for OFF the other one disabled. -/
def stepTwoPins : RadioMode → List (Pin × Bool)
  | .rx => enableRx
  | .tx => enableTx
  | .off => disableTx
  | .unset => []

/-! ### The sequencer -/

/-- `radio_start(m, origin)` (R112). -/
def radioStart (m : RadioMode) (origin : Origin) (s : State) : State :=
  drivePins (stepOnePins m)
    { s with
      radio :=
        { mode := s.radio.mode, busy := true, target := m, step := .first, wait := s.build.settleUs, origin := origin } }

/-- RADIO_DONE is a SET_MODE sequence's; the TX engine reports through TX_DONE (R114). -/
def radioDone (o : Origin) (s : State) : State :=
  match o with
  | .cmd => setPending 2 s
  | .tx => s

/-- `radio_complete()` (R114). -/
def radioComplete (s : State) : State :=
  radioDone s.radio.origin
    { s with
      radio := { s.radio with mode := s.radio.target, busy := false, step := .none, wait := 0#32 } }

/-- The settle that ran out was the first: step 2 and the second settle (R113). -/
def radioSecondStep (s : State) : State :=
  drivePins (stepTwoPins s.radio.target) { s with radio := { s.radio with step := .second, wait := s.build.settleUs } }

/-- `radio_tick()` (R113). -/
def radioAdvance (s : State) : State :=
  if s.radio.busy then
    if s.radio.wait - 1#32 = 0#32 then
      if s.radio.step = .first then radioSecondStep s else radioComplete s
    else { s with radio := { s.radio with wait := s.radio.wait - 1#32 } }
  else s

/-! ### Meanings -/

/-- SET_MODE without the FATAL lock, in the order of checks of R110 and R237. -/
def setModeBody (m : RadioMode) (s : State) : State :=
  if m = .unset then raiseFatal Reg.cmd.offset (setModeWord m) s
  else if s.radio.busy || txBusy s then rejectCmd .cmdRejected (setModeWord m) s
  else if m = s.radio.mode then s
  else radioStart m .cmd s

/-- SET_MODE (R110). -/
def execSetMode (m : RadioMode) (s : State) : Out :=
  unlessFatal (setModeWord m) (fun s => .next (setModeBody m s)) s

/-- EV_RADIO_STEP (R113). -/
def execEvRadioStep (s : State) : Out := .next (radioAdvance s)

end Sys2Proof.Machine
end

