-- ==== Sys2Proof/Machine/Replay.lean ====
section
/-!
DEFINITION. The transmit replay engine (43_replay.md): segments and their advance (R193, R194), acquire and release
(R192, R196), and the meanings of RAW_SEND (R190, R191) and EV_TX_STEP (R195).

R194's loop runs a chain of zero-length segments within one step. Here the chain recurses on what is left of it: the
half-pulses left in the transmission, and the transmissions left.
-/
namespace Sys2Proof.Machine

/-- `tx_finish()` (R196). -/
def txFinish (s : State) : State :=
  setPending 1 { s with tx := { s.tx with phase := .idle, rep := 0#16, idx := 0#16, wait := 0#32 } }

/-- `release()` (R196). -/
def txRelease (s : State) : State :=
  if s.tx.prior = .tx then txFinish s
  else radioStart s.tx.prior .tx { s with tx := { s.tx with phase := .release } }

/-- The length of half-pulse `tx_idx` in ticks: its word times M (R193). -/
def segmentTicks (s : State) : Word :=
  (pulse s s.tx.idx.toNat).zeroExtend 32 * s.cfg.sampleRate.zeroExtend 32

/-- The pause between transmissions in ticks (R28, R194). -/
def pauseTicks (s : State) : Word := s.buf.interRepeatDelayMs.zeroExtend 32 * 1000#32

/-- The body of `begin_pulse()` before its zero-length test: an odd index is a mark (R193). An index above C is never
formed (R61) and faults. -/
def beginPulse (s : State) : Out :=
  if s.tx.idx.toNat ≤ s.build.capacity then
    .next
      (drivePin .txData (s.tx.idx.getLsbD 0)
        { s with tx := { s.tx with phase := .pulse, wait := segmentTicks s } })
  else .fault .bufferIndexOutOfRange

/-- `begin_pulse()` with `left` half-pulses after this one in the transmission: a zero-length segment goes on to the
next at once, and the last one to the end of the transmission (R193, R194). -/
def playPulses (endTransmission : State → Out) : Nat → State → Out
  | 0, s => andThen (beginPulse s) (fun s => if s.tx.wait = 0#32 then endTransmission s else .next s)
  | left + 1, s =>
    andThen (beginPulse s)
      (fun s =>
        if s.tx.wait = 0#32 then playPulses endTransmission left { s with tx := { s.tx with idx := s.tx.idx + 1#16 } }
        else .next s)

/-- The half-pulses after half-pulse `tx_idx` in the transmission (R194: `tx_idx < pulse_count`). -/
def pulsesLeft (s : State) : Nat := s.buf.pulseCount.toNat - s.tx.idx.toNat

/-- The transmissions after transmission `tx_rep` (R194: `tx_rep < repeats`). -/
def repeatsLeft (s : State) : Nat := s.buf.repeats.toNat - s.tx.rep.toNat

/-- Start the next transmission at half-pulse 1 (R194). -/
def nextTransmission (s : State) : State :=
  { s with tx := { s.tx with rep := s.tx.rep + 1#16, idx := 1#16 } }

/-- The end of a transmission with `left` transmissions after it: the data output goes low, and the pause, the next
transmission (after a zero pause) or the release follows (R194). -/
def endTransmission : Nat → State → Out
  | 0, s => .next (txRelease (drivePin .txData false s))
  | left + 1, s =>
    let s' := drivePin .txData false s
    let s'' := { s' with tx := { s'.tx with phase := .gap, wait := pauseTicks s' } }
    if s''.tx.wait = 0#32 then
      playPulses (endTransmission left) (pulsesLeft (nextTransmission s'')) (nextTransmission s'')
    else .next s''

/-- `begin_pulse()` (R193). -/
def playTransmission (s : State) : Out := playPulses (endTransmission (repeatsLeft s)) (pulsesLeft s) s

/-- `start_train()` (R193). -/
def startTrain (s : State) : Out := playTransmission { s with tx := { s.tx with rep := 1#16, idx := 1#16 } }

/-- `advance()` from TX_PULSE (R194). -/
def advancePulse (s : State) : Out :=
  if s.tx.idx < s.buf.pulseCount then playTransmission { s with tx := { s.tx with idx := s.tx.idx + 1#16 } }
  else endTransmission (repeatsLeft s) s

/-- `advance()` from TX_GAP (R194). -/
def advanceGap (s : State) : Out := playTransmission (nextTransmission s)

/-- Count a segment down and advance when it has run out (R195). -/
def countDown (advance : State → Out) (s : State) : Out :=
  let s' := { s with tx := { s.tx with wait := s.tx.wait - 1#32 } }
  if s'.tx.wait = 0#32 then advance s' else .next s'

/-- `tx_tick()` (R195). -/
def txAdvance (s : State) : Out :=
  match s.tx.phase with
  | .idle => .next s
  | .acquire => if s.radio.busy then .next s else startTrain s
  | .pulse => countDown advancePulse s
  | .gap => countDown advanceGap s
  | .release => if s.radio.busy then .next s else .next (txFinish s)

/-- The command word of RAW_SEND (R92). -/
def rawSendWord : Word := cmdWord 0#8 0x04#8

/-- RAW_SEND past its checks (R190, R191). -/
def rawSendAccept (s : State) : Out :=
  let s' := { s with tx := { s.tx with prior := s.radio.mode } }
  if s.buf.repeats = 0#16 ∨ s.buf.pulseCount = 0#16 then .next (setPending 1 s')
  else if s.radio.mode = .tx then startTrain s'
  else .next (radioStart .tx .tx { s' with tx := { s'.tx with phase := .acquire } })

/-- RAW_SEND without the FATAL lock, in the order of checks of R190 and R237. -/
def rawSendBody (s : State) : Out :=
  if s.radio.busy || txBusy s then .next (rejectCmd .cmdRejected rawSendWord s)
  else if s.radio.mode = .unset then .next (raiseFatal Reg.cmd.offset rawSendWord s)
  else if inCapture s then .next (rejectCmd .cmdRejected rawSendWord s)
  else rawSendAccept s

/-- RAW_SEND (R190). -/
def execRawSend (s : State) : Out := unlessFatal rawSendWord rawSendBody s

/-- EV_TX_STEP (R195). -/
def execEvTxStep (s : State) : Out := txAdvance s

end Sys2Proof.Machine
end

