-- ==== Sys2Proof/Machine/Control.lean ====
section
/-!
DEFINITION. Control, configuration and command decode (44_control.md): the meanings of NOP, REFRESH_CONFIG,
UPDATE_SLICER, SCAN, RD_REG, the writes to the control, error, interrupt and configuration registers, and WR_CMD, which
decodes and runs the command.
-/
namespace Sys2Proof.Machine

/-! ### Commands -/

/-- NOP (R210). -/
def execNop (s : State) : Out := unlessFatal (cmdWord 0#8 0x00#8) (fun s => .next s) s

/-- The command word of REFRESH_CONFIG (R92). -/
def refreshConfigWord : Word := cmdWord 0#8 0x02#8

/-- REFRESH_CONFIG without the FATAL lock, in the order of checks of R212 and R237. -/
def refreshConfigBody (s : State) : State :=
  if quiescent s then
    if cfgValid s.build.capacity s.cfgSh then { s with cfg := s.cfgSh } else rejectCmd .cfgInvalid refreshConfigWord s
  else rejectCmd .cmdRejected refreshConfigWord s

/-- REFRESH_CONFIG (R212). -/
def execRefreshConfig (s : State) : Out := unlessFatal refreshConfigWord (fun s => .next (refreshConfigBody s)) s

/-- UPDATE_SLICER without the FATAL lock (R213): HAS_ADV_SLICER is 0, so Advanced is rejected and Legacy is already
active. -/
def updateSlicerBody (v : Slicer) (s : State) : State :=
  if inCapture s then rejectCmd .cmdRejected (updateSlicerWord v) s
  else
    match v with
    | .advanced => rejectCmd .cmdRejected (updateSlicerWord v) s
    | .legacy => s

/-- UPDATE_SLICER (R213). -/
def execUpdateSlicer (v : Slicer) (s : State) : Out :=
  unlessFatal (updateSlicerWord v) (fun s => .next (updateSlicerBody v s)) s

/-- The length of a poll window in ticks (R214). -/
def pollTicks (s : State) : Word := s.cfg.seekTimeoutMs.zeroExtend 32 * 1000#32

/-- SCAN without the FATAL lock (R214). -/
def scanBody (s : State) : State :=
  if !s.cfg.asyncMode && decide (s.cfg.seekTimeoutMs ≠ 0#16) then
    { s with poll := { isOpen := true, endAt := s.now + pollTicks s } }
  else s

/-- SCAN (R214). -/
def execScan (s : State) : Out := unlessFatal (cmdWord 0#8 0x06#8) (fun s => .next (scanBody s)) s

/-! ### Register reads -/

/-- RD_REG (R211). -/
def execRdReg (r : Reg) (s : State) : Out := .next (returnRead r.offset (readval s r) s)

/-! ### Register writes -/

/-- WR_CTRL (R215). -/
def execWrCtrl (data : Word) (s : State) : Out := .next { s with cap := { s.cap with hold := data.getLsbD 0 } }

/-- WR_ERR (R216): bits 0 to 5 clear where a 1 is written, bit 6 never. -/
def execWrErr (data : Word) (s : State) : Out :=
  .next { s with errs := { s.errs with flags := clearOnes s.errs.flags (0#1 ++ data.extractLsb' 0 6) } }

/-- WR_INT_EN (R217). -/
def execWrIntEn (data : Word) (s : State) : Out :=
  .next { s with ints := { s.ints with enable := data.extractLsb' 0 4 } }

/-- WR_INT_PEND (R218). -/
def execWrIntPend (data : Word) (s : State) : Out :=
  .next { s with ints := { s.ints with pending := clearOnes s.ints.pending (data.extractLsb' 0 4) } }

/-- A write of the shadow configuration: nothing else changes and no value is checked (R219). -/
def writeShadow (c : TimingConfig) (s : State) : Out := .next { s with cfgSh := c }

/-- WR_CFG_SAMPLE_RATE (R219). -/
def execWrCfgSampleRate (data : Word) (s : State) : Out := writeShadow { s.cfgSh with sampleRate := lowHalf data } s

/-- WR_CFG_MIN_RAW_PULSES (R219). -/
def execWrCfgMinRawPulses (data : Word) (s : State) : Out := writeShadow { s.cfgSh with minRawPulses := lowHalf data } s

/-- WR_CFG_SEEK_TIMEOUT_MS (R219). -/
def execWrCfgSeekTimeoutMs (data : Word) (s : State) : Out :=
  writeShadow { s.cfgSh with seekTimeoutMs := lowHalf data } s

/-- WR_CFG_MIN_PREAMBLE_US (R219). -/
def execWrCfgMinPreambleUs (data : Word) (s : State) : Out := writeShadow { s.cfgSh with minPreambleUs := data } s

/-- WR_CFG_MIN_PULSE_LEN_US (R219). -/
def execWrCfgMinPulseLenUs (data : Word) (s : State) : Out := writeShadow { s.cfgSh with minPulseLenUs := data } s

/-- WR_CFG_SIGNAL_END_TIMEOUT_US (R219). -/
def execWrCfgSignalEndTimeoutUs (data : Word) (s : State) : Out :=
  writeShadow { s.cfgSh with signalEndTimeoutUs := data } s

/-- WR_CFG_FLAGS (R219): ADAPTIVE_GAP_EN is hardwired 0 in a build without the adaptive gap. -/
def execWrCfgFlags (data : Word) (s : State) : Out :=
  writeShadow
    { s.cfgSh with asyncMode := data.getLsbD 0, adaptiveGapEn := s.build.hasAdaptiveGap && data.getLsbD 1 } s

/-! ### The command register -/

/-- The command a legal word is, or ILLEGAL_CMD (R220, R94). -/
def runCommand (data : Word) (s : State) : Out :=
  match decodeCmd data with
  | .ok .nop => execNop s
  | .ok .consume => execConsume s
  | .ok .refreshConfig => execRefreshConfig s
  | .ok (.setMode m) => execSetMode m s
  | .ok .rawSend => execRawSend s
  | .ok (.updateSlicer v) => execUpdateSlicer v s
  | .ok .scan => execScan s
  | _ => .next (rejectCmd .illegalCmd data s)

/-- WR_CMD (R220): the FATAL lock, then the legality of the word, then the command. -/
def execWrCmd (data : Word) (s : State) : Out := unlessFatal data (runCommand data) s

end Sys2Proof.Machine
end

