-- ==== Sys2Proof/Machine/ReadOnly.lean ====
section
/-!
DEFINITION. Writes to read-only registers (R221): each records BUS_ERR and performs no write.
-/
namespace Sys2Proof.Machine

/-- A write to a read-only register: BUS_ERR with the register's offset and the write data (R83 RO, R221). -/
def rejectReadOnly (r : Reg) (data : Word) (s : State) : Out := .next (raiseErr .busErr r.offset data s)

/-- WR_RO_ID (R221). -/
def execWrRoId (data : Word) (s : State) : Out := rejectReadOnly .id data s

/-- WR_RO_CAPS (R221). -/
def execWrRoCaps (data : Word) (s : State) : Out := rejectReadOnly .caps data s

/-- WR_RO_SETTLE_US (R221). -/
def execWrRoSettleUs (data : Word) (s : State) : Out := rejectReadOnly .settleUs data s

/-- WR_RO_STATUS (R221). -/
def execWrRoStatus (data : Word) (s : State) : Out := rejectReadOnly .status data s

/-- WR_RO_ERR_INFO (R221). -/
def execWrRoErrInfo (data : Word) (s : State) : Out := rejectReadOnly .errInfo data s

/-- WR_RO_ERR_DATA (R221). -/
def execWrRoErrData (data : Word) (s : State) : Out := rejectReadOnly .errData data s

/-- WR_RO_NOW_US (R221). -/
def execWrRoNowUs (data : Word) (s : State) : Out := rejectReadOnly .nowUs data s

/-- WR_RO_CAPTURED_AT (R221). -/
def execWrRoCapturedAt (data : Word) (s : State) : Out := rejectReadOnly .capturedAt data s

/-- WR_RO_SIGNAL_STRENGTH (R221). -/
def execWrRoSignalStrength (data : Word) (s : State) : Out := rejectReadOnly .signalStrength data s

/-- WR_RO_ACT_SAMPLE_RATE (R221). -/
def execWrRoActSampleRate (data : Word) (s : State) : Out := rejectReadOnly .actSampleRate data s

/-- WR_RO_ACT_MIN_RAW_PULSES (R221). -/
def execWrRoActMinRawPulses (data : Word) (s : State) : Out := rejectReadOnly .actMinRawPulses data s

/-- WR_RO_ACT_SEEK_TIMEOUT_MS (R221). -/
def execWrRoActSeekTimeoutMs (data : Word) (s : State) : Out := rejectReadOnly .actSeekTimeoutMs data s

/-- WR_RO_ACT_MIN_PREAMBLE_US (R221). -/
def execWrRoActMinPreambleUs (data : Word) (s : State) : Out := rejectReadOnly .actMinPreambleUs data s

/-- WR_RO_ACT_MIN_PULSE_LEN_US (R221). -/
def execWrRoActMinPulseLenUs (data : Word) (s : State) : Out := rejectReadOnly .actMinPulseLenUs data s

/-- WR_RO_ACT_SIGNAL_END_TIMEOUT_US (R221). -/
def execWrRoActSignalEndTimeoutUs (data : Word) (s : State) : Out := rejectReadOnly .actSignalEndTimeoutUs data s

/-- WR_RO_ACT_FLAGS (R221). -/
def execWrRoActFlags (data : Word) (s : State) : Out := rejectReadOnly .actFlags data s

end Sys2Proof.Machine
end

