-- ==== Sys2Proof/Machine/Dispatch.lean ====
section
/-! DEFINITION. The one match from an instruction to its meaning. -/
namespace Sys2Proof.Machine

def exec (i : Instr) (s : State) : Host.Outcome State Fault Refusal :=
  match i with
  | .nop => Sys2Proof.Machine.execNop s
  | .consume => Sys2Proof.Machine.execConsume s
  | .refreshConfig => Sys2Proof.Machine.execRefreshConfig s
  | .setMode m => Sys2Proof.Machine.execSetMode m s
  | .rawSend => Sys2Proof.Machine.execRawSend s
  | .updateSlicer v => Sys2Proof.Machine.execUpdateSlicer v s
  | .scan => Sys2Proof.Machine.execScan s
  | .wrCtrl data => Sys2Proof.Machine.execWrCtrl data s
  | .wrErr data => Sys2Proof.Machine.execWrErr data s
  | .wrIntEn data => Sys2Proof.Machine.execWrIntEn data s
  | .wrIntPend data => Sys2Proof.Machine.execWrIntPend data s
  | .wrCmd data => Sys2Proof.Machine.execWrCmd data s
  | .wrPulseCount data => Sys2Proof.Machine.execWrPulseCount data s
  | .wrRepeats data => Sys2Proof.Machine.execWrRepeats data s
  | .wrInterRepeatDelayMs data => Sys2Proof.Machine.execWrInterRepeatDelayMs data s
  | .wrCfgSampleRate data => Sys2Proof.Machine.execWrCfgSampleRate data s
  | .wrCfgMinRawPulses data => Sys2Proof.Machine.execWrCfgMinRawPulses data s
  | .wrCfgSeekTimeoutMs data => Sys2Proof.Machine.execWrCfgSeekTimeoutMs data s
  | .wrCfgMinPreambleUs data => Sys2Proof.Machine.execWrCfgMinPreambleUs data s
  | .wrCfgMinPulseLenUs data => Sys2Proof.Machine.execWrCfgMinPulseLenUs data s
  | .wrCfgSignalEndTimeoutUs data => Sys2Proof.Machine.execWrCfgSignalEndTimeoutUs data s
  | .wrCfgFlags data => Sys2Proof.Machine.execWrCfgFlags data s
  | .wrPulse k data => Sys2Proof.Machine.execWrPulse k data s
  | .wrRoId data => Sys2Proof.Machine.execWrRoId data s
  | .wrRoCaps data => Sys2Proof.Machine.execWrRoCaps data s
  | .wrRoSettleUs data => Sys2Proof.Machine.execWrRoSettleUs data s
  | .wrRoStatus data => Sys2Proof.Machine.execWrRoStatus data s
  | .wrRoErrInfo data => Sys2Proof.Machine.execWrRoErrInfo data s
  | .wrRoErrData data => Sys2Proof.Machine.execWrRoErrData data s
  | .wrRoNowUs data => Sys2Proof.Machine.execWrRoNowUs data s
  | .wrRoCapturedAt data => Sys2Proof.Machine.execWrRoCapturedAt data s
  | .wrRoSignalStrength data => Sys2Proof.Machine.execWrRoSignalStrength data s
  | .wrRoActSampleRate data => Sys2Proof.Machine.execWrRoActSampleRate data s
  | .wrRoActMinRawPulses data => Sys2Proof.Machine.execWrRoActMinRawPulses data s
  | .wrRoActSeekTimeoutMs data => Sys2Proof.Machine.execWrRoActSeekTimeoutMs data s
  | .wrRoActMinPreambleUs data => Sys2Proof.Machine.execWrRoActMinPreambleUs data s
  | .wrRoActMinPulseLenUs data => Sys2Proof.Machine.execWrRoActMinPulseLenUs data s
  | .wrRoActSignalEndTimeoutUs data => Sys2Proof.Machine.execWrRoActSignalEndTimeoutUs data s
  | .wrRoActFlags data => Sys2Proof.Machine.execWrRoActFlags data s
  | .rdReg r => Sys2Proof.Machine.execRdReg r s
  | .rdPulse k => Sys2Proof.Machine.execRdPulse k s
  | .evEdgeIdle => Sys2Proof.Machine.execEvEdgeIdle s
  | .evEdgeSeekingShort => Sys2Proof.Machine.execEvEdgeSeekingShort s
  | .evEdgeSeekingCommit => Sys2Proof.Machine.execEvEdgeSeekingCommit s
  | .evEdgeCapturingGlitch => Sys2Proof.Machine.execEvEdgeCapturingGlitch s
  | .evEdgeCapturingAccept => Sys2Proof.Machine.execEvEdgeCapturingAccept s
  | .evEdgeDone => Sys2Proof.Machine.execEvEdgeDone s
  | .evDeadlineSeeking => Sys2Proof.Machine.execEvDeadlineSeeking s
  | .evDeadlineCapturing => Sys2Proof.Machine.execEvDeadlineCapturing s
  | .evPollEnd => Sys2Proof.Machine.execEvPollEnd s
  | .evRadioStep => Sys2Proof.Machine.execEvRadioStep s
  | .evTxStep => Sys2Proof.Machine.execEvTxStep s

end Sys2Proof.Machine
end

