-- ==== Sys2Proof/Machine/Phases.lean ====
section
/-!
DEFINITION. The tick (R56): the event phases A1 to A4 and B, the host transactions of phase C (R81), phase D, and the
input that a step takes (R53). Each phase that finds its event decodes the event's selector and runs the instruction it
decodes to; each transaction is decoded and run the same way.
-/
namespace Sys2Proof.Machine

/-! ### Event phases -/

/-- The selector of an event in the present capture state (R102). -/
def eventSelector (code : BitVec 3) (s : State) : BitVec 5 := code ++ s.cap.state.code

/-- Run the event row a selector decodes to. A deadline in IDLE or DONE has no row: it cannot occur (R132, R143). -/
def runEvent (code : BitVec 3) (s : State) : Out :=
  match decodeEvent (eventSelector code s) (longInterval s) with
  | .ok i => exec i s
  | .error _ => .next s

/-- Phase A1: `radio_tick()` (R113). -/
def radioPhase (s : State) : Out := if s.radio.busy then runEvent 3#3 s else .next s

/-- Phase A2: `tx_tick()` (R195). -/
def txPhase (s : State) : Out := if txBusy s then runEvent 4#3 s else .next s

/-- Phase A3: `deadline_tick()` (R143). -/
def deadlinePhase (s : State) : Out := if deadlineDue s then runEvent 1#3 s else .next s

/-- Phase A4: `poll_tick()` (R147). -/
def pollPhase (s : State) : Out := if pollDue s then runEvent 2#3 s else .next s

/-- Phase B: `edge_tick(x, r)` (R131). An edge that is not observed changes only the detector's sample. -/
def edgePhase (s : State) : Out := if edgeObserved s then runEvent 0#3 s else .next (sampleEdge s)

/-! ### Host transactions -/

/-- A transaction that no register takes: BUS_ERR, and a read returns 0 (R63, R66, R81). -/
def rejectTxn (h : BusTxn) (s : State) : State :=
  if h.we then raiseErr .busErr h.offset h.data s else returnRead h.offset 0#32 (raiseErr .busErr h.offset 0#32 s)

/-- `bus(h)` (R81). -/
def bus (h : BusTxn) (s : State) : Out :=
  match decodeBus s.build.capacity h with
  | .ok i => exec i s
  | .error _ => .next (rejectTxn h s)

/-- Phase C: the transactions of the tick, in order (R56, R69). -/
def hostPhase : List BusTxn → State → Out
  | [], s => .next s
  | h :: hs, s => andThen (bus h s) (hostPhase hs)

/-! ### The tick -/

/-- Phase D and the end of the tick (R49, R50, R56). -/
def endTick (s : State) : State := { s with ints := { s.ints with irq := irqLevel s }, now := s.now + 1#32 }

/-- The tick's samples at the input ports (R5, R53). -/
def sampleInputs (t : TickInput) (s : State) : State := { s with env := { s.env with rxIn := t.rx, rssi := t.rssi } }

/-- Phases A1 to B, the block's own steps of a tick (R56). -/
def blockPhases (s : State) : Out :=
  andThen (radioPhase s) fun s => andThen (txPhase s) fun s => andThen (deadlinePhase s) fun s =>
    andThen (pollPhase s) edgePhase

/-- `tick()` (R56). -/
def tick (t : TickInput) (s : State) : Out :=
  andThen (blockPhases (sampleInputs t s)) fun s => andThen (hostPhase t.host s) fun s => .next (endTick s)

/-! ### The input of a step -/

/-- The input of this step: the oldest one placed, or the environment's free input (R53, log entry 2). -/
def nextInput (s : State) : Input :=
  match s.env.inputs with
  | [] => Config.freeInput s.env.ticks
  | i :: _ => i

/-- The state with the step's input taken from the environment. -/
def takeInput (s : State) : State :=
  { s with env := { s.env with inputs := s.env.inputs.tail, ticks := s.env.ticks + 1 } }

/-- Run a step's input: a tick (R56) or the platform's reset (R260, R261). -/
def runInput (i : Input) (s : State) : Out :=
  match i with
  | .tick t => tick t s
  | .reset => .next (platformReset s)

/-! ### Placing an instruction for the next step -/

/-- A tick without an edge and with the given transactions. -/
def quietTick (host : List BusTxn) (s : State) : TickInput := { rx := s.edge.rxPrev, rssi := 0#16, host := host }

/-- Put an input in front of those placed. -/
def placeInput (i : Input) (s : State) : State := { s with env := { s.env with inputs := i :: s.env.inputs } }

/-- The capture state an event selector names (R102). -/
def capStateOf (c : BitVec 2) : CapState :=
  match c.toNat with
  | 0 => .idle
  | 1 => .seeking
  | 2 => .capturing
  | _ => .done

/-- At least 1, so that a width of 0 is below it. -/
def atLeastOne (w : Word) : Word := if w = 0#32 then 1#32 else w

/-- Make the capture engine armed, in the given state and with no deadline due, with a change of level in the next
tick, and with an interval of the given outcome of the width test. -/
def placeEdge (c : CapState) (long : Bool) (s : State) : State :=
  let s :=
    { s with
      radio := { s.radio with mode := .rx, busy := false, step := .none }
      tx := { s.tx with phase := .idle }
      edge := { s.edge with rxPrevValid := true }
      cap := { s.cap with state := c, ready := decide (c = CapState.done), dlArmed := false, hold := false }
      cfg := { s.cfg with asyncMode := true } }
  let s :=
    if long then
      { s with
        cap := { s.cap with firstEdge := s.now - s.cfg.minPreambleUs, lastEdge := s.now - s.cfg.minPulseLenUs } }
    else
      { s with
        cfg :=
          { s.cfg with
            minPreambleUs := atLeastOne s.cfg.minPreambleUs, minPulseLenUs := atLeastOne s.cfg.minPulseLenUs }
        cap := { s.cap with firstEdge := s.now, lastEdge := s.now } }
  placeInput (.tick { rx := !s.edge.rxPrev, rssi := 0#16, host := [] }) s

/-- Make the event of a selector occur in the next tick (R96); the codes 5 to 7 are no event. -/
def placeEvent (selector : BitVec 5) (long : Bool) (s : State) : State :=
  let c := capStateOf (selector.extractLsb' 0 2)
  let quiet (s : State) : State := placeInput (.tick (quietTick [] s)) s
  match (selector.extractLsb' 2 3).toNat with
  | 0 => placeEdge c long s
  | 1 => quiet { s with cap := { s.cap with state := c, ready := decide (c = CapState.done), dlArmed := true, deadline := s.now } }
  | 2 => quiet { s with poll := { isOpen := true, endAt := s.now } }
  | 3 =>
    quiet
      (if s.radio.busy then s
       else { s with radio := { s.radio with busy := true, step := .first, wait := 1#32 } })
  | 4 => quiet (if txBusy s then s else { s with tx := { s.tx with phase := .pulse, wait := 2#32 } })
  | _ => quiet s

/-- Place what a decoder reads so that the next step runs it: a command is a write to CMD, a transaction is presented
in the next tick, an event is made to occur in it (log entry 3). -/
def placeEncoded (e : Encoded) (s : State) : State :=
  match e with
  | .cmd w => placeInput (.tick (quietTick [{ we := true, offset := Reg.cmd.offset, data := w }] s)) s
  | .bus h => placeInput (.tick (quietTick [h] s)) s
  | .event selector long => placeEvent selector long s

/-- Place an opcode-table word for the next step; a word of no format places nothing. -/
def placeTableWord (nbits w : Nat) (s : State) : State :=
  match tableWord nbits w with
  | some e => placeEncoded e s
  | none => s

end Sys2Proof.Machine
end

