-- ==== Sys2Proof/Machine/Step.lean ====
section
/-! DEFINITION. One step of the block: one tick of 1 us (R5, R56), or the platform's reset (R260). -/
namespace Sys2Proof.Machine

/-- One step: take the step's input and run it. -/
def step (s : State) : Host.Outcome State Fault Refusal := runInput (nextInput s) (takeInput s)

/-- The state with an opcode-table word placed where the next step takes its instruction from. -/
def State.withFetchWord (s : State) (nbits w : Nat) : State := placeTableWord nbits w s

end Sys2Proof.Machine
end

