-- ==== Sys2Proof/Safety.lean ====
section
/-!
DEFINITION. What counts as a safe run, in the terms claims use: the invariants of R59 and R43 with what makes them
inductive, the output trace's safety (R43, R116), `no fault recorded` (R247), and the end of a run (R247). The last part
holds the words the statements of Certificates/ share: each is a rule of the spec written out, not the model's own
operation under another name.
-/
namespace Sys2Proof.Machine

/-! ### Single facts -/

/-- Receiver and transmitter are never powered together (R43). -/
def Pins.exclusive (p : Pins) : Bool := !((p.rxGndEn || p.rxVccEn) && p.txVccEn)

/-- All outputs low: their reset value (R42). -/
def Pins.allLow : Pins := { rxGndEn := false, rxVccEn := false, txVccEn := false, txData := false }

/-- A recorded FATAL is the only fault of the block (R247). -/
def noFaultRecorded (s : State) : Prop := s.errs.flags.getLsbD 6 = false

/-- The block is settled: a run of a host program ends at the first such tick after its last transaction (R247). -/
def settled (s : State) : Bool := !s.radio.busy && !txBusy s && !inCapture s && !s.poll.isOpen

/-- An address of one of the two bytes of a pulse word with index at most C (R61, R62, R82). -/
def pulseByte (capacity a : Nat) : Bool :=
  decide (0x2000 ≤ a) && decide ((a - 0x2000) / 4 ≤ capacity) && decide ((a - 0x2000) % 4 < 2)

/-! ### Invariants -/

/-- The build parameters are in range (R6), the buffer's cells are in canonical form and only bytes of pulse words are
listed (R61). -/
structure BufferInv (s : State) : Prop where
  build : s.build.wf = true
  canonical : Memory.wf s.mem = true
  range : s.mem.all (fun c => pulseByte s.build.capacity c.1) = true
  count : s.buf.pulseCount.toNat ≤ s.build.capacity

/-- The active configuration is valid (R39); the hardwired fields read their fixed values (R36, R37, R90). -/
structure ConfigInv (s : State) : Prop where
  valid : cfgValid s.build.capacity s.cfg = true
  shadowGap : s.cfgSh.adaptiveGapEn = true → s.build.hasAdaptiveGap = true
  activeGap : s.cfg.adaptiveGapEn = true → s.build.hasAdaptiveGap = true
  slicer : s.cap.slicer = false

/-- The capture items of R59: 1, 2, 3 (its second half), 4 and 5. -/
structure CaptureInv (s : State) : Prop where
  ready : s.cap.ready = true ↔ s.cap.state = .done
  deadline : s.cap.dlArmed = true ↔ inCapture s = true
  room : s.cap.state = .capturing → s.buf.pulseCount.toNat < s.build.capacity
  silence :
    s.cap.state = .capturing → s.cap.dlKind ≠ .adaptive →
      s.cap.deadline = s.cap.lastEdge + s.cfg.signalEndTimeoutUs
  seek :
    s.cap.state = .seeking →
      s.cap.deadline = s.cap.firstEdge + s.cfg.signalEndTimeoutUs ∧ s.cap.dlKind = .seek

/-- The outputs a running radio sequence has reached: after step 1 the opposite role is off, after step 2 the role is
as its mode has it (R111). -/
def Radio.sequencePins (r : Radio) (p : Pins) : Prop :=
  match r.target, r.step with
  | .rx, .first => p.txVccEn = false ∧ p.txData = false
  | .rx, _ => p.txVccEn = false ∧ p.txData = false ∧ p.rxGndEn = true ∧ p.rxVccEn = true
  | .tx, .first => p.rxGndEn = false ∧ p.rxVccEn = false
  | .tx, _ => p.rxGndEn = false ∧ p.rxVccEn = false ∧ p.txVccEn = true ∧ p.txData = false
  | .off, .first => p.rxGndEn = false ∧ p.rxVccEn = false
  | .off, _ => p = Pins.allLow
  | .unset, _ => False

/-- The outputs a mode has while no sequence runs (R115); in TX the data output is the TX engine's. -/
def modePins (m : RadioMode) (p : Pins) : Prop :=
  match m with
  | .rx => p.rxGndEn = true ∧ p.rxVccEn = true ∧ p.txVccEn = false ∧ p.txData = false
  | .tx => p.rxGndEn = false ∧ p.rxVccEn = false ∧ p.txVccEn = true
  | .off => p = Pins.allLow
  | .unset => p = Pins.allLow

/-- The radio items of R59, 8 and 9, with the outputs of R111 and R115 that make item 8 inductive. -/
structure RadioInv (s : State) : Prop where
  exclusive : s.pins.exclusive = true
  step : s.radio.busy = false ↔ s.radio.step = .none
  target : s.radio.target ≠ .unset
  wait : s.radio.busy = true → s.radio.wait ≠ 0#32
  running : s.radio.busy = true → s.radio.sequencePins s.pins
  still : s.radio.busy = false → modePins s.radio.mode s.pins

/-- The TX items of R59, 6 and 7, with the counters' ranges (R21, R45) and the radio sequence that an acquire or a
release is about (R192, R196). -/
structure TxInv (s : State) : Prop where
  playing : s.tx.phase = .pulse ∨ s.tx.phase = .gap → s.radio.mode = .tx ∧ s.radio.busy = false
  noCapture : txBusy s = true → inCapture s = false
  train :
    txBusy s = true → s.tx.phase ≠ .release → 1 ≤ s.buf.pulseCount.toNat ∧ 1 ≤ s.buf.repeats.toNat
  index : s.tx.phase = .pulse → 1 ≤ s.tx.idx.toNat ∧ s.tx.idx.toNat ≤ s.buf.pulseCount.toNat
  repetition :
    s.tx.phase = .pulse ∨ s.tx.phase = .gap → 1 ≤ s.tx.rep.toNat ∧ s.tx.rep.toNat ≤ s.buf.repeats.toNat
  pause : s.tx.phase = .gap → s.tx.rep.toNat < s.buf.repeats.toNat
  wait : s.tx.phase = .pulse ∨ s.tx.phase = .gap → s.tx.wait ≠ 0#32
  prior : s.tx.prior ≠ .unset
  acquire :
    s.tx.phase = .acquire →
      (s.radio.busy = true → s.radio.target = .tx) ∧ (s.radio.busy = false → s.radio.mode = .tx)
  release :
    s.tx.phase = .release →
      s.tx.prior ≠ .tx ∧ (s.radio.busy = true → s.radio.target = s.tx.prior) ∧
        (s.radio.busy = false → s.radio.mode = s.tx.prior)

/-- The invariant of the block after every phase of every tick (R59). -/
structure PhaseInv (s : State) : Prop where
  buffer : BufferInv s
  config : ConfigInv s
  capture : CaptureInv s
  radio : RadioInv s
  tx : TxInv s

/-- The invariant of the block at the end of a tick, and after every phase but A1: an acquire or a release whose
sequence has ended in phase A1 is taken up in phase A2 of the same tick (R192, R195). -/
structure BlockInv (s : State) : Prop extends PhaseInv s where
  waits : s.tx.phase = .acquire ∨ s.tx.phase = .release → s.radio.busy = true

/-! ### The output trace -/

/-- The outputs after the pin writes of a trace (R55). -/
def pinsAfter (p : Pins) : List TraceEntry → Pins
  | [] => p
  | e :: t => pinsAfter (p.drive e.pin e.level) t

/-- At every point of the trace, the outputs keep R43. -/
def exclusiveAlong (p : Pins) : List TraceEntry → Bool
  | [] => p.exclusive
  | e :: t => p.exclusive && exclusiveAlong (p.drive e.pin e.level) t

/-- The trace from reset keeps R43 at every point and ends in the present outputs (R43, R55, R116). -/
structure TraceInv (s : State) : Prop where
  along : exclusiveAlong Pins.allLow s.trace = true
  present : pinsAfter Pins.allLow s.trace = s.pins

/-! ### Words the statements share -/

/-- The illegal command words, clause by clause (R94). -/
def IllegalWord (w : Word) : Prop :=
  w.toNat / 2 ^ 16 ≠ 0 ∨ 0x07 ≤ w.toNat % 256
    ∨ (w.toNat % 256 ∈ [0x00, 0x01, 0x02, 0x04, 0x06] ∧ w.toNat / 256 % 256 ≠ 0)
    ∨ (w.toNat % 256 = 0x03 ∧ w.toNat / 256 % 256 / 4 ≠ 0)
    ∨ (w.toNat % 256 = 0x05 ∧ w.toNat / 256 % 256 / 2 ≠ 0)

/-- The aligned offsets that are not reserved, for capacity C (R66, R82). -/
def MappedOffset (capacity o : Nat) : Prop :=
  o ≤ 0x040 ∨ (0x080 ≤ o ∧ o ≤ 0x098) ∨ (0x0C0 ≤ o ∧ o ≤ 0x0D8) ∨ (0x2000 ≤ o ∧ o ≤ 0x2000 + 4 * capacity)

/-- A register write transaction to an offset. -/
def hostWrite (offset : Offset) (data : Word) : BusTxn := { we := true, offset := offset, data := data }

/-- A read transaction of an offset. -/
def hostRead (offset : Offset) : BusTxn := { we := false, offset := offset, data := 0#32 }

/-- The state in which a host read has returned a value: the observation of the run is longer by it (R55), and nothing
else differs (R65). -/
def answered (s : State) (offset : Offset) (value : Word) : State :=
  { s with reads := s.reads ++ [{ tick := s.now, offset := offset, value := value }] }

/-- The record of an error, R231 written out for a cause with a given code. -/
def recorded (code : Nat) (addr : Offset) (data : Word) (s : State) : State :=
  { s with
    errs :=
      { flags := s.errs.flags ||| (1#7 <<< code), cause := BitVec.ofNat 4 code, addr := addr, data := data }
    ints := { s.ints with pending := s.ints.pending ||| 8#4 } }

/-- The state with pin writes made in order at the present tick (R9, R55). -/
def withPins (ws : List (Pin × Bool)) (s : State) : State :=
  { s with
    pins := ws.foldl (fun p w => p.drive w.1 w.2) s.pins
    trace := s.trace ++ ws.map (fun w => { tick := s.now, pin := w.1, level := w.2 }) }

/-- The pin writes of step 1 of a change to a mode, R111's two tables read together. -/
def firstPins : RadioMode → List (Pin × Bool)
  | .rx => [(.txVccEn, false), (.txData, false)]
  | .tx => [(.rxVccEn, false), (.rxGndEn, false)]
  | .off => [(.rxVccEn, false), (.rxGndEn, false)]
  | .unset => []

/-- The pin writes of step 2 (R111). -/
def secondPins : RadioMode → List (Pin × Bool)
  | .rx => [(.rxGndEn, true), (.rxVccEn, true)]
  | .tx => [(.txData, false), (.txVccEn, true)]
  | .off => [(.txVccEn, false), (.txData, false)]
  | .unset => []

/-- A radio sequence started at the present tick (R112). -/
def sequenceStarted (m : RadioMode) (o : Origin) (s : State) : State :=
  withPins (firstPins m)
    { s with
      radio :=
        { mode := s.radio.mode, busy := true, target := m, step := .first, wait := s.build.settleUs, origin := o } }

/-- The detector's sample of the line (R131). -/
def sampled (s : State) : State := { s with edge := { rxPrev := s.env.rxIn, rxPrevValid := true } }

/-- The end of a capture (R146). -/
def captureEnded (reason : EndReason) (s : State) : State :=
  if s.cfg.minRawPulses.toNat ≤ s.buf.pulseCount.toNat then
    { s with
      buf := { s.buf with endReason := reason, capturedAt := s.now }
      cap := { s.cap with dlArmed := false, state := .done, ready := true }
      poll := { s.poll with isOpen := false }
      ints := { s.ints with pending := s.ints.pending ||| 1#4 } }
  else
    { s with
      buf := { s.buf with endReason := reason, capturedAt := s.now }
      cap := { s.cap with dlArmed := false, state := .idle }
      poll := { s.poll with isOpen := false } }

/-- The deadline and its kind after an accepted edge at the present tick, for the train stored so far (R136, R142). -/
def gapDeadline (train : List Half) (s : State) : Word × DeadlineKind :=
  match if s.build.hasAdaptiveGap && s.cfg.adaptiveGapEn then Config.gapPolicy train s.cfg else none with
  | some g =>
    if 1 ≤ g ∧ g < s.cfg.signalEndTimeoutUs.toNat then (s.now + BitVec.ofNat 32 g, .adaptive)
    else (s.now + s.cfg.signalEndTimeoutUs, .silence)
  | none => (s.now + s.cfg.signalEndTimeoutUs, .silence)

/-- The deadline armed for a train (R136). -/
def deadlineArmed (train : List Half) (s : State) : State :=
  { s with
    cap :=
      { s.cap with dlArmed := true, deadline := (gapDeadline train s).1, dlKind := (gapDeadline train s).2 } }

/-- The stored value of a width: `min(w div M, 0xFFFF)` (R135). -/
def storedWidth (w : Word) (s : State) : Half := BitVec.ofNat 16 (min (w.toNat / s.cfg.sampleRate.toNat) 0xFFFF)

/-- The words `pulses[1 .. n]`. -/
def train (n : Nat) (s : State) : List Half := (List.range n).map (fun k => pulse s (k + 1))

/-- The length of half-pulse k in ticks: `pulses[k] × M` (R193). -/
def halfPulseTicks (k : Nat) (s : State) : Nat := (pulse s k).toNat * s.cfg.sampleRate.toNat

/-- Half-pulse k of transmission r begun at the present tick (R193): an odd index is a mark. -/
def halfPulseBegun (r k : Nat) (s : State) : State :=
  withPins [(.txData, decide (k % 2 = 1))]
    { s with
      tx :=
        { s.tx with
          phase := .pulse, rep := BitVec.ofNat 16 r, idx := BitVec.ofNat 16 k
          wait := BitVec.ofNat 32 (halfPulseTicks k s) } }

/-- The rest of a tick after an operation of its phase C: the transactions that follow, and the end of the tick (R56). -/
def restOfTick (hs : List BusTxn) (o : Out) : Out :=
  andThen o fun s => andThen (hostPhase hs s) fun s => .next (endTick s)

/-- The outcome of k ticks with the inputs ts 0, ts 1, ... (R53, R56). -/
def ticks (ts : Nat → TickInput) : Nat → Out → Out
  | 0, o => o
  | k + 1, o => andThen (ticks ts k o) (tick (ts k))

/-- The state after phase A1 of a tick with input t (R56). -/
def throughRadio (t : TickInput) (o : Out) : Out := andThen o fun s => radioPhase (sampleInputs t s)

/-- The state after phase A2 of a tick with input t (R56). -/
def throughTransmit (t : TickInput) (o : Out) : Out := andThen (throughRadio t o) txPhase

/-- The `tx_data` writes of one transmission that begins at tick τ, as (tick, level): half-pulse k at
`τ + Σ v_j M`, high for an odd k, and the low level at the end (R197 items 1 and 2). -/
def transmissionWrites (M : Nat) : Nat → Nat → List Half → List (Nat × Bool)
  | _, τ, [] => [(τ, false)]
  | k, τ, v :: vs => (τ, decide (k % 2 = 1)) :: transmissionWrites M (k + 1) (τ + v.toNat * M) vs

/-- The `tx_data` writes of N transmissions, each L ticks long with a pause of D ticks after it (R197). -/
def trainWrites (M L D : Nat) (vs : List Half) : Nat → Nat → List (Nat × Bool)
  | 0, _ => []
  | N + 1, τ => transmissionWrites M 1 τ vs ++ trainWrites M L D vs N (τ + L + D)

/-- The trace entries of pin writes given as (tick, pin, level), counted from tick t. -/
def traceFrom (t : Word) (ws : List (Nat × Pin × Bool)) : List TraceEntry :=
  ws.map fun w => { tick := t + BitVec.ofNat 32 w.1, pin := w.2.1, level := w.2.2 }

/-- Pin writes all made τ ticks after the start. -/
def pinsAt (τ : Nat) (ws : List (Pin × Bool)) : List (Nat × Pin × Bool) := ws.map fun w => (τ, w.1, w.2)

end Sys2Proof.Machine
end

