-- ==== Sys2Proof/Certificates/Slice0/Obligations.lean ====
section
/-!
DEFINITION. The statements made of this model, one definition each, written from the numbered rules of spec/. The words
they share (recorded, sequenceStarted, captureEnded and so on) stand at the end of Safety.lean, each taken from a rule.
-/
open Sys2Proof Sys2Proof.Machine

/-! ### Encoding -/

/-- Decoding the encoding of an operation gives the operation back, with every operand, for every capacity it is well
formed for (R91 to R93, R96 to R98, R102). For the two edge rows of one selector the encoding carries the outcome of the
row's width test, which is the model's choice (log entry 4). -/
def Obligations.DecodeOfEncode : Prop :=
  ∀ (i : Instr) (capacity : Nat), i.wf capacity = true → decode capacity (encode i) = .ok i

/-- A legal command word is the word of the operation it decodes to: no two words are one command (R92, R93, R94). -/
def Obligations.CommandWordIsItsEncoding : Prop := ∀ (w : Word) (i : Instr), decodeCmd w = .ok i → encode i = .cmd w

/-- A transaction that decodes is the encoding of its operation, and the operation is one of the build; a read carries
no data (R80, R81, R97, R98). -/
def Obligations.TransactionIsItsEncoding : Prop :=
  ∀ (capacity : Nat) (h : BusTxn) (i : Instr), decodeBus capacity h = .ok i →
    i.wf capacity = true ∧ encode i = .bus { h with data := if h.we then h.data else 0#32 }

/-- Exactly the words of R94 decode to no command, and writing one to CMD records ILLEGAL_CMD and does nothing else;
SET_MODE with mode 3 is well formed, but fatal. -/
def Obligations.IllegalWordsRecordIllegalCmd : Prop :=
  (∀ w : Word, IllegalWord w ↔ ∀ i, decodeCmd w ≠ .ok i) ∧
    (∀ (w : Word) (s : State), IllegalWord w → s.errs.flags.getLsbD 6 = false →
      exec (.wrCmd w) s = .next (recorded 1 0x028#14 w s)) ∧
    decodeCmd 0x00000303#32 = .ok (.setMode .unset) ∧
    ∀ s : State, s.errs.flags.getLsbD 6 = false →
      exec (.wrCmd 0x00000303#32) s = .next (recorded 6 0x028#14 0x00000303#32 s)

/-- Words written out from the spec's encodings decode to the operations they stand for (R93, R97, R102). That a word of 48
bits carries the DATA of a write in its bits 47 to 16, above the descriptor, is the model's choice (log entry 12), as DATA
is no part of R97's selector; decodeTableWord decodes for the capacity of the reference build (log entry 1). -/
def Obligations.SampleWordsDecode : Prop :=
  decodeCmd 0x00000103#32 = .ok (.setMode .rx) ∧ decodeCmd 0x00000105#32 = .ok (.updateSlicer .advanced) ∧
    decodeTableWord 48 (0xABCD1234 * 2 ^ 16 + 0b100000000101000) = some (.wrCmd 0xABCD1234#32) ∧
    decodeTableWord 48 (300 * 2 ^ 16 + 0b110000000000100) = some (.wrPulse 1#11 300#32) ∧
    decodeTableWord 15 0b000000000010000 = some (.rdReg .status) ∧
    decodeTableWord 5 0b00110 = some .evDeadlineCapturing

/-! ### Transactions outside the register map -/

/-- A misaligned transaction performs no read or write, records BUS_ERR, and returns 0 if it is a read (R63). -/
def Obligations.MisalignedAccessIsBusErr : Prop :=
  ∀ (h : BusTxn) (s : State), h.offset.toNat % 4 ≠ 0 →
    (h.we = true → bus h s = .next (recorded 5 h.offset h.data s)) ∧
      (h.we = false → bus h s = .next (answered (recorded 5 h.offset 0#32 s) h.offset 0#32))

/-- The regions of the register space (R66): an aligned offset of a register or of the pulse window has an operation;
every other one records BUS_ERR, performs nothing, and returns 0 on read. -/
def Obligations.ReservedOffsetIsBusErr : Prop :=
  ∀ (h : BusTxn) (s : State), h.offset.toNat % 4 = 0 →
    (MappedOffset s.build.capacity h.offset.toNat → ∃ i, bus h s = exec i s ∧ i.wf s.build.capacity = true) ∧
      (¬ MappedOffset s.build.capacity h.offset.toNat →
        (h.we = true → bus h s = .next (recorded 5 h.offset h.data s)) ∧
          (h.we = false → bus h s = .next (answered (recorded 5 h.offset 0#32 s) h.offset 0#32)))

/-! ### The step -/

/-- A step runs the instruction it decodes. Where the step's input is a tick with one transaction, the block's own phases
have led to u, and the transaction decodes to i, the step is exec of i at u with the end of the tick after it; phases in
which no event occurs only take the detector's sample; and with more transactions, each is exec of what it decodes to, in
order (R56, R69, R81). That a step takes the oldest input the state holds is the model's choice (log entries 2, 3). -/
def Obligations.StepRunsDecodedInstruction : Prop :=
  (∀ (s u : State) (t : TickInput) (rest : List Input) (h : BusTxn) (i : Instr),
      s.env.inputs = .tick t :: rest → t.host = [h] → blockPhases (sampleInputs t (takeInput s)) = .next u →
      decodeBus u.build.capacity h = .ok i → step s = andThen (exec i u) fun v => .next (endTick v)) ∧
    (∀ s : State, s.radio.busy = false → txBusy s = false → deadlineDue s = false → pollDue s = false →
      edgeObserved s = false → blockPhases s = .next (sampled s)) ∧
    (∀ (s : State) (h : BusTxn) (hs : List BusTxn) (i : Instr), decodeBus s.build.capacity h = .ok i →
      hostPhase (h :: hs) s = andThen (exec i s) (hostPhase hs))

/-- One tick runs the phases A1, A2, A3, A4, B, C and D in this order, each on what the one before it leaves; `now` is
the same in all of them and advances at the end; `irq` is the OR of the enabled pending bits after phase C (R56, R49). -/
def Obligations.TickRunsPhasesInOrder : Prop :=
  ∀ (t : TickInput) (s a1 a2 a3 a4 a5 u : State), radioPhase (sampleInputs t s) = .next a1 → txPhase a1 = .next a2 →
    deadlinePhase a2 = .next a3 → pollPhase a3 = .next a4 → edgePhase a4 = .next a5 → hostPhase t.host a5 = .next u →
    u.now = s.now ∧
      tick t s =
        .next
          { u with
            ints :=
              { u.ints with irq := (List.range 4).any fun k => u.ints.pending.getLsbD k && u.ints.enable.getLsbD k }
            now := u.now + 1#32 }

/-- Each event phase runs the row of its event where the event's condition holds, the row being that of the capture
state and, for an edge, of the width test; otherwise it changes nothing, but for the edge detector's sample (R96, R131,
R132, R143, R147). That a due deadline in IDLE or DONE, which R132 says cannot occur, changes nothing is the model's
deduction (log entry 15). -/
def Obligations.EventPhasesRunTheirRows : Prop :=
  ∀ s : State,
    radioPhase s = (if s.radio.busy = true then exec .evRadioStep s else .next s) ∧
    txPhase s = (if s.tx.phase ≠ .idle then exec .evTxStep s else .next s) ∧
    deadlinePhase s =
      (if s.cap.dlArmed = true ∧ s.now = s.cap.deadline then
        match s.cap.state with
        | .seeking => exec .evDeadlineSeeking s
        | .capturing => exec .evDeadlineCapturing s
        | .idle => .next s
        | .done => .next s
      else .next s) ∧
    pollPhase s = (if s.poll.isOpen = true ∧ s.now = s.poll.endAt then exec .evPollEnd s else .next s) ∧
    edgePhase s =
      (if s.env.rxIn ≠ s.edge.rxPrev ∧ s.edge.rxPrevValid = true ∧ armed s = true then
        match s.cap.state with
        | .idle => exec .evEdgeIdle s
        | .seeking =>
          if s.now - s.cap.firstEdge < s.cfg.minPreambleUs then exec .evEdgeSeekingShort s
          else exec .evEdgeSeekingCommit s
        | .capturing =>
          if s.now - s.cap.lastEdge < s.cfg.minPulseLenUs then exec .evEdgeCapturingGlitch s
          else exec .evEdgeCapturingAccept s
        | .done => exec .evEdgeDone s
      else .next (sampled s))

/-! ### Reset -/

/-- Reset puts every state element at its reset value, for every build, and STATUS then reads 0x00000300 (R260). The
build itself, and what the environment supplies, are no state of the block; State.reset has the build of log entry 1. -/
def Obligations.ResetValues : Prop :=
  ∀ b : Build,
    let s := State.resetOf b
    s.build = b ∧ s.cap.state = .idle ∧ s.cap.ready = false ∧ s.buf.endReason = .none ∧ s.buf.pulseCount = 0#16 ∧
      (∀ k, pulse s k = 0#16) ∧ s.buf.repeats = 0#16 ∧ s.buf.interRepeatDelayMs = 0#16 ∧ s.buf.capturedAt = 0#32 ∧
      s.buf.signalStrength = 0#16 ∧ s.cap.firstEdge = 0#32 ∧ s.cap.lastEdge = 0#32 ∧ s.cap.dlArmed = false ∧
      s.cap.deadline = 0#32 ∧ s.cap.dlKind = .silence ∧ s.edge = { rxPrev := false, rxPrevValid := false } ∧
      s.poll = { isOpen := false, endAt := 0#32 } ∧ s.cap.hold = false ∧ s.cap.slicer = false ∧
      s.cfgSh =
        { sampleRate := 1#16, minRawPulses := BitVec.ofNat 16 (min 24 b.capacity), seekTimeoutMs := 0#16
          minPreambleUs := 100#32, minPulseLenUs := 0#32, signalEndTimeoutUs := 5000#32, asyncMode := true
          adaptiveGapEn := false } ∧
      s.cfg = s.cfgSh ∧
      s.radio = { mode := .unset, busy := false, target := .off, step := .none, wait := 0#32, origin := .cmd } ∧
      s.pins = { rxGndEn := false, rxVccEn := false, txVccEn := false, txData := false } ∧
      s.tx = { phase := .idle, prior := .off, rep := 0#16, idx := 0#16, wait := 0#32 } ∧
      s.errs = { flags := 0#7, cause := 0#4, addr := 0#14, data := 0#32 } ∧
      s.ints = { enable := 0#4, pending := 0#4, irq := false } ∧ s.now = 0#32 ∧ s.trace = [] ∧
      readval s .status = 0x00000300#32

/-- The state after reset of every build in range satisfies the invariant, the validity of the configuration among it,
and the trace's invariant (R262). -/
def Obligations.ResetStateSatisfiesInvariant : Prop :=
  (∀ b : Build, b.wf = true → BlockInv (State.resetOf b) ∧ TraceInv (State.resetOf b)) ∧ BlockInv State.reset

/-- A reset at any time, in whatever state, ends all activity at once: the state after it is the reset state of the
build, so the block is settled with all outputs low, no error recorded, FATAL cleared, and the buffer lost (R261). That a
reset is one kind of a step's input is the model's choice (log entry 8). -/
def Obligations.ResetEndsAllActivity : Prop :=
  ∀ (s : State) (rest : List Input), s.env.inputs = .reset :: rest →
    ∃ t, step s = .next t ∧ t = { State.resetOf s.build with env := t.env } ∧ t.env.inputs = rest ∧
      settled t = true ∧ t.pins = { rxGndEn := false, rxVccEn := false, txVccEn := false, txData := false } ∧
      t.errs = { flags := 0#7, cause := 0#4, addr := 0#14, data := 0#32 } ∧ t.trace = [] ∧ ∀ k, pulse t k = 0#16

/-! ### Reading registers -/

/-- A register read returns the register's value and changes nothing; a read of CMD returns 0; STATUS right after reset
reads 0x00000300 (R211). What a read returns joins the observation of the run (R55). -/
def Obligations.RegisterReadReturnsValue : Prop :=
  (∀ (r : Reg) (s : State), exec (.rdReg r) s = .next (answered s r.offset (readval s r))) ∧
    (∀ (r : Reg) (s : State), bus (hostRead r.offset) s = exec (.rdReg r) s) ∧
    (∀ s : State, readval s .cmd = 0#32) ∧ ∀ b : Build, readval (State.resetOf b) .status = 0x00000300#32

/-- The fields of STATUS (R86). -/
def Obligations.StatusFields : Prop :=
  ∀ s : State,
    let w := readval s .status
    (w.extractLsb' 0 2).toNat =
        (match s.cap.state with | .idle => 0 | .seeking => 1 | .capturing => 2 | .done => 3) ∧
      w.getLsbD 2 = s.cap.ready ∧ w.getLsbD 3 = false ∧
      (w.extractLsb' 4 3).toNat =
        (match s.buf.endReason with
          | .none => 0 | .tooLong => 1 | .signalEndTimeout => 2 | .reachedLongPulseTimeOut => 3
          | .dynamicGapLengthReached => 4) ∧
      w.getLsbD 7 = false ∧
      (w.extractLsb' 8 2).toNat = (match s.radio.mode with | .off => 0 | .rx => 1 | .tx => 2 | .unset => 3) ∧
      w.getLsbD 10 = s.radio.busy ∧ w.getLsbD 11 = decide (s.tx.phase ≠ .idle) ∧ w.getLsbD 12 = s.poll.isOpen ∧
      w.getLsbD 13 = s.cap.slicer ∧ (BlockInv s → w.getLsbD 13 = false) ∧
      (w.getLsbD 14 = true ↔
        s.radio.mode = .rx ∧ s.radio.busy = false ∧
          (s.cfg.asyncMode = true ∨ s.poll.isOpen = true ∨ s.cap.state = .seeking ∨ s.cap.state = .capturing)) ∧
      w.getLsbD 15 = s.errs.flags.getLsbD 6 ∧ w.getLsbD 16 = s.edge.rxPrev ∧ w.extractLsb' 17 15 = 0#15

/-- The error registers: the fields of ERR, ERR_INFO and ERR_DATA, and the write that clears bits 0 to 5 of ERR where it
has a 1, leaves bit 6, and changes nothing else (R87, R216). -/
def Obligations.ErrorRegisters : Prop :=
  (∀ s : State,
    (∀ k, (readval s .err).getLsbD k = s.errs.flags.getLsbD k) ∧
      (readval s .errInfo).extractLsb' 0 4 = s.errs.cause ∧ (readval s .errInfo).extractLsb' 4 12 = 0#12 ∧
      (readval s .errInfo).extractLsb' 16 14 = s.errs.addr ∧ (readval s .errInfo).extractLsb' 30 2 = 0#2 ∧
      readval s .errData = s.errs.data) ∧
    ∀ (d : Word) (s : State),
      bus (hostWrite 0x014#14 d) s = exec (.wrErr d) s ∧
      ∃ f, exec (.wrErr d) s = .next { s with errs := { s.errs with flags := f } } ∧
        ∀ k, f.getLsbD k = (s.errs.flags.getLsbD k && !(decide (k < 6) && d.getLsbD k))

/-- The identification registers (R84). -/
def Obligations.IdentificationRegisters : Prop :=
  ∀ s : State,
    readval s .id = 0x52464C07#32 ∧
      (readval s .caps).extractLsb' 0 16 = BitVec.ofNat 16 s.build.capacity ∧
      (readval s .caps).getLsbD 16 = s.build.hasRssi ∧ (readval s .caps).getLsbD 17 = false ∧
      (readval s .caps).getLsbD 18 = s.build.hasAdaptiveGap ∧ (readval s .caps).extractLsb' 19 13 = 0#13 ∧
      readval s .settleUs = s.build.settleUs

/-- The fields of the remaining registers: CTRL, the interrupt registers, the time base, the metadata and transmit
parameters, and the shadow and active configuration, with every reserved bit 0 (R85, R88, R89, R90). -/
def Obligations.DataRegisterFields : Prop :=
  ∀ s : State,
    (∀ k, (readval s .ctrl).getLsbD k = (decide (k = 0) && s.cap.hold)) ∧
      (∀ k, (readval s .intEn).getLsbD k = s.ints.enable.getLsbD k) ∧
      (∀ k, (readval s .intPend).getLsbD k = s.ints.pending.getLsbD k) ∧
      readval s .nowUs = s.now ∧ readval s .capturedAt = s.buf.capturedAt ∧
      (readval s .signalStrength).toInt = s.buf.signalStrength.toInt ∧
      (readval s .pulseCount).toNat = s.buf.pulseCount.toNat ∧ (readval s .repeats).toNat = s.buf.repeats.toNat ∧
      (readval s .interRepeatDelayMs).toNat = s.buf.interRepeatDelayMs.toNat ∧
      ∀ p ∈ [(s.cfgSh, Reg.cfgSampleRate, Reg.cfgMinRawPulses, Reg.cfgSeekTimeoutMs, Reg.cfgMinPreambleUs,
                Reg.cfgMinPulseLenUs, Reg.cfgSignalEndTimeoutUs, Reg.cfgFlags),
              (s.cfg, Reg.actSampleRate, Reg.actMinRawPulses, Reg.actSeekTimeoutMs, Reg.actMinPreambleUs,
                Reg.actMinPulseLenUs, Reg.actSignalEndTimeoutUs, Reg.actFlags)],
        match p with
        | (c, m, raw, seek, preamble, pulseLen, timeout, flags) =>
          (readval s m).toNat = c.sampleRate.toNat ∧ (readval s raw).toNat = c.minRawPulses.toNat ∧
            (readval s seek).toNat = c.seekTimeoutMs.toNat ∧ readval s preamble = c.minPreambleUs ∧
            readval s pulseLen = c.minPulseLenUs ∧ readval s timeout = c.signalEndTimeoutUs ∧
            ∀ k, (readval s flags).getLsbD k = (decide (k = 0) && c.asyncMode || decide (k = 1) && c.adaptiveGapEn)

/-- A read of window word i returns the word, zero-extended, in any state, and changes nothing; above C it is a reserved
offset: BUS_ERR, read 0 (R170). What a read returns joins the observation of the run (R55). -/
def Obligations.PulseReadReturnsWord : Prop :=
  ∀ (i : Index) (s : State),
    (i.toNat ≤ s.build.capacity →
      bus (hostRead (BitVec.ofNat 14 (0x2000 + 4 * i.toNat))) s = exec (.rdPulse i) s ∧
        exec (.rdPulse i) s =
          .next (answered s (BitVec.ofNat 14 (0x2000 + 4 * i.toNat)) (BitVec.ofNat 32 (pulse s i.toNat).toNat))) ∧
      (s.build.capacity < i.toNat →
        bus (hostRead (BitVec.ofNat 14 (0x2000 + 4 * i.toNat))) s =
          .next
            (answered (recorded 5 (BitVec.ofNat 14 (0x2000 + 4 * i.toNat)) 0#32 s)
              (BitVec.ofNat 14 (0x2000 + 4 * i.toNat)) 0#32))

/-! ### Writing registers -/

/-- WR_CTRL writes `hold` from bit 0 in every state, FATAL or not, and changes nothing else (R215). -/
def Obligations.CtrlWriteSetsHold : Prop :=
  ∀ (d : Word) (s : State),
    bus (hostWrite 0x00C#14 d) s = exec (.wrCtrl d) s ∧
      exec (.wrCtrl d) s = .next { s with cap := { s.cap with hold := d.getLsbD 0 } }

/-- WR_INT_EN stores data[3:0]; WR_INT_PEND clears the pending bits where data has a 1; neither changes anything else
(R217, R218, R83). -/
def Obligations.InterruptRegisterWrites : Prop :=
  ∀ (d : Word) (s : State),
    bus (hostWrite 0x020#14 d) s = exec (.wrIntEn d) s ∧ bus (hostWrite 0x024#14 d) s = exec (.wrIntPend d) s ∧
    (∃ e, exec (.wrIntEn d) s = .next { s with ints := { s.ints with enable := e } } ∧
      ∀ k, k < 4 → e.getLsbD k = d.getLsbD k) ∧
    ∃ p, exec (.wrIntPend d) s = .next { s with ints := { s.ints with pending := p } } ∧
      ∀ k, k < 4 → p.getLsbD k = (s.ints.pending.getLsbD k && !d.getLsbD k)

/-- Each WR_CFG_* writes its shadow field, in every state and with no check of the value, and changes nothing else;
ADAPTIVE_GAP_EN is written only in a build that has the adaptive gap, and is 0 otherwise (R219). -/
def Obligations.ConfigWritesStoreOneField : Prop :=
  ∀ (d : Word) (s : State),
    (∀ p ∈ [(Instr.wrCfgSampleRate d, 0x080#14), (.wrCfgMinRawPulses d, 0x084#14), (.wrCfgSeekTimeoutMs d, 0x088#14),
            (.wrCfgMinPreambleUs d, 0x08C#14), (.wrCfgMinPulseLenUs d, 0x090#14),
            (.wrCfgSignalEndTimeoutUs d, 0x094#14), (.wrCfgFlags d, 0x098#14)],
        bus (hostWrite p.2 d) s = exec p.1 s) ∧
      exec (.wrCfgSampleRate d) s =
        .next { s with cfgSh := { s.cfgSh with sampleRate := BitVec.ofNat 16 (d.toNat % 2 ^ 16) } } ∧
      exec (.wrCfgMinRawPulses d) s =
        .next { s with cfgSh := { s.cfgSh with minRawPulses := BitVec.ofNat 16 (d.toNat % 2 ^ 16) } } ∧
      exec (.wrCfgSeekTimeoutMs d) s =
        .next { s with cfgSh := { s.cfgSh with seekTimeoutMs := BitVec.ofNat 16 (d.toNat % 2 ^ 16) } } ∧
      exec (.wrCfgMinPreambleUs d) s = .next { s with cfgSh := { s.cfgSh with minPreambleUs := d } } ∧
      exec (.wrCfgMinPulseLenUs d) s = .next { s with cfgSh := { s.cfgSh with minPulseLenUs := d } } ∧
      exec (.wrCfgSignalEndTimeoutUs d) s = .next { s with cfgSh := { s.cfgSh with signalEndTimeoutUs := d } } ∧
      exec (.wrCfgFlags d) s =
        .next
          { s with
            cfgSh :=
              { s.cfgSh with
                asyncMode := d.getLsbD 0
                adaptiveGapEn := if s.build.hasAdaptiveGap then d.getLsbD 1 else false } }

/-- A write to a read-only register performs no write and records BUS_ERR with the register's offset and the data
(R221, R83). -/
def Obligations.ReadOnlyWritesRecordBusErr : Prop :=
  ∀ (d : Word) (s : State),
    ∀ p ∈ [(Instr.wrRoId d, 0x000#14), (.wrRoCaps d, 0x004#14), (.wrRoSettleUs d, 0x008#14),
            (.wrRoStatus d, 0x010#14), (.wrRoErrInfo d, 0x018#14), (.wrRoErrData d, 0x01C#14),
            (.wrRoNowUs d, 0x02C#14), (.wrRoCapturedAt d, 0x030#14), (.wrRoSignalStrength d, 0x034#14),
            (.wrRoActSampleRate d, 0x0C0#14), (.wrRoActMinRawPulses d, 0x0C4#14),
            (.wrRoActSeekTimeoutMs d, 0x0C8#14), (.wrRoActMinPreambleUs d, 0x0CC#14),
            (.wrRoActMinPulseLenUs d, 0x0D0#14), (.wrRoActSignalEndTimeoutUs d, 0x0D4#14),
            (.wrRoActFlags d, 0x0D8#14)],
      bus (hostWrite p.2 d) s = exec p.1 s ∧ exec p.1 s = .next (recorded 5 p.2 d s)

/-- Window writes are gated by quiescence (R171): while Q holds, a word the buffer has takes data[15:0] and every byte of
memory outside the word's two bytes, and all the rest of the state, is unchanged; while Q does not hold, the write records
WRITE_REJECTED and nothing else happens. -/
def Obligations.PulseWriteIsGated : Prop :=
  ∀ (i : Index) (d : Word) (s : State),
    (i.toNat ≤ s.build.capacity →
      bus (hostWrite (BitVec.ofNat 14 (0x2000 + 4 * i.toNat)) d) s = exec (.wrPulse i d) s) ∧
    (quiescent s = true → i.toNat ≤ s.build.capacity → Memory.wf s.mem = true →
      ∃ t, exec (.wrPulse i d) s = .next t ∧ t = { s with mem := t.mem } ∧
        pulse t i.toNat = BitVec.ofNat 16 (d.toNat % 2 ^ 16) ∧
        ∀ a, a ≠ 0x2000 + 4 * i.toNat → a ≠ 0x2000 + 4 * i.toNat + 1 → t.mem.read a = s.mem.read a) ∧
      (quiescent s = false →
        exec (.wrPulse i d) s = .next (recorded 3 (BitVec.ofNat 14 (0x2000 + 4 * i.toNat)) d s))

/-- The gated parameter writes (R172, R173, R174): while Q holds each stores data[15:0] in its field, PULSE_COUNT only up
to C; otherwise WRITE_REJECTED is recorded; nothing else changes. -/
def Obligations.ParameterWritesAreGated : Prop :=
  ∀ (d : Word) (s : State),
    bus (hostWrite 0x038#14 d) s = exec (.wrPulseCount d) s ∧ bus (hostWrite 0x03C#14 d) s = exec (.wrRepeats d) s ∧
      bus (hostWrite 0x040#14 d) s = exec (.wrInterRepeatDelayMs d) s ∧
      exec (.wrPulseCount d) s =
        (if quiescent s = true ∧ d.toNat % 2 ^ 16 ≤ s.build.capacity then
          .next { s with buf := { s.buf with pulseCount := BitVec.ofNat 16 (d.toNat % 2 ^ 16) } }
        else .next (recorded 3 0x038#14 d s)) ∧
      exec (.wrRepeats d) s =
        (if quiescent s = true then
          .next { s with buf := { s.buf with repeats := BitVec.ofNat 16 (d.toNat % 2 ^ 16) } }
        else .next (recorded 3 0x03C#14 d s)) ∧
      exec (.wrInterRepeatDelayMs d) s =
        (if quiescent s = true then
          .next { s with buf := { s.buf with interRepeatDelayMs := BitVec.ofNat 16 (d.toNat % 2 ^ 16) } }
        else .next (recorded 3 0x040#14 d s))

/-- WR_CMD decodes and runs (R220): under FATAL the word records CMD_REJECTED; an illegal word records ILLEGAL_CMD; any
other word runs its command, for the seven opcodes and their operands. -/
def Obligations.CommandWriteDecodesAndRuns : Prop :=
  (∀ (w : Word) (s : State), s.errs.flags.getLsbD 6 = true →
      exec (.wrCmd w) s = .next (recorded 2 0x028#14 w s)) ∧
    (∀ (w : Word) (s : State), s.errs.flags.getLsbD 6 = false → IllegalWord w →
      exec (.wrCmd w) s = .next (recorded 1 0x028#14 w s)) ∧
    (∀ s : State, s.errs.flags.getLsbD 6 = false →
      exec (.wrCmd 0x00000000#32) s = .next s ∧
        exec (.wrCmd 0x00000000#32) s = exec .nop s ∧ exec (.wrCmd 0x00000001#32) s = exec .consume s ∧
        exec (.wrCmd 0x00000002#32) s = exec .refreshConfig s ∧
        exec (.wrCmd 0x00000003#32) s = exec (.setMode .off) s ∧
        exec (.wrCmd 0x00000103#32) s = exec (.setMode .rx) s ∧
        exec (.wrCmd 0x00000203#32) s = exec (.setMode .tx) s ∧
        exec (.wrCmd 0x00000303#32) s = exec (.setMode .unset) s ∧
        exec (.wrCmd 0x00000004#32) s = exec .rawSend s ∧
        exec (.wrCmd 0x00000005#32) s = exec (.updateSlicer .legacy) s ∧
        exec (.wrCmd 0x00000105#32) s = exec (.updateSlicer .advanced) s ∧
        exec (.wrCmd 0x00000006#32) s = exec .scan s) ∧
    ∀ w : Word, ¬ IllegalWord w →
      w ∈ [0x00000000#32, 0x00000001#32, 0x00000002#32, 0x00000003#32, 0x00000103#32, 0x00000203#32, 0x00000303#32,
            0x00000004#32, 0x00000005#32, 0x00000105#32, 0x00000006#32]

/-! ### Errors -/

/-- `raise Err`: the record of an error, and that an operation which records one has no other effect: its next state is
the state before it with that record (R231, R47). -/
def Obligations.ErrorsArePrecise : Prop :=
  (∀ (c : ErrCause) (a : Offset) (d : Word) (s : State),
    raiseErr c a d s =
      recorded
        (match c with
          | .illegalCmd => 1 | .cmdRejected => 2 | .writeRejected => 3 | .cfgInvalid => 4 | .busErr => 5 | .fatal => 6)
        a d s) ∧
    ∀ (i : Instr) (s t : State), exec i s = .next t →
      (t.errs.cause ≠ s.errs.cause ∨ t.errs.addr ≠ s.errs.addr ∨ t.errs.data ≠ s.errs.data ∨
        ∃ k, 1 ≤ k ∧ t.errs.flags.getLsbD k = true ∧ s.errs.flags.getLsbD k = false) →
      ∃ c a d, c ≤ 6 ∧ t = recorded c a d s

/-- While ERR.FATAL is 1, every command records CMD_REJECTED with its word and does nothing else (R220, R232). That the
command rows carry the lock and their own word themselves is the model's reading (log entry 10). -/
def Obligations.FatalLocksEveryCommand : Prop :=
  ∀ s : State, s.errs.flags.getLsbD 6 = true →
    ∀ p ∈ [(Instr.nop, 0x00000000#32), (.consume, 0x00000001#32), (.refreshConfig, 0x00000002#32),
            (.setMode .off, 0x00000003#32), (.setMode .rx, 0x00000103#32), (.setMode .tx, 0x00000203#32),
            (.setMode .unset, 0x00000303#32), (.rawSend, 0x00000004#32), (.updateSlicer .legacy, 0x00000005#32),
            (.updateSlicer .advanced, 0x00000105#32), (.scan, 0x00000006#32)],
      exec p.1 s = .next (recorded 2 0x028#14 p.2 s) ∧ exec (.wrCmd p.2) s = .next (recorded 2 0x028#14 p.2 s)

/-- An ERR bit falls only in a WR_ERR with a 1 in its place, and never bit 6; a pending bit falls only in a WR_INT_PEND
with a 1 in its place: no command and no event clears either (R46, R232, R236). -/
def Obligations.StickyBitsFallOnlyToTheirWrite : Prop :=
  ∀ (i : Instr) (s t : State), exec i s = .next t →
    (∀ k, s.errs.flags.getLsbD k = true → t.errs.flags.getLsbD k = false →
      k < 6 ∧ ∃ d, i = .wrErr d ∧ d.getLsbD k = true) ∧
    ∀ k, s.ints.pending.getLsbD k = true → t.ints.pending.getLsbD k = false →
      ∃ d, i = .wrIntPend d ∧ d.getLsbD k = true

/-- An error, FATAL among them, stops nothing that runs: with any other error record in place, every event does the
same to every part of the state but the error record (R232). -/
def Obligations.ErrorsStopNoEvent : Prop :=
  ∀ i ∈ [Instr.evEdgeIdle, .evEdgeSeekingShort, .evEdgeSeekingCommit, .evEdgeCapturingGlitch, .evEdgeCapturingAccept,
          .evEdgeDone, .evDeadlineSeeking, .evDeadlineCapturing, .evPollEnd, .evRadioStep, .evTxStep],
    ∀ (s t : State) (e : Errors), exec i s = .next t → ∃ e', exec i { s with errs := e } = .next { t with errs := e' }

/-! ### Commands -/

/-- NOP changes nothing; while FATAL it records CMD_REJECTED like every command (R210). -/
def Obligations.NopDoesNothing : Prop :=
  decodeCmd 0x00000000#32 = .ok .nop ∧ ∀ s : State,
    (s.errs.flags.getLsbD 6 = false → exec .nop s = .next s) ∧
      (s.errs.flags.getLsbD 6 = true → exec .nop s = .next (recorded 2 0x028#14 0x00000000#32 s))

/-- CONSUME releases a delivered capture: `ready` falls and the state is IDLE; with `ready = 0` it does nothing; nothing
else changes, INT_PEND.READY and the buffer among it; while FATAL it records CMD_REJECTED (R175). -/
def Obligations.ConsumeReleasesCapture : Prop :=
  decodeCmd 0x00000001#32 = .ok .consume ∧ ∀ s : State,
    (s.errs.flags.getLsbD 6 = false →
      exec .consume s =
        .next (if s.cap.ready = true then { s with cap := { s.cap with ready := false, state := .idle } } else s)) ∧
      (s.errs.flags.getLsbD 6 = true → exec .consume s = .next (recorded 2 0x028#14 0x00000001#32 s))

/-- REFRESH_CONFIG copies every field of the shadow configuration in one step if Q holds and the shadow is valid;
otherwise CMD_REJECTED or CFG_INVALID is recorded; nothing else changes (R212, R39, R58). -/
def Obligations.RefreshAppliesShadow : Prop :=
  decodeCmd 0x00000002#32 = .ok .refreshConfig ∧ ∀ s : State, s.errs.flags.getLsbD 6 = false →
    exec .refreshConfig s =
      .next
        (if ¬ (s.tx.phase = .idle ∧ (s.cap.state = .done ∨ s.cap.state = .idle ∧ (s.cap.hold = true ∨ armed s = false)))
          then recorded 2 0x028#14 0x00000002#32 s
        else if ¬ (1 ≤ s.cfgSh.sampleRate.toNat ∧ s.cfgSh.minRawPulses.toNat ≤ s.build.capacity ∧
            1 ≤ s.cfgSh.signalEndTimeoutUs.toNat ∧ s.cfgSh.signalEndTimeoutUs.toNat < 2 ^ 31 ∧
            s.cfgSh.minPreambleUs.toNat < 2 ^ 31 ∧ s.cfgSh.minPulseLenUs.toNat < 2 ^ 31)
          then recorded 4 0x028#14 0x00000002#32 s
        else { s with cfg := s.cfgSh })

/-- SET_MODE, in the order of its checks: UNSET is FATAL; a running sequence or transmit rejects; the present mode is a
no-op; any other starts the sequence to the mode, with the pins of step 1 written at once (R110, R111, R112). A sequence
starts in the same way for the TX engine, and while one runs no edge is observed (R112). -/
def Obligations.SetModeStartsSequence : Prop :=
  decodeCmd 0x00000003#32 = .ok (.setMode .off) ∧ decodeCmd 0x00000103#32 = .ok (.setMode .rx) ∧
  decodeCmd 0x00000203#32 = .ok (.setMode .tx) ∧ decodeCmd 0x00000303#32 = .ok (.setMode .unset) ∧
  (∀ (m : RadioMode) (o : Origin) (s : State), m ≠ .unset → radioStart m o s = sequenceStarted m o s) ∧
  (∀ s : State, s.radio.busy = true → armed s = false ∧ edgeObserved s = false) ∧
  ∀ (m : RadioMode) (s : State), s.errs.flags.getLsbD 6 = false →
    exec (.setMode m) s =
      .next
        (if m = .unset then recorded 6 0x028#14 0x00000303#32 s
        else if s.radio.busy = true ∨ s.tx.phase ≠ .idle then
          recorded 2 0x028#14
            (match m with
              | .off => 0x00000003#32 | .rx => 0x00000103#32 | .tx => 0x00000203#32 | .unset => 0x00000303#32) s
        else if m = s.radio.mode then s
        else sequenceStarted m .cmd s)

/-- RAW_SEND is turned away in the order of its checks: a running sequence or transmit, then UNSET (FATAL), then a
capture in SEEKING or CAPTURING; nothing but the record changes (R190, R237). -/
def Obligations.RawSendRejections : Prop :=
  ∀ s : State, s.errs.flags.getLsbD 6 = false →
    ((s.radio.busy = true ∨ s.tx.phase ≠ .idle) →
      exec .rawSend s = .next (recorded 2 0x028#14 0x00000004#32 s)) ∧
    (s.radio.busy = false → s.tx.phase = .idle → s.radio.mode = .unset →
      exec .rawSend s = .next (recorded 6 0x028#14 0x00000004#32 s)) ∧
    (s.radio.busy = false → s.tx.phase = .idle → s.radio.mode ≠ .unset →
      s.cap.state = .seeking ∨ s.cap.state = .capturing →
      exec .rawSend s = .next (recorded 2 0x028#14 0x00000004#32 s))

/-- RAW_SEND past its checks (R190 to R193): with no repeats or no half-pulses it writes `tx_prior`, sets TX_DONE and
does nothing else; from OFF or RX it starts the radio's sequence to TX and waits; from TX it begins half-pulse 1 of
transmission 1 at once, or, where that half-pulse is empty, goes on as if it had just ended. -/
def Obligations.RawSendStartsTransmit : Prop :=
  ∀ s : State, s.errs.flags.getLsbD 6 = false → s.radio.busy = false → s.tx.phase = .idle → s.radio.mode ≠ .unset →
    s.cap.state ≠ .seeking → s.cap.state ≠ .capturing →
    (s.buf.repeats = 0#16 ∨ s.buf.pulseCount = 0#16 →
      exec .rawSend s =
        .next
          { s with
            tx := { s.tx with prior := s.radio.mode }
            ints := { s.ints with pending := s.ints.pending ||| 2#4 } }) ∧
    (s.buf.repeats ≠ 0#16 → s.buf.pulseCount ≠ 0#16 → s.radio.mode ≠ .tx →
      exec .rawSend s =
        .next (sequenceStarted .tx .tx { s with tx := { s.tx with prior := s.radio.mode, phase := .acquire } })) ∧
    (s.buf.repeats ≠ 0#16 → s.buf.pulseCount ≠ 0#16 → s.radio.mode = .tx → 1 ≤ s.build.capacity →
      exec .rawSend s =
        if halfPulseTicks 1 s = 0 then
          exec .evTxStep
            (let u := halfPulseBegun 1 1 { s with tx := { s.tx with prior := .tx } }
             { u with tx := { u.tx with wait := 1#32 } })
        else .next (halfPulseBegun 1 1 { s with tx := { s.tx with prior := .tx } }))

/-- UPDATE_SLICER records CMD_REJECTED mid-capture and for Advanced, and changes nothing otherwise (R213). -/
def Obligations.UpdateSlicerCases : Prop :=
  decodeCmd 0x00000005#32 = .ok (.updateSlicer .legacy) ∧ decodeCmd 0x00000105#32 = .ok (.updateSlicer .advanced) ∧
  ∀ (v : Slicer) (s : State), s.errs.flags.getLsbD 6 = false →
    exec (.updateSlicer v) s =
      .next
        (if s.cap.state = .seeking ∨ s.cap.state = .capturing then
          recorded 2 0x028#14 (match v with | .legacy => 0x00000005#32 | .advanced => 0x00000105#32) s
        else match v with
          | .advanced => recorded 2 0x028#14 0x00000105#32 s
          | .legacy => s)

/-- SCAN opens or restarts the poll window in synchronous mode with a nonzero seek timeout, and does nothing otherwise
(R214). -/
def Obligations.ScanOpensWindow : Prop :=
  decodeCmd 0x00000006#32 = .ok .scan ∧ ∀ s : State, s.errs.flags.getLsbD 6 = false →
    exec .scan s =
      .next
        (if s.cfg.asyncMode = false ∧ 0 < s.cfg.seekTimeoutMs.toNat then
          { s with
            poll := { isOpen := true, endAt := s.now + BitVec.ofNat 32 (s.cfg.seekTimeoutMs.toNat * 1000) } }
        else s)

/-! ### The radio -/

/-- The radio's step (R113, R114): nothing while no sequence runs; otherwise the settle counts down, and where it runs
out, step 1 is followed by the pins of step 2 and a second settle, and step 2 by the new mode, with RADIO_DONE for a
SET_MODE sequence alone. -/
def Obligations.RadioStepCases : Prop :=
  (∀ (c : BitVec 2) (long : Bool), decodeEvent (3#3 ++ c) long = .ok .evRadioStep) ∧
  ∀ s : State,
    (s.radio.busy = false → exec .evRadioStep s = .next s) ∧
    (s.radio.busy = true → s.radio.wait ≠ 1#32 →
      exec .evRadioStep s = .next { s with radio := { s.radio with wait := s.radio.wait - 1#32 } }) ∧
    (s.radio.busy = true → s.radio.wait = 1#32 → s.radio.step = .first →
      exec .evRadioStep s =
        .next
          (withPins (secondPins s.radio.target)
            { s with radio := { s.radio with step := .second, wait := s.build.settleUs } })) ∧
    (s.radio.busy = true → s.radio.wait = 1#32 → s.radio.step = .second →
      exec .evRadioStep s =
        .next
          { s with
            radio := { s.radio with mode := s.radio.target, busy := false, step := .none, wait := 0#32 }
            ints :=
              match s.radio.origin with
              | .cmd => { s.ints with pending := s.ints.pending ||| 4#4 }
              | .tx => s.ints })

/-- A mode change accepted at tick t takes exactly 2 S ticks (R117), whatever else the ticks hold. SET_MODE writes the
pins of step 1 at t; at phase A1 of tick t + k, the sequence is in its first settle for k < S with no more pins written,
in its second for S ≤ k < 2 S with the pins of step 2 written at t + S; the radio is still busy at the end of each of
these ticks; and at k = 2 S the mode is the target, the radio is no longer busy, and RADIO_DONE is set. ts are the inputs
of the ticks after t, hs the transactions that follow SET_MODE in tick t. -/
def Obligations.ModeChangeTakesTwoSettles : Prop :=
  ∀ (m : RadioMode) (s : State) (hs : List BusTxn) (ts : Nat → TickInput),
    BlockInv s → s.errs.flags.getLsbD 6 = false → m ≠ .unset → s.radio.busy = false → s.tx.phase = .idle →
    m ≠ s.radio.mode →
    let S := s.build.settleUs.toNat
    let after (k : Nat) : Out := ticks ts k (restOfTick hs (exec (.setMode m) s))
    exec (.setMode m) s = .next (sequenceStarted m .cmd s) ∧
    ∀ k, k < 2 * S →
      (∃ u, after k = .next u ∧ u.radio.busy = true ∧ u.radio.mode = s.radio.mode) ∧
      ∃ t, throughRadio (ts k) (after k) = .next t ∧
        t.now = s.now + BitVec.ofNat 32 (k + 1) ∧
        (k + 1 < S →
          t.radio.busy = true ∧ t.radio.mode = s.radio.mode ∧ t.radio.step = .first ∧
            t.trace = s.trace ++ traceFrom s.now (pinsAt 0 (firstPins m))) ∧
        (S ≤ k + 1 → t.trace = s.trace ++ traceFrom s.now (pinsAt 0 (firstPins m) ++ pinsAt S (secondPins m))) ∧
        (S ≤ k + 1 → k + 1 < 2 * S →
          t.radio.busy = true ∧ t.radio.mode = s.radio.mode ∧ t.radio.step = .second) ∧
        (k + 1 = 2 * S →
          t.radio.busy = false ∧ t.radio.mode = m ∧ t.radio.step = .none ∧ t.ints.pending.getLsbD 2 = true)

/-! ### Edges -/

/-- An observed edge in IDLE starts the search for a preamble, with both timestamps at now and a SEEK deadline T after
it; under `hold` it is ignored; nothing but the detector's sample changes besides (R133, R131). -/
def Obligations.IdleEdgeStartsSeeking : Prop :=
  (∀ long : Bool, decodeEvent 0b00000#5 long = .ok .evEdgeIdle) ∧
  ∀ s : State, edgeObserved s = true → s.cap.state = .idle →
    exec .evEdgeIdle s =
      .next
        (if s.cap.hold = true then sampled s
        else
          { sampled s with
            cap :=
              { s.cap with
                firstEdge := s.now, lastEdge := s.now, state := .seeking, dlArmed := true
                deadline := s.now + s.cfg.signalEndTimeoutUs, dlKind := .seek } })

/-- An observed edge in SEEKING short of the minimum preamble, and one in CAPTURING short of the minimum pulse length,
change nothing but the detector's sample: neither `first_edge`, `last_edge` nor the deadline moves (R134, R139, R131). -/
def Obligations.ShortIntervalsAreIgnored : Prop :=
  decodeEvent 0b00001#5 false = .ok .evEdgeSeekingShort ∧ decodeEvent 0b00010#5 false = .ok .evEdgeCapturingGlitch ∧
  ∀ s : State, edgeObserved s = true →
    (s.cap.state = .seeking → (s.now - s.cap.firstEdge).toNat < s.cfg.minPreambleUs.toNat →
      exec .evEdgeSeekingShort s = .next (sampled s)) ∧
    (s.cap.state = .capturing → (s.now - s.cap.lastEdge).toNat < s.cfg.minPulseLenUs.toNat →
      exec .evEdgeCapturingGlitch s = .next (sampled s))

/-- An observed edge in SEEKING at or past the minimum preamble commits to a capture (R138, R135, R136). The state has
the fields the rule writes; a preamble interval that is a glitch is not stored; one that is not becomes half-pulse 1, and
every byte of memory outside that word is unchanged; with C = 1 the capture ends at once, otherwise the deadline is
armed. -/
def Obligations.PreambleCommit : Prop :=
  decodeEvent 0b00001#5 true = .ok .evEdgeSeekingCommit ∧
  ∀ s : State, edgeObserved s = true → s.cap.state = .seeking → Memory.wf s.mem = true → 1 ≤ s.build.capacity →
    s.cfg.minPreambleUs.toNat ≤ (s.now - s.cap.firstEdge).toNat →
    let w := s.now - s.cap.firstEdge
    let begun (n : Half) (m : Memory) : State :=
      { sampled s with
        mem := m
        cap := { s.cap with state := .capturing, lastEdge := s.now }
        buf :=
          { s.buf with
            pulseCount := n, endReason := .none
            signalStrength := if s.build.hasRssi then s.env.rssi else 0#16 } }
    (w.toNat < s.cfg.minPulseLenUs.toNat →
      exec .evEdgeSeekingCommit s = .next (deadlineArmed [] (begun 0#16 s.mem))) ∧
    (s.cfg.minPulseLenUs.toNat ≤ w.toNat →
      ∃ m, (∀ a, a ≠ 0x2004 → a ≠ 0x2005 → Memory.read m a = s.mem.read a) ∧
        Memory.readPulse m 1 = storedWidth w s ∧
        exec .evEdgeSeekingCommit s =
          .next
            (if s.build.capacity = 1 then captureEnded .tooLong (begun 1#16 m)
            else deadlineArmed [storedWidth w s] (begun 1#16 m)))

/-- An observed edge in CAPTURING whose interval is no glitch stores the pulse at the next index, scaled and clamped, and
leaves every byte of memory outside that word; where the buffer is then full the capture ends with TooLong, otherwise the
deadline is armed again from now (R141, R135, R136). -/
def Obligations.AcceptedPulse : Prop :=
  decodeEvent 0b00010#5 true = .ok .evEdgeCapturingAccept ∧
  ∀ s : State, edgeObserved s = true → s.cap.state = .capturing → Memory.wf s.mem = true →
    s.buf.pulseCount.toNat < s.build.capacity → s.build.capacity ≤ 2047 →
    s.cfg.minPulseLenUs.toNat ≤ (s.now - s.cap.lastEdge).toNat →
    let w := s.now - s.cap.lastEdge
    let n := s.buf.pulseCount.toNat + 1
    ∃ m, (∀ a, a ≠ 0x2000 + 4 * n → a ≠ 0x2000 + 4 * n + 1 → Memory.read m a = s.mem.read a) ∧
      Memory.readPulse m n = storedWidth w s ∧
      let u : State :=
        { sampled s with
          mem := m, cap := { s.cap with lastEdge := s.now }, buf := { s.buf with pulseCount := BitVec.ofNat 16 n } }
      exec .evEdgeCapturingAccept s =
        .next
          (if n = s.build.capacity then captureEnded .tooLong u
          else deadlineArmed (train s.buf.pulseCount.toNat s ++ [storedWidth w s]) u)

/-- An observed edge in DONE is dropped: ERR.EDGE_DROPPED is set, and nothing else changes but the detector's sample: no
interrupt, no error record, no buffer write (R140, R233, R131). -/
def Obligations.DoneEdgeIsDropped : Prop :=
  (∀ long : Bool, decodeEvent 0b00011#5 long = .ok .evEdgeDone) ∧
  ∀ s : State, edgeObserved s = true → s.cap.state = .done →
    exec .evEdgeDone s = .next { sampled s with errs := { s.errs with flags := s.errs.flags ||| 1#7 } }

/-! ### Deadline and poll window -/

/-- The deadline in CAPTURING ends the frame with the reason the rule gives, delivers a train of at least
`min_raw_pulses` and discards a shorter one (R145, R146). -/
def Obligations.SilenceDeadlineEndsCapture : Prop :=
  (∀ long : Bool, decodeEvent 0b00110#5 long = .ok .evDeadlineCapturing) ∧
  ∀ s : State, s.cap.dlArmed = true → s.now = s.cap.deadline → s.cap.state = .capturing →
    exec .evDeadlineCapturing s =
      .next
        (captureEnded
          (if s.cap.dlKind = .adaptive then .dynamicGapLengthReached
          else if (s.now - s.cap.lastEdge).toNat / s.cfg.sampleRate.toNat > 0xFFFF then .reachedLongPulseTimeOut
          else .signalEndTimeout)
          s)

/-- The deadline in SEEKING abandons the preamble: the state is IDLE with no deadline, and nothing else changes, the poll
window among it (R144). The poll window closes at its end, and nothing else changes (R147). -/
def Obligations.SeekDeadlineAndPollEnd : Prop :=
  (∀ long : Bool, decodeEvent 0b00101#5 long = .ok .evDeadlineSeeking) ∧
  (∀ (c : BitVec 2) (long : Bool), decodeEvent (2#3 ++ c) long = .ok .evPollEnd) ∧
  ∀ s : State,
    (s.cap.dlArmed = true → s.now = s.cap.deadline → s.cap.state = .seeking →
      exec .evDeadlineSeeking s = .next { s with cap := { s.cap with state := .idle, dlArmed := false } }) ∧
    (s.poll.isOpen = true → s.now = s.poll.endAt →
      exec .evPollEnd s = .next { s with poll := { s.poll with isOpen := false } })

/-! ### The TX engine -/

/-- The TX engine's step where no segment ends (R195, R196): it waits for the radio, counts a segment down, or, when the
release sequence has ended, finishes with TX_DONE. -/
def Obligations.TransmitStepWaits : Prop :=
  ∀ s : State,
    (s.tx.phase = .idle → exec .evTxStep s = .next s) ∧
    (s.tx.phase = .acquire ∨ s.tx.phase = .release → s.radio.busy = true → exec .evTxStep s = .next s) ∧
    (s.tx.phase = .pulse ∨ s.tx.phase = .gap → s.tx.wait ≠ 1#32 →
      exec .evTxStep s = .next { s with tx := { s.tx with wait := s.tx.wait - 1#32 } }) ∧
    (s.tx.phase = .release → s.radio.busy = false →
      exec .evTxStep s =
        .next
          { s with
            tx := { s.tx with phase := .idle, rep := 0#16, idx := 0#16, wait := 0#32 }
            ints := { s.ints with pending := s.ints.pending ||| 2#4 } })

/-- The TX engine's step where a segment begins or ends (R193, R194, R195, R196): when the acquire has ended, a
half-pulse ends with another after it, or a pause ends, the next half-pulse begins; when the last half-pulse ends, the
data output goes low, and the pause or the release follows. A segment of no ticks ends in the step that begins it: the
step is then the step from that segment's last tick. -/
def Obligations.TransmitStepAdvances : Prop :=
  ∀ s : State, s.buf.pulseCount.toNat ≤ s.build.capacity → 1 ≤ s.buf.pulseCount.toNat →
    let lastTick (u : State) : State := { u with tx := { u.tx with wait := 1#32 } }
    let next (r k : Nat) : Out :=
      if halfPulseTicks k s = 0 then exec .evTxStep (lastTick (halfPulseBegun r k s))
      else .next (halfPulseBegun r k s)
    (s.tx.phase = .acquire → s.radio.busy = false → exec .evTxStep s = next 1 1) ∧
    (s.tx.phase = .pulse → s.tx.wait = 1#32 → s.tx.idx.toNat < s.buf.pulseCount.toNat →
      exec .evTxStep s = next s.tx.rep.toNat (s.tx.idx.toNat + 1)) ∧
    (s.tx.phase = .gap → s.tx.wait = 1#32 → s.tx.rep.toNat < s.buf.repeats.toNat →
      exec .evTxStep s = next (s.tx.rep.toNat + 1) 1) ∧
    (s.tx.phase = .pulse → s.tx.wait = 1#32 → s.buf.pulseCount.toNat ≤ s.tx.idx.toNat →
      (s.tx.rep.toNat < s.buf.repeats.toNat →
        let D := s.buf.interRepeatDelayMs.toNat * 1000
        let gap : State :=
          withPins [(.txData, false)] { s with tx := { s.tx with phase := .gap, wait := BitVec.ofNat 32 D } }
        exec .evTxStep s = if D = 0 then exec .evTxStep (lastTick gap) else .next gap) ∧
      (s.buf.repeats.toNat ≤ s.tx.rep.toNat → s.tx.prior = .tx →
        exec .evTxStep s =
          .next
            (withPins [(.txData, false)]
              { s with
                tx := { s.tx with phase := .idle, rep := 0#16, idx := 0#16, wait := 0#32 }
                ints := { s.ints with pending := s.ints.pending ||| 2#4 } })) ∧
      (s.buf.repeats.toNat ≤ s.tx.rep.toNat → s.tx.prior ≠ .tx →
        exec .evTxStep s =
          .next
            (sequenceStarted s.tx.prior .tx
              (withPins [(.txData, false)] { s with tx := { s.tx with phase := .release, wait := 0#32 } }))))

/-- What a transmit leaves alone: whatever RAW_SEND and the TX engine's step do, chains of empty segments among it, they
write the TX engine's counters, the radio and its outputs with the trace, and pending bits; RAW_SEND the error record as
well. The buffer, every byte of it, its metadata, the capture engine, the configuration and the rest are unchanged
(R190 to R196). -/
def Obligations.TransmitFrame : Prop :=
  ∀ s t : State,
    (exec .evTxStep s = .next t →
      t = { s with tx := t.tx, radio := t.radio, pins := t.pins, trace := t.trace, ints := t.ints } ∧
        t.ints.enable = s.ints.enable ∧ t.ints.irq = s.ints.irq ∧ t.tx.prior = s.tx.prior) ∧
    (exec .rawSend s = .next t →
      t =
          { s with
            tx := t.tx, radio := t.radio, pins := t.pins, trace := t.trace, ints := t.ints, errs := t.errs } ∧
        t.ints.enable = s.ints.enable ∧ t.ints.irq = s.ints.irq)

/-- The waveform of a transmit (R197), whatever else its ticks hold. RAW_SEND accepted at tick t from OFF, RX or TX plays
every word of the train as often as `repeats` says. Until `N L + (N - 1) D` ticks, with two settles before and after where
the mode was not TX, have passed, the transmit is busy at the end of every tick; in phase A2 of that tick (in the step of
RAW_SEND itself where the count is 0) the engine is idle with TX_DONE set, the mode is again what it was, and the pins
written since are exactly those of the acquire, of each half-pulse of each transmission at its tick, of each
transmission's end, and of the release. ts are the inputs of the ticks after t, hs the transactions that follow RAW_SEND
in tick t. -/
def Obligations.TransmitReplaysTrain : Prop :=
  ∀ (s : State) (hs : List BusTxn) (ts : Nat → TickInput),
    BlockInv s → s.errs.flags.getLsbD 6 = false → s.radio.busy = false → s.tx.phase = .idle →
    s.radio.mode ≠ .unset → s.cap.state ≠ .seeking → s.cap.state ≠ .capturing → s.buf.pulseCount ≠ 0#16 →
    s.buf.repeats ≠ 0#16 →
    let S := s.build.settleUs.toNat
    let M := s.cfg.sampleRate.toNat
    let vs := train s.buf.pulseCount.toNat s
    let L := (vs.map fun v => v.toNat * M).sum
    let D := s.buf.interRepeatDelayMs.toNat * 1000
    let N := s.buf.repeats.toNat
    let m := s.radio.mode
    let a := if m = .tx then 0 else 2 * S
    let e := a + N * L + (N - 1) * D
    let total := if m = .tx then e else e + 2 * S
    let data := (trainWrites M L D vs N a).map fun w => (w.1, Pin.txData, w.2)
    let after (k : Nat) : Out := ticks ts k (restOfTick hs (exec .rawSend s))
    (∀ k, k < total → ∃ u, after k = .next u ∧ txBusy u = true) ∧
    ∃ t, (if total = 0 then exec .rawSend s else throughTransmit (ts (total - 1)) (after (total - 1))) = .next t ∧
      t.tx.phase = .idle ∧ t.radio.mode = m ∧ t.radio.busy = false ∧ t.ints.pending.getLsbD 1 = true ∧
      t.now = s.now + BitVec.ofNat 32 total ∧
      t.trace =
        s.trace ++
          traceFrom s.now
            (if m = .tx then data
            else
              pinsAt 0 (firstPins .tx) ++ pinsAt S (secondPins .tx) ++ data ++ pinsAt e (firstPins m) ++
                pinsAt (e + S) (secondPins m))

/-- A transmit is not interruptible (R198): while it runs, no operation but the TX engine's own step changes the engine,
the buffer or its metadata; SET_MODE, RAW_SEND and REFRESH_CONFIG record CMD_REJECTED (SET_MODE with UNSET: FATAL), and
buffer writes record WRITE_REJECTED. -/
def Obligations.TransmitIsNotInterruptible : Prop :=
  ∀ s : State, BlockInv s → s.tx.phase ≠ .idle →
    (∀ (i : Instr) (t : State), i ≠ .evTxStep → exec i s = .next t →
      t.tx = s.tx ∧ t.mem = s.mem ∧ t.buf = s.buf ∧ t.cfg = s.cfg) ∧
    (s.errs.flags.getLsbD 6 = false →
      exec .rawSend s = .next (recorded 2 0x028#14 0x00000004#32 s) ∧
        exec .refreshConfig s = .next (recorded 2 0x028#14 0x00000002#32 s) ∧
        exec (.setMode .off) s = .next (recorded 2 0x028#14 0x00000003#32 s) ∧
        exec (.setMode .rx) s = .next (recorded 2 0x028#14 0x00000103#32 s) ∧
        exec (.setMode .tx) s = .next (recorded 2 0x028#14 0x00000203#32 s) ∧
        exec (.setMode .unset) s = .next (recorded 6 0x028#14 0x00000303#32 s)) ∧
    (∀ d : Word, exec (.wrPulseCount d) s = .next (recorded 3 0x038#14 d s) ∧
      exec (.wrRepeats d) s = .next (recorded 3 0x03C#14 d s) ∧
      exec (.wrInterRepeatDelayMs d) s = .next (recorded 3 0x040#14 d s) ∧
      ∀ i : Index, exec (.wrPulse i d) s = .next (recorded 3 (BitVec.ofNat 14 (0x2000 + 4 * i.toNat)) d s))

/-! ### All operations -/

/-- Every step keeps the invariant of the block, whatever the input, a reset among them (R59, with what makes it
inductive). -/
def Obligations.StepKeepsInvariant : Prop := ∀ s t : State, BlockInv s → step s = .next t → BlockInv t

/-- From the invariant no step stops: no fault and no refusal is ever met, whatever the input (R61, R247). -/
def Obligations.StepNeverStops : Prop := ∀ s : State, BlockInv s → ∃ t, step s = .next t

/-- The phases of a tick up to the host's keep the items of R59 one after another: after phase A1 the invariant of a
phase, after each later phase the invariant of the end of a tick. -/
def Obligations.PhasesKeepInvariant : Prop :=
  ∀ s a1 a2 a3 a4 a5 : State, BlockInv s → radioPhase s = .next a1 → txPhase a1 = .next a2 → deadlinePhase a2 = .next a3 →
    pollPhase a3 = .next a4 → edgePhase a4 = .next a5 → PhaseInv a1 ∧ BlockInv a2 ∧ BlockInv a3 ∧ BlockInv a4 ∧ BlockInv a5

/-- Receiver and transmitter are never powered together at any point of the output trace (R43, R116): every step from a
state that has the invariant and such a trace gives such a trace. -/
def Obligations.TraceNeverPowersBoth : Prop := ∀ s t : State, BlockInv s → TraceInv s → step s = .next t → TraceInv t

/-- The active configuration changes only in REFRESH_CONFIG, all fields at once, while Q holds and the shadow is valid;
no operation changes the build (R75, R38, R54). -/
def Obligations.ConfigChangesOnlyByRefresh : Prop :=
  ∀ (i : Instr) (s t : State), exec i s = .next t →
    t.build = s.build ∧
      (t.cfg ≠ s.cfg →
        (i = .refreshConfig ∨ i = .wrCmd 0x00000002#32) ∧ quiescent s = true ∧
          cfgValid s.build.capacity s.cfgSh = true ∧ t.cfg = s.cfgSh)

/-- The radio mode changes only at the end of a radio sequence, to the sequence's target; no event of the capture engine
writes the radio, an output or the trace (R40, R114, R118). -/
def Obligations.RadioModeChangesOnlyAtSequenceEnd : Prop :=
  (∀ (i : Instr) (s t : State), exec i s = .next t → t.radio.mode ≠ s.radio.mode →
    i = .evRadioStep ∧ s.radio.busy = true ∧ s.radio.step ≠ .first ∧ t.radio.mode = s.radio.target ∧
      t.radio.busy = false) ∧
  ∀ i ∈ [Instr.evEdgeIdle, .evEdgeSeekingShort, .evEdgeSeekingCommit, .evEdgeCapturingGlitch, .evEdgeCapturingAccept,
          .evEdgeDone, .evDeadlineSeeking, .evDeadlineCapturing, .evPollEnd],
    ∀ s t : State, exec i s = .next t → t.radio = s.radio ∧ t.pins = s.pins ∧ t.trace = s.trace ∧ t.tx = s.tx

/-- `ready` rises only where a capture ends with at least `min_raw_pulses` half-pulses, and falls only in CONSUME (R23,
R150 item 1). -/
def Obligations.ReadyRisesOnlyWithEnoughPulses : Prop :=
  ∀ (i : Instr) (s t : State), exec i s = .next t →
    (s.cap.ready = false → t.cap.ready = true →
      (i = .evEdgeSeekingCommit ∨ i = .evEdgeCapturingAccept ∨ i = .evDeadlineCapturing) ∧
        s.cfg.minRawPulses.toNat ≤ t.buf.pulseCount.toNat ∧ t.cap.state = .done) ∧
    (s.cap.ready = true → t.cap.ready = false → i = .consume ∨ i = .wrCmd 0x00000001#32)

/-- The bytes of the buffer (R26, R178): only WR_PULSE, the commit of a preamble and an accepted pulse write them, each
only the two bytes of its word; so the block itself never writes word 0. -/
def Obligations.BufferBytesFrame : Prop :=
  ∀ (i : Instr) (s t : State), exec i s = .next t →
    (∀ a, (match i with
        | .wrPulse k _ => a ≠ 0x2000 + 4 * k.toNat ∧ a ≠ 0x2000 + 4 * k.toNat + 1
        | .evEdgeSeekingCommit => a ≠ 0x2004 ∧ a ≠ 0x2005
        | .evEdgeCapturingAccept =>
          a ≠ 0x2000 + 4 * (s.buf.pulseCount.toNat + 1) ∧ a ≠ 0x2000 + 4 * (s.buf.pulseCount.toNat + 1) + 1
        | _ => True) →
      t.mem.read a = s.mem.read a) ∧
    ((∀ d, i ≠ .wrPulse 0#11 d) → pulse t 0 = pulse s 0)
end

