-- ==== Sys2Proof/Laws/Memory.lean ====
section
/-!
SUPPORT. The pulse buffer's bytes and words: read after write, and that every write keeps the canonical form.
-/
namespace Sys2Proof.Machine

@[simp] theorem memory_read_nil (a : Nat) : Memory.read [] a = Memory.unlisted := rfl

@[simp] theorem memory_read_cons (c : Host.Cell) (m : Memory) (a : Nat) :
    Memory.read (c :: m) a = if c.1 = a then c.2 else Memory.read m a := rfl

@[simp] theorem memory_wf_nil : Memory.wf [] = true := rfl

theorem memory_wf_cons (c : Host.Cell) (m : Memory) :
    Memory.wf (c :: m) = true ↔ c.2 ≠ Memory.unlisted ∧ (∀ d ∈ m, c.1 < d.1) ∧ Memory.wf m = true := by
  simp [Memory.wf, and_assoc]

/-- An address below every listed one reads as unlisted. -/
theorem memory_read_of_lt {m : Memory} {a : Nat} (h : ∀ d ∈ m, a < d.1) : Memory.read m a = Memory.unlisted := by
  induction m with
  | nil => rfl
  | cons c m ih =>
    have hc := h c (by simp)
    rw [memory_read_cons, if_neg (by omega)]
    exact ih fun d hd => h d (by simp [hd])

/-- A write lists no address other than the written one and those listed before. -/
theorem memory_mem_write {m : Memory} {a : Nat} {v : Byte} {d : Host.Cell} (h : d ∈ Memory.write m a v) :
    d ∈ m ∨ d = (a, v) := by
  induction m with
  | nil => simp only [Memory.write] at h; split at h <;> simp_all
  | cons c m ih =>
    simp only [Memory.write] at h
    split at h
    · split at h
      · exact .inl h
      · rcases List.mem_cons.1 h with h | h <;> simp [h]
    · split at h
      · split at h
        · exact .inl (List.mem_cons_of_mem _ h)
        · rcases List.mem_cons.1 h with h | h <;> simp [h]
      · rcases List.mem_cons.1 h with rfl | h
        · simp
        · rcases ih h with h | h <;> simp [h]

/-- A write keeps the canonical form. -/
theorem memory_write_wf {m : Memory} (a : Nat) (v : Byte) (h : Memory.wf m = true) :
    Memory.wf (Memory.write m a v) = true := by
  induction m with
  | nil =>
    simp only [Memory.write]
    split
    · rfl
    · rename_i hv; exact (memory_wf_cons _ _).2 ⟨hv, by simp, rfl⟩
  | cons c m ih =>
    obtain ⟨hc, hlt, hm⟩ := (memory_wf_cons c m).1 h
    simp only [Memory.write]
    split
    · rename_i ha
      split
      · exact h
      · rename_i hv
        refine (memory_wf_cons _ _).2 ⟨hv, fun d hd => ?_, h⟩
        rcases List.mem_cons.1 hd with rfl | hd
        · exact ha
        · have := hlt d hd; simp only; omega
    · split
      · rename_i _ ha
        split
        · exact hm
        · rename_i hv
          exact (memory_wf_cons _ _).2 ⟨hv, fun d hd => by have := hlt d hd; simp only; omega, hm⟩
      · rename_i h1 h2
        refine (memory_wf_cons _ _).2 ⟨hc, fun d hd => ?_, ih hm⟩
        rcases memory_mem_write hd with hd | rfl
        · exact hlt d hd
        · simp only; omega

/-- Reading the written address gives the written byte. -/
theorem memory_read_write_same {m : Memory} (a : Nat) (v : Byte) (h : Memory.wf m = true) :
    Memory.read (Memory.write m a v) a = v := by
  induction m with
  | nil => simp only [Memory.write]; split <;> simp_all
  | cons c m ih =>
    obtain ⟨_, hlt, hm⟩ := (memory_wf_cons c m).1 h
    simp only [Memory.write]
    split
    · rename_i ha
      split
      · rename_i hv
        rw [hv]
        refine memory_read_of_lt fun d hd => ?_
        rcases List.mem_cons.1 hd with rfl | hd
        · exact ha
        · have := hlt d hd; omega
      · simp
    · split
      · rename_i _ ha
        split
        · rename_i hv
          rw [hv]
          exact memory_read_of_lt fun d hd => by have := hlt d hd; omega
        · simp
      · rename_i _ ha
        rw [memory_read_cons, if_neg (by omega)]
        exact ih hm

/-- Reading another address gives what it gave before. -/
theorem memory_read_write_other {m : Memory} {a b : Nat} (v : Byte) (hab : b ≠ a) :
    Memory.read (Memory.write m a v) b = Memory.read m b := by
  induction m with
  | nil =>
    simp only [Memory.write]
    split
    · rfl
    · simp only [memory_read_cons, memory_read_nil]; rw [if_neg (by omega)]
  | cons c m ih =>
    simp only [Memory.write]
    split
    · split
      · rfl
      · rw [memory_read_cons, if_neg (by omega)]
    · split
      · rename_i _ ha
        have hc : Memory.read (c :: m) b = Memory.read m b := by rw [memory_read_cons, if_neg (by omega)]
        split
        · rw [hc]
        · rw [hc, memory_read_cons, if_neg (by omega)]
      · simp only [memory_read_cons, ih]

/-- Writing a word keeps the canonical form. -/
theorem memory_writePulse_wf {m : Memory} (i : Nat) (v : Half) (h : Memory.wf m = true) :
    Memory.wf (Memory.writePulse m i v) = true :=
  memory_write_wf _ _ (memory_write_wf _ _ h)

/-- Writing a word leaves every byte outside its two bytes as it was. -/
theorem memory_read_writePulse_other {m : Memory} {i a : Nat} (v : Half) (h0 : a ≠ pulseAddr i)
    (h1 : a ≠ pulseAddr i + 1) : Memory.read (Memory.writePulse m i v) a = Memory.read m a := by
  rw [Memory.writePulse, memory_read_write_other _ h1, memory_read_write_other _ h0]

/-- Writing a word and reading it gives the word. -/
theorem memory_readPulse_writePulse_same {m : Memory} (i : Nat) (v : Half) (h : Memory.wf m = true) :
    Memory.readPulse (Memory.writePulse m i v) i = v := by
  rw [Memory.readPulse, Memory.writePulse, memory_read_write_same _ _ (memory_write_wf _ _ h),
    memory_read_write_other _ (by omega), memory_read_write_same _ _ h]
  ext k hk
  simp only [BitVec.getElem_append, BitVec.getElem_extractLsb']
  split
  · simp [BitVec.getLsbD_eq_getElem hk]
  · rw [Nat.add_sub_cancel' (by omega), BitVec.getLsbD_eq_getElem hk]

/-- Writing a word leaves every other word as it was. -/
theorem memory_readPulse_writePulse_other {m : Memory} {i j : Nat} (v : Half) (h : j ≠ i) :
    Memory.readPulse (Memory.writePulse m i v) j = Memory.readPulse m j := by
  simp only [Memory.readPulse]
  rw [memory_read_writePulse_other, memory_read_writePulse_other] <;> simp only [pulseAddr] <;> omega

/-- A word of an empty memory is 0: its reset value (R26). -/
@[simp] theorem memory_readPulse_nil (i : Nat) : Memory.readPulse [] i = 0#16 := by
  simp only [Memory.readPulse, memory_read_nil]; rfl

/-- The memory after reset has the canonical form. -/
theorem reset_memory_wf (b : Build) : Memory.wf (State.resetOf b).mem = true := rfl

end Sys2Proof.Machine
end

