-- ==== Sys2Proof/Laws/State.lean ====
section
/-!
SUPPORT. For every pure update of the state, the groups of State it leaves as they are: one lemma per group and update,
so that no later proof unfolds an update to see what it does not touch.
-/
namespace Sys2Proof.Machine

@[simp] theorem setPending_build (k : Nat) (s : State) : (setPending k s).build = s.build := rfl
@[simp] theorem setPending_mem (k : Nat) (s : State) : (setPending k s).mem = s.mem := rfl
@[simp] theorem setPending_buf (k : Nat) (s : State) : (setPending k s).buf = s.buf := rfl
@[simp] theorem setPending_cap (k : Nat) (s : State) : (setPending k s).cap = s.cap := rfl
@[simp] theorem setPending_edge (k : Nat) (s : State) : (setPending k s).edge = s.edge := rfl
@[simp] theorem setPending_poll (k : Nat) (s : State) : (setPending k s).poll = s.poll := rfl
@[simp] theorem setPending_cfgSh (k : Nat) (s : State) : (setPending k s).cfgSh = s.cfgSh := rfl
@[simp] theorem setPending_cfg (k : Nat) (s : State) : (setPending k s).cfg = s.cfg := rfl
@[simp] theorem setPending_radio (k : Nat) (s : State) : (setPending k s).radio = s.radio := rfl
@[simp] theorem setPending_pins (k : Nat) (s : State) : (setPending k s).pins = s.pins := rfl
@[simp] theorem setPending_tx (k : Nat) (s : State) : (setPending k s).tx = s.tx := rfl
@[simp] theorem setPending_errs (k : Nat) (s : State) : (setPending k s).errs = s.errs := rfl
@[simp] theorem setPending_now (k : Nat) (s : State) : (setPending k s).now = s.now := rfl
@[simp] theorem setPending_trace (k : Nat) (s : State) : (setPending k s).trace = s.trace := rfl
@[simp] theorem setPending_reads (k : Nat) (s : State) : (setPending k s).reads = s.reads := rfl
@[simp] theorem setPending_env (k : Nat) (s : State) : (setPending k s).env = s.env := rfl

@[simp] theorem raiseErr_build (c : ErrCause) (a : Offset) (d : Word) (s : State) : (raiseErr c a d s).build = s.build :=
  rfl
@[simp] theorem raiseErr_mem (c : ErrCause) (a : Offset) (d : Word) (s : State) : (raiseErr c a d s).mem = s.mem := rfl
@[simp] theorem raiseErr_buf (c : ErrCause) (a : Offset) (d : Word) (s : State) : (raiseErr c a d s).buf = s.buf := rfl
@[simp] theorem raiseErr_cap (c : ErrCause) (a : Offset) (d : Word) (s : State) : (raiseErr c a d s).cap = s.cap := rfl
@[simp] theorem raiseErr_edge (c : ErrCause) (a : Offset) (d : Word) (s : State) : (raiseErr c a d s).edge = s.edge :=
  rfl
@[simp] theorem raiseErr_poll (c : ErrCause) (a : Offset) (d : Word) (s : State) : (raiseErr c a d s).poll = s.poll :=
  rfl
@[simp] theorem raiseErr_cfgSh (c : ErrCause) (a : Offset) (d : Word) (s : State) : (raiseErr c a d s).cfgSh = s.cfgSh :=
  rfl
@[simp] theorem raiseErr_cfg (c : ErrCause) (a : Offset) (d : Word) (s : State) : (raiseErr c a d s).cfg = s.cfg := rfl
@[simp] theorem raiseErr_radio (c : ErrCause) (a : Offset) (d : Word) (s : State) : (raiseErr c a d s).radio = s.radio :=
  rfl
@[simp] theorem raiseErr_pins (c : ErrCause) (a : Offset) (d : Word) (s : State) : (raiseErr c a d s).pins = s.pins :=
  rfl
@[simp] theorem raiseErr_tx (c : ErrCause) (a : Offset) (d : Word) (s : State) : (raiseErr c a d s).tx = s.tx := rfl
@[simp] theorem raiseErr_now (c : ErrCause) (a : Offset) (d : Word) (s : State) : (raiseErr c a d s).now = s.now := rfl
@[simp] theorem raiseErr_trace (c : ErrCause) (a : Offset) (d : Word) (s : State) : (raiseErr c a d s).trace = s.trace :=
  rfl
@[simp] theorem raiseErr_reads (c : ErrCause) (a : Offset) (d : Word) (s : State) : (raiseErr c a d s).reads = s.reads :=
  rfl
@[simp] theorem raiseErr_env (c : ErrCause) (a : Offset) (d : Word) (s : State) : (raiseErr c a d s).env = s.env := rfl

@[simp] theorem raiseFatal_build (a : Offset) (d : Word) (s : State) : (raiseFatal a d s).build = s.build := rfl
@[simp] theorem raiseFatal_mem (a : Offset) (d : Word) (s : State) : (raiseFatal a d s).mem = s.mem := rfl
@[simp] theorem raiseFatal_buf (a : Offset) (d : Word) (s : State) : (raiseFatal a d s).buf = s.buf := rfl
@[simp] theorem raiseFatal_cap (a : Offset) (d : Word) (s : State) : (raiseFatal a d s).cap = s.cap := rfl
@[simp] theorem raiseFatal_edge (a : Offset) (d : Word) (s : State) : (raiseFatal a d s).edge = s.edge := rfl
@[simp] theorem raiseFatal_poll (a : Offset) (d : Word) (s : State) : (raiseFatal a d s).poll = s.poll := rfl
@[simp] theorem raiseFatal_cfgSh (a : Offset) (d : Word) (s : State) : (raiseFatal a d s).cfgSh = s.cfgSh := rfl
@[simp] theorem raiseFatal_cfg (a : Offset) (d : Word) (s : State) : (raiseFatal a d s).cfg = s.cfg := rfl
@[simp] theorem raiseFatal_radio (a : Offset) (d : Word) (s : State) : (raiseFatal a d s).radio = s.radio := rfl
@[simp] theorem raiseFatal_pins (a : Offset) (d : Word) (s : State) : (raiseFatal a d s).pins = s.pins := rfl
@[simp] theorem raiseFatal_tx (a : Offset) (d : Word) (s : State) : (raiseFatal a d s).tx = s.tx := rfl
@[simp] theorem raiseFatal_now (a : Offset) (d : Word) (s : State) : (raiseFatal a d s).now = s.now := rfl
@[simp] theorem raiseFatal_trace (a : Offset) (d : Word) (s : State) : (raiseFatal a d s).trace = s.trace := rfl
@[simp] theorem raiseFatal_reads (a : Offset) (d : Word) (s : State) : (raiseFatal a d s).reads = s.reads := rfl
@[simp] theorem raiseFatal_env (a : Offset) (d : Word) (s : State) : (raiseFatal a d s).env = s.env := rfl

@[simp] theorem rejectCmd_build (c : ErrCause) (w : Word) (s : State) : (rejectCmd c w s).build = s.build := rfl
@[simp] theorem rejectCmd_mem (c : ErrCause) (w : Word) (s : State) : (rejectCmd c w s).mem = s.mem := rfl
@[simp] theorem rejectCmd_buf (c : ErrCause) (w : Word) (s : State) : (rejectCmd c w s).buf = s.buf := rfl
@[simp] theorem rejectCmd_cap (c : ErrCause) (w : Word) (s : State) : (rejectCmd c w s).cap = s.cap := rfl
@[simp] theorem rejectCmd_edge (c : ErrCause) (w : Word) (s : State) : (rejectCmd c w s).edge = s.edge := rfl
@[simp] theorem rejectCmd_poll (c : ErrCause) (w : Word) (s : State) : (rejectCmd c w s).poll = s.poll := rfl
@[simp] theorem rejectCmd_cfgSh (c : ErrCause) (w : Word) (s : State) : (rejectCmd c w s).cfgSh = s.cfgSh := rfl
@[simp] theorem rejectCmd_cfg (c : ErrCause) (w : Word) (s : State) : (rejectCmd c w s).cfg = s.cfg := rfl
@[simp] theorem rejectCmd_radio (c : ErrCause) (w : Word) (s : State) : (rejectCmd c w s).radio = s.radio := rfl
@[simp] theorem rejectCmd_pins (c : ErrCause) (w : Word) (s : State) : (rejectCmd c w s).pins = s.pins := rfl
@[simp] theorem rejectCmd_tx (c : ErrCause) (w : Word) (s : State) : (rejectCmd c w s).tx = s.tx := rfl
@[simp] theorem rejectCmd_now (c : ErrCause) (w : Word) (s : State) : (rejectCmd c w s).now = s.now := rfl
@[simp] theorem rejectCmd_trace (c : ErrCause) (w : Word) (s : State) : (rejectCmd c w s).trace = s.trace := rfl
@[simp] theorem rejectCmd_reads (c : ErrCause) (w : Word) (s : State) : (rejectCmd c w s).reads = s.reads := rfl
@[simp] theorem rejectCmd_env (c : ErrCause) (w : Word) (s : State) : (rejectCmd c w s).env = s.env := rfl

@[simp] theorem drivePin_build (p : Pin) (b : Bool) (s : State) : (drivePin p b s).build = s.build := rfl
@[simp] theorem drivePin_mem (p : Pin) (b : Bool) (s : State) : (drivePin p b s).mem = s.mem := rfl
@[simp] theorem drivePin_buf (p : Pin) (b : Bool) (s : State) : (drivePin p b s).buf = s.buf := rfl
@[simp] theorem drivePin_cap (p : Pin) (b : Bool) (s : State) : (drivePin p b s).cap = s.cap := rfl
@[simp] theorem drivePin_edge (p : Pin) (b : Bool) (s : State) : (drivePin p b s).edge = s.edge := rfl
@[simp] theorem drivePin_poll (p : Pin) (b : Bool) (s : State) : (drivePin p b s).poll = s.poll := rfl
@[simp] theorem drivePin_cfgSh (p : Pin) (b : Bool) (s : State) : (drivePin p b s).cfgSh = s.cfgSh := rfl
@[simp] theorem drivePin_cfg (p : Pin) (b : Bool) (s : State) : (drivePin p b s).cfg = s.cfg := rfl
@[simp] theorem drivePin_radio (p : Pin) (b : Bool) (s : State) : (drivePin p b s).radio = s.radio := rfl
@[simp] theorem drivePin_tx (p : Pin) (b : Bool) (s : State) : (drivePin p b s).tx = s.tx := rfl
@[simp] theorem drivePin_errs (p : Pin) (b : Bool) (s : State) : (drivePin p b s).errs = s.errs := rfl
@[simp] theorem drivePin_ints (p : Pin) (b : Bool) (s : State) : (drivePin p b s).ints = s.ints := rfl
@[simp] theorem drivePin_now (p : Pin) (b : Bool) (s : State) : (drivePin p b s).now = s.now := rfl
@[simp] theorem drivePin_reads (p : Pin) (b : Bool) (s : State) : (drivePin p b s).reads = s.reads := rfl
@[simp] theorem drivePin_env (p : Pin) (b : Bool) (s : State) : (drivePin p b s).env = s.env := rfl

@[simp] theorem drivePins_build (ws : List (Pin × Bool)) (s : State) : (drivePins ws s).build = s.build := by
  induction ws generalizing s with
  | nil => rfl
  | cons w ws ih => exact ih _
@[simp] theorem drivePins_mem (ws : List (Pin × Bool)) (s : State) : (drivePins ws s).mem = s.mem := by
  induction ws generalizing s with
  | nil => rfl
  | cons w ws ih => exact ih _
@[simp] theorem drivePins_buf (ws : List (Pin × Bool)) (s : State) : (drivePins ws s).buf = s.buf := by
  induction ws generalizing s with
  | nil => rfl
  | cons w ws ih => exact ih _
@[simp] theorem drivePins_cap (ws : List (Pin × Bool)) (s : State) : (drivePins ws s).cap = s.cap := by
  induction ws generalizing s with
  | nil => rfl
  | cons w ws ih => exact ih _
@[simp] theorem drivePins_edge (ws : List (Pin × Bool)) (s : State) : (drivePins ws s).edge = s.edge := by
  induction ws generalizing s with
  | nil => rfl
  | cons w ws ih => exact ih _
@[simp] theorem drivePins_poll (ws : List (Pin × Bool)) (s : State) : (drivePins ws s).poll = s.poll := by
  induction ws generalizing s with
  | nil => rfl
  | cons w ws ih => exact ih _
@[simp] theorem drivePins_cfgSh (ws : List (Pin × Bool)) (s : State) : (drivePins ws s).cfgSh = s.cfgSh := by
  induction ws generalizing s with
  | nil => rfl
  | cons w ws ih => exact ih _
@[simp] theorem drivePins_cfg (ws : List (Pin × Bool)) (s : State) : (drivePins ws s).cfg = s.cfg := by
  induction ws generalizing s with
  | nil => rfl
  | cons w ws ih => exact ih _
@[simp] theorem drivePins_radio (ws : List (Pin × Bool)) (s : State) : (drivePins ws s).radio = s.radio := by
  induction ws generalizing s with
  | nil => rfl
  | cons w ws ih => exact ih _
@[simp] theorem drivePins_tx (ws : List (Pin × Bool)) (s : State) : (drivePins ws s).tx = s.tx := by
  induction ws generalizing s with
  | nil => rfl
  | cons w ws ih => exact ih _
@[simp] theorem drivePins_errs (ws : List (Pin × Bool)) (s : State) : (drivePins ws s).errs = s.errs := by
  induction ws generalizing s with
  | nil => rfl
  | cons w ws ih => exact ih _
@[simp] theorem drivePins_ints (ws : List (Pin × Bool)) (s : State) : (drivePins ws s).ints = s.ints := by
  induction ws generalizing s with
  | nil => rfl
  | cons w ws ih => exact ih _
@[simp] theorem drivePins_now (ws : List (Pin × Bool)) (s : State) : (drivePins ws s).now = s.now := by
  induction ws generalizing s with
  | nil => rfl
  | cons w ws ih => exact ih _
@[simp] theorem drivePins_reads (ws : List (Pin × Bool)) (s : State) : (drivePins ws s).reads = s.reads := by
  induction ws generalizing s with
  | nil => rfl
  | cons w ws ih => exact ih _
@[simp] theorem drivePins_env (ws : List (Pin × Bool)) (s : State) : (drivePins ws s).env = s.env := by
  induction ws generalizing s with
  | nil => rfl
  | cons w ws ih => exact ih _

@[simp] theorem returnRead_build (o : Offset) (v : Word) (s : State) : (returnRead o v s).build = s.build := rfl
@[simp] theorem returnRead_mem (o : Offset) (v : Word) (s : State) : (returnRead o v s).mem = s.mem := rfl
@[simp] theorem returnRead_buf (o : Offset) (v : Word) (s : State) : (returnRead o v s).buf = s.buf := rfl
@[simp] theorem returnRead_cap (o : Offset) (v : Word) (s : State) : (returnRead o v s).cap = s.cap := rfl
@[simp] theorem returnRead_edge (o : Offset) (v : Word) (s : State) : (returnRead o v s).edge = s.edge := rfl
@[simp] theorem returnRead_poll (o : Offset) (v : Word) (s : State) : (returnRead o v s).poll = s.poll := rfl
@[simp] theorem returnRead_cfgSh (o : Offset) (v : Word) (s : State) : (returnRead o v s).cfgSh = s.cfgSh := rfl
@[simp] theorem returnRead_cfg (o : Offset) (v : Word) (s : State) : (returnRead o v s).cfg = s.cfg := rfl
@[simp] theorem returnRead_radio (o : Offset) (v : Word) (s : State) : (returnRead o v s).radio = s.radio := rfl
@[simp] theorem returnRead_pins (o : Offset) (v : Word) (s : State) : (returnRead o v s).pins = s.pins := rfl
@[simp] theorem returnRead_tx (o : Offset) (v : Word) (s : State) : (returnRead o v s).tx = s.tx := rfl
@[simp] theorem returnRead_errs (o : Offset) (v : Word) (s : State) : (returnRead o v s).errs = s.errs := rfl
@[simp] theorem returnRead_ints (o : Offset) (v : Word) (s : State) : (returnRead o v s).ints = s.ints := rfl
@[simp] theorem returnRead_now (o : Offset) (v : Word) (s : State) : (returnRead o v s).now = s.now := rfl
@[simp] theorem returnRead_trace (o : Offset) (v : Word) (s : State) : (returnRead o v s).trace = s.trace := rfl
@[simp] theorem returnRead_env (o : Offset) (v : Word) (s : State) : (returnRead o v s).env = s.env := rfl

@[simp] theorem platformReset_build (s : State) : (platformReset s).build = s.build := rfl
@[simp] theorem platformReset_env (s : State) : (platformReset s).env = s.env := rfl

@[simp] theorem radioStart_build (m : RadioMode) (o : Origin) (s : State) : (radioStart m o s).build = s.build :=
  by simp [radioStart]
@[simp] theorem radioStart_mem (m : RadioMode) (o : Origin) (s : State) : (radioStart m o s).mem = s.mem :=
  by simp [radioStart]
@[simp] theorem radioStart_buf (m : RadioMode) (o : Origin) (s : State) : (radioStart m o s).buf = s.buf :=
  by simp [radioStart]
@[simp] theorem radioStart_cap (m : RadioMode) (o : Origin) (s : State) : (radioStart m o s).cap = s.cap :=
  by simp [radioStart]
@[simp] theorem radioStart_edge (m : RadioMode) (o : Origin) (s : State) : (radioStart m o s).edge = s.edge :=
  by simp [radioStart]
@[simp] theorem radioStart_poll (m : RadioMode) (o : Origin) (s : State) : (radioStart m o s).poll = s.poll :=
  by simp [radioStart]
@[simp] theorem radioStart_cfgSh (m : RadioMode) (o : Origin) (s : State) : (radioStart m o s).cfgSh = s.cfgSh :=
  by simp [radioStart]
@[simp] theorem radioStart_cfg (m : RadioMode) (o : Origin) (s : State) : (radioStart m o s).cfg = s.cfg :=
  by simp [radioStart]
@[simp] theorem radioStart_tx (m : RadioMode) (o : Origin) (s : State) : (radioStart m o s).tx = s.tx :=
  by simp [radioStart]
@[simp] theorem radioStart_errs (m : RadioMode) (o : Origin) (s : State) : (radioStart m o s).errs = s.errs :=
  by simp [radioStart]
@[simp] theorem radioStart_ints (m : RadioMode) (o : Origin) (s : State) : (radioStart m o s).ints = s.ints :=
  by simp [radioStart]
@[simp] theorem radioStart_now (m : RadioMode) (o : Origin) (s : State) : (radioStart m o s).now = s.now :=
  by simp [radioStart]
@[simp] theorem radioStart_reads (m : RadioMode) (o : Origin) (s : State) : (radioStart m o s).reads = s.reads :=
  by simp [radioStart]
@[simp] theorem radioStart_env (m : RadioMode) (o : Origin) (s : State) : (radioStart m o s).env = s.env :=
  by simp [radioStart]

@[simp] theorem radioDone_build (o : Origin) (s : State) : (radioDone o s).build = s.build := by cases o <;> rfl
@[simp] theorem radioDone_mem (o : Origin) (s : State) : (radioDone o s).mem = s.mem := by cases o <;> rfl
@[simp] theorem radioDone_buf (o : Origin) (s : State) : (radioDone o s).buf = s.buf := by cases o <;> rfl
@[simp] theorem radioDone_cap (o : Origin) (s : State) : (radioDone o s).cap = s.cap := by cases o <;> rfl
@[simp] theorem radioDone_edge (o : Origin) (s : State) : (radioDone o s).edge = s.edge := by cases o <;> rfl
@[simp] theorem radioDone_poll (o : Origin) (s : State) : (radioDone o s).poll = s.poll := by cases o <;> rfl
@[simp] theorem radioDone_cfgSh (o : Origin) (s : State) : (radioDone o s).cfgSh = s.cfgSh := by cases o <;> rfl
@[simp] theorem radioDone_cfg (o : Origin) (s : State) : (radioDone o s).cfg = s.cfg := by cases o <;> rfl
@[simp] theorem radioDone_radio (o : Origin) (s : State) : (radioDone o s).radio = s.radio := by cases o <;> rfl
@[simp] theorem radioDone_pins (o : Origin) (s : State) : (radioDone o s).pins = s.pins := by cases o <;> rfl
@[simp] theorem radioDone_tx (o : Origin) (s : State) : (radioDone o s).tx = s.tx := by cases o <;> rfl
@[simp] theorem radioDone_errs (o : Origin) (s : State) : (radioDone o s).errs = s.errs := by cases o <;> rfl
@[simp] theorem radioDone_now (o : Origin) (s : State) : (radioDone o s).now = s.now := by cases o <;> rfl
@[simp] theorem radioDone_trace (o : Origin) (s : State) : (radioDone o s).trace = s.trace := by cases o <;> rfl
@[simp] theorem radioDone_reads (o : Origin) (s : State) : (radioDone o s).reads = s.reads := by cases o <;> rfl
@[simp] theorem radioDone_env (o : Origin) (s : State) : (radioDone o s).env = s.env := by cases o <;> rfl

@[simp] theorem radioComplete_build (s : State) : (radioComplete s).build = s.build := by simp [radioComplete]
@[simp] theorem radioComplete_mem (s : State) : (radioComplete s).mem = s.mem := by simp [radioComplete]
@[simp] theorem radioComplete_buf (s : State) : (radioComplete s).buf = s.buf := by simp [radioComplete]
@[simp] theorem radioComplete_cap (s : State) : (radioComplete s).cap = s.cap := by simp [radioComplete]
@[simp] theorem radioComplete_edge (s : State) : (radioComplete s).edge = s.edge := by simp [radioComplete]
@[simp] theorem radioComplete_poll (s : State) : (radioComplete s).poll = s.poll := by simp [radioComplete]
@[simp] theorem radioComplete_cfgSh (s : State) : (radioComplete s).cfgSh = s.cfgSh := by simp [radioComplete]
@[simp] theorem radioComplete_cfg (s : State) : (radioComplete s).cfg = s.cfg := by simp [radioComplete]
@[simp] theorem radioComplete_pins (s : State) : (radioComplete s).pins = s.pins := by simp [radioComplete]
@[simp] theorem radioComplete_tx (s : State) : (radioComplete s).tx = s.tx := by simp [radioComplete]
@[simp] theorem radioComplete_errs (s : State) : (radioComplete s).errs = s.errs := by simp [radioComplete]
@[simp] theorem radioComplete_now (s : State) : (radioComplete s).now = s.now := by simp [radioComplete]
@[simp] theorem radioComplete_trace (s : State) : (radioComplete s).trace = s.trace := by simp [radioComplete]
@[simp] theorem radioComplete_reads (s : State) : (radioComplete s).reads = s.reads := by simp [radioComplete]
@[simp] theorem radioComplete_env (s : State) : (radioComplete s).env = s.env := by simp [radioComplete]

@[simp] theorem radioSecondStep_build (s : State) : (radioSecondStep s).build = s.build := by simp [radioSecondStep]
@[simp] theorem radioSecondStep_mem (s : State) : (radioSecondStep s).mem = s.mem := by simp [radioSecondStep]
@[simp] theorem radioSecondStep_buf (s : State) : (radioSecondStep s).buf = s.buf := by simp [radioSecondStep]
@[simp] theorem radioSecondStep_cap (s : State) : (radioSecondStep s).cap = s.cap := by simp [radioSecondStep]
@[simp] theorem radioSecondStep_edge (s : State) : (radioSecondStep s).edge = s.edge := by simp [radioSecondStep]
@[simp] theorem radioSecondStep_poll (s : State) : (radioSecondStep s).poll = s.poll := by simp [radioSecondStep]
@[simp] theorem radioSecondStep_cfgSh (s : State) : (radioSecondStep s).cfgSh = s.cfgSh := by simp [radioSecondStep]
@[simp] theorem radioSecondStep_cfg (s : State) : (radioSecondStep s).cfg = s.cfg := by simp [radioSecondStep]
@[simp] theorem radioSecondStep_tx (s : State) : (radioSecondStep s).tx = s.tx := by simp [radioSecondStep]
@[simp] theorem radioSecondStep_errs (s : State) : (radioSecondStep s).errs = s.errs := by simp [radioSecondStep]
@[simp] theorem radioSecondStep_ints (s : State) : (radioSecondStep s).ints = s.ints := by simp [radioSecondStep]
@[simp] theorem radioSecondStep_now (s : State) : (radioSecondStep s).now = s.now := by simp [radioSecondStep]
@[simp] theorem radioSecondStep_reads (s : State) : (radioSecondStep s).reads = s.reads := by simp [radioSecondStep]
@[simp] theorem radioSecondStep_env (s : State) : (radioSecondStep s).env = s.env := by simp [radioSecondStep]

@[simp] theorem radioAdvance_build (s : State) : (radioAdvance s).build = s.build := by
  unfold radioAdvance; repeat' split
  all_goals simp
@[simp] theorem radioAdvance_mem (s : State) : (radioAdvance s).mem = s.mem := by
  unfold radioAdvance; repeat' split
  all_goals simp
@[simp] theorem radioAdvance_buf (s : State) : (radioAdvance s).buf = s.buf := by
  unfold radioAdvance; repeat' split
  all_goals simp
@[simp] theorem radioAdvance_cap (s : State) : (radioAdvance s).cap = s.cap := by
  unfold radioAdvance; repeat' split
  all_goals simp
@[simp] theorem radioAdvance_edge (s : State) : (radioAdvance s).edge = s.edge := by
  unfold radioAdvance; repeat' split
  all_goals simp
@[simp] theorem radioAdvance_poll (s : State) : (radioAdvance s).poll = s.poll := by
  unfold radioAdvance; repeat' split
  all_goals simp
@[simp] theorem radioAdvance_cfgSh (s : State) : (radioAdvance s).cfgSh = s.cfgSh := by
  unfold radioAdvance; repeat' split
  all_goals simp
@[simp] theorem radioAdvance_cfg (s : State) : (radioAdvance s).cfg = s.cfg := by
  unfold radioAdvance; repeat' split
  all_goals simp
@[simp] theorem radioAdvance_tx (s : State) : (radioAdvance s).tx = s.tx := by
  unfold radioAdvance; repeat' split
  all_goals simp
@[simp] theorem radioAdvance_errs (s : State) : (radioAdvance s).errs = s.errs := by
  unfold radioAdvance; repeat' split
  all_goals simp
@[simp] theorem radioAdvance_now (s : State) : (radioAdvance s).now = s.now := by
  unfold radioAdvance; repeat' split
  all_goals simp
@[simp] theorem radioAdvance_reads (s : State) : (radioAdvance s).reads = s.reads := by
  unfold radioAdvance; repeat' split
  all_goals simp
@[simp] theorem radioAdvance_env (s : State) : (radioAdvance s).env = s.env := by
  unfold radioAdvance; repeat' split
  all_goals simp

@[simp] theorem setModeBody_build (m : RadioMode) (s : State) : (setModeBody m s).build = s.build := by
  unfold setModeBody; repeat' split
  all_goals simp
@[simp] theorem setModeBody_mem (m : RadioMode) (s : State) : (setModeBody m s).mem = s.mem := by
  unfold setModeBody; repeat' split
  all_goals simp
@[simp] theorem setModeBody_buf (m : RadioMode) (s : State) : (setModeBody m s).buf = s.buf := by
  unfold setModeBody; repeat' split
  all_goals simp
@[simp] theorem setModeBody_cap (m : RadioMode) (s : State) : (setModeBody m s).cap = s.cap := by
  unfold setModeBody; repeat' split
  all_goals simp
@[simp] theorem setModeBody_edge (m : RadioMode) (s : State) : (setModeBody m s).edge = s.edge := by
  unfold setModeBody; repeat' split
  all_goals simp
@[simp] theorem setModeBody_poll (m : RadioMode) (s : State) : (setModeBody m s).poll = s.poll := by
  unfold setModeBody; repeat' split
  all_goals simp
@[simp] theorem setModeBody_cfgSh (m : RadioMode) (s : State) : (setModeBody m s).cfgSh = s.cfgSh := by
  unfold setModeBody; repeat' split
  all_goals simp
@[simp] theorem setModeBody_cfg (m : RadioMode) (s : State) : (setModeBody m s).cfg = s.cfg := by
  unfold setModeBody; repeat' split
  all_goals simp
@[simp] theorem setModeBody_tx (m : RadioMode) (s : State) : (setModeBody m s).tx = s.tx := by
  unfold setModeBody; repeat' split
  all_goals simp
@[simp] theorem setModeBody_now (m : RadioMode) (s : State) : (setModeBody m s).now = s.now := by
  unfold setModeBody; repeat' split
  all_goals simp
@[simp] theorem setModeBody_reads (m : RadioMode) (s : State) : (setModeBody m s).reads = s.reads := by
  unfold setModeBody; repeat' split
  all_goals simp
@[simp] theorem setModeBody_env (m : RadioMode) (s : State) : (setModeBody m s).env = s.env := by
  unfold setModeBody; repeat' split
  all_goals simp

@[simp] theorem armDeadline_build (s : State) : (armDeadline s).build = s.build := by
  unfold armDeadline; split <;> rfl
@[simp] theorem armDeadline_mem (s : State) : (armDeadline s).mem = s.mem := by
  unfold armDeadline; split <;> rfl
@[simp] theorem armDeadline_buf (s : State) : (armDeadline s).buf = s.buf := by
  unfold armDeadline; split <;> rfl
@[simp] theorem armDeadline_edge (s : State) : (armDeadline s).edge = s.edge := by
  unfold armDeadline; split <;> rfl
@[simp] theorem armDeadline_poll (s : State) : (armDeadline s).poll = s.poll := by
  unfold armDeadline; split <;> rfl
@[simp] theorem armDeadline_cfgSh (s : State) : (armDeadline s).cfgSh = s.cfgSh := by
  unfold armDeadline; split <;> rfl
@[simp] theorem armDeadline_cfg (s : State) : (armDeadline s).cfg = s.cfg := by
  unfold armDeadline; split <;> rfl
@[simp] theorem armDeadline_radio (s : State) : (armDeadline s).radio = s.radio := by
  unfold armDeadline; split <;> rfl
@[simp] theorem armDeadline_pins (s : State) : (armDeadline s).pins = s.pins := by
  unfold armDeadline; split <;> rfl
@[simp] theorem armDeadline_tx (s : State) : (armDeadline s).tx = s.tx := by
  unfold armDeadline; split <;> rfl
@[simp] theorem armDeadline_errs (s : State) : (armDeadline s).errs = s.errs := by
  unfold armDeadline; split <;> rfl
@[simp] theorem armDeadline_ints (s : State) : (armDeadline s).ints = s.ints := by
  unfold armDeadline; split <;> rfl
@[simp] theorem armDeadline_now (s : State) : (armDeadline s).now = s.now := by
  unfold armDeadline; split <;> rfl
@[simp] theorem armDeadline_trace (s : State) : (armDeadline s).trace = s.trace := by
  unfold armDeadline; split <;> rfl
@[simp] theorem armDeadline_reads (s : State) : (armDeadline s).reads = s.reads := by
  unfold armDeadline; split <;> rfl
@[simp] theorem armDeadline_env (s : State) : (armDeadline s).env = s.env := by
  unfold armDeadline; split <;> rfl

@[simp] theorem finish_build (r : EndReason) (s : State) : (finish r s).build = s.build := by
  unfold finish; simp only; split <;> simp
@[simp] theorem finish_mem (r : EndReason) (s : State) : (finish r s).mem = s.mem := by
  unfold finish; simp only; split <;> simp
@[simp] theorem finish_edge (r : EndReason) (s : State) : (finish r s).edge = s.edge := by
  unfold finish; simp only; split <;> simp
@[simp] theorem finish_cfgSh (r : EndReason) (s : State) : (finish r s).cfgSh = s.cfgSh := by
  unfold finish; simp only; split <;> simp
@[simp] theorem finish_cfg (r : EndReason) (s : State) : (finish r s).cfg = s.cfg := by
  unfold finish; simp only; split <;> simp
@[simp] theorem finish_radio (r : EndReason) (s : State) : (finish r s).radio = s.radio := by
  unfold finish; simp only; split <;> simp
@[simp] theorem finish_pins (r : EndReason) (s : State) : (finish r s).pins = s.pins := by
  unfold finish; simp only; split <;> simp
@[simp] theorem finish_tx (r : EndReason) (s : State) : (finish r s).tx = s.tx := by
  unfold finish; simp only; split <;> simp
@[simp] theorem finish_errs (r : EndReason) (s : State) : (finish r s).errs = s.errs := by
  unfold finish; simp only; split <;> simp
@[simp] theorem finish_now (r : EndReason) (s : State) : (finish r s).now = s.now := by
  unfold finish; simp only; split <;> simp
@[simp] theorem finish_trace (r : EndReason) (s : State) : (finish r s).trace = s.trace := by
  unfold finish; simp only; split <;> simp
@[simp] theorem finish_reads (r : EndReason) (s : State) : (finish r s).reads = s.reads := by
  unfold finish; simp only; split <;> simp
@[simp] theorem finish_env (r : EndReason) (s : State) : (finish r s).env = s.env := by
  unfold finish; simp only; split <;> simp

@[simp] theorem closeOrArm_build (s : State) : (closeOrArm s).build = s.build := by
  unfold closeOrArm; split <;> simp
@[simp] theorem closeOrArm_mem (s : State) : (closeOrArm s).mem = s.mem := by
  unfold closeOrArm; split <;> simp
@[simp] theorem closeOrArm_edge (s : State) : (closeOrArm s).edge = s.edge := by
  unfold closeOrArm; split <;> simp
@[simp] theorem closeOrArm_cfgSh (s : State) : (closeOrArm s).cfgSh = s.cfgSh := by
  unfold closeOrArm; split <;> simp
@[simp] theorem closeOrArm_cfg (s : State) : (closeOrArm s).cfg = s.cfg := by
  unfold closeOrArm; split <;> simp
@[simp] theorem closeOrArm_radio (s : State) : (closeOrArm s).radio = s.radio := by
  unfold closeOrArm; split <;> simp
@[simp] theorem closeOrArm_pins (s : State) : (closeOrArm s).pins = s.pins := by
  unfold closeOrArm; split <;> simp
@[simp] theorem closeOrArm_tx (s : State) : (closeOrArm s).tx = s.tx := by
  unfold closeOrArm; split <;> simp
@[simp] theorem closeOrArm_errs (s : State) : (closeOrArm s).errs = s.errs := by
  unfold closeOrArm; split <;> simp
@[simp] theorem closeOrArm_now (s : State) : (closeOrArm s).now = s.now := by
  unfold closeOrArm; split <;> simp
@[simp] theorem closeOrArm_trace (s : State) : (closeOrArm s).trace = s.trace := by
  unfold closeOrArm; split <;> simp
@[simp] theorem closeOrArm_reads (s : State) : (closeOrArm s).reads = s.reads := by
  unfold closeOrArm; split <;> simp
@[simp] theorem closeOrArm_env (s : State) : (closeOrArm s).env = s.env := by
  unfold closeOrArm; split <;> simp

@[simp] theorem sampleEdge_build (s : State) : (sampleEdge s).build = s.build := rfl
@[simp] theorem sampleEdge_mem (s : State) : (sampleEdge s).mem = s.mem := rfl
@[simp] theorem sampleEdge_buf (s : State) : (sampleEdge s).buf = s.buf := rfl
@[simp] theorem sampleEdge_cap (s : State) : (sampleEdge s).cap = s.cap := rfl
@[simp] theorem sampleEdge_poll (s : State) : (sampleEdge s).poll = s.poll := rfl
@[simp] theorem sampleEdge_cfgSh (s : State) : (sampleEdge s).cfgSh = s.cfgSh := rfl
@[simp] theorem sampleEdge_cfg (s : State) : (sampleEdge s).cfg = s.cfg := rfl
@[simp] theorem sampleEdge_radio (s : State) : (sampleEdge s).radio = s.radio := rfl
@[simp] theorem sampleEdge_pins (s : State) : (sampleEdge s).pins = s.pins := rfl
@[simp] theorem sampleEdge_tx (s : State) : (sampleEdge s).tx = s.tx := rfl
@[simp] theorem sampleEdge_errs (s : State) : (sampleEdge s).errs = s.errs := rfl
@[simp] theorem sampleEdge_ints (s : State) : (sampleEdge s).ints = s.ints := rfl
@[simp] theorem sampleEdge_now (s : State) : (sampleEdge s).now = s.now := rfl
@[simp] theorem sampleEdge_trace (s : State) : (sampleEdge s).trace = s.trace := rfl
@[simp] theorem sampleEdge_reads (s : State) : (sampleEdge s).reads = s.reads := rfl
@[simp] theorem sampleEdge_env (s : State) : (sampleEdge s).env = s.env := rfl

@[simp] theorem startSeeking_build (s : State) : (startSeeking s).build = s.build := by
  unfold startSeeking; split <;> rfl
@[simp] theorem startSeeking_mem (s : State) : (startSeeking s).mem = s.mem := by
  unfold startSeeking; split <;> rfl
@[simp] theorem startSeeking_buf (s : State) : (startSeeking s).buf = s.buf := by
  unfold startSeeking; split <;> rfl
@[simp] theorem startSeeking_edge (s : State) : (startSeeking s).edge = s.edge := by
  unfold startSeeking; split <;> rfl
@[simp] theorem startSeeking_poll (s : State) : (startSeeking s).poll = s.poll := by
  unfold startSeeking; split <;> rfl
@[simp] theorem startSeeking_cfgSh (s : State) : (startSeeking s).cfgSh = s.cfgSh := by
  unfold startSeeking; split <;> rfl
@[simp] theorem startSeeking_cfg (s : State) : (startSeeking s).cfg = s.cfg := by
  unfold startSeeking; split <;> rfl
@[simp] theorem startSeeking_radio (s : State) : (startSeeking s).radio = s.radio := by
  unfold startSeeking; split <;> rfl
@[simp] theorem startSeeking_pins (s : State) : (startSeeking s).pins = s.pins := by
  unfold startSeeking; split <;> rfl
@[simp] theorem startSeeking_tx (s : State) : (startSeeking s).tx = s.tx := by
  unfold startSeeking; split <;> rfl
@[simp] theorem startSeeking_errs (s : State) : (startSeeking s).errs = s.errs := by
  unfold startSeeking; split <;> rfl
@[simp] theorem startSeeking_ints (s : State) : (startSeeking s).ints = s.ints := by
  unfold startSeeking; split <;> rfl
@[simp] theorem startSeeking_now (s : State) : (startSeeking s).now = s.now := by
  unfold startSeeking; split <;> rfl
@[simp] theorem startSeeking_trace (s : State) : (startSeeking s).trace = s.trace := by
  unfold startSeeking; split <;> rfl
@[simp] theorem startSeeking_reads (s : State) : (startSeeking s).reads = s.reads := by
  unfold startSeeking; split <;> rfl
@[simp] theorem startSeeking_env (s : State) : (startSeeking s).env = s.env := by
  unfold startSeeking; split <;> rfl

@[simp] theorem beginCapture_build (s : State) : (beginCapture s).build = s.build := rfl
@[simp] theorem beginCapture_mem (s : State) : (beginCapture s).mem = s.mem := rfl
@[simp] theorem beginCapture_edge (s : State) : (beginCapture s).edge = s.edge := rfl
@[simp] theorem beginCapture_poll (s : State) : (beginCapture s).poll = s.poll := rfl
@[simp] theorem beginCapture_cfgSh (s : State) : (beginCapture s).cfgSh = s.cfgSh := rfl
@[simp] theorem beginCapture_cfg (s : State) : (beginCapture s).cfg = s.cfg := rfl
@[simp] theorem beginCapture_radio (s : State) : (beginCapture s).radio = s.radio := rfl
@[simp] theorem beginCapture_pins (s : State) : (beginCapture s).pins = s.pins := rfl
@[simp] theorem beginCapture_tx (s : State) : (beginCapture s).tx = s.tx := rfl
@[simp] theorem beginCapture_errs (s : State) : (beginCapture s).errs = s.errs := rfl
@[simp] theorem beginCapture_ints (s : State) : (beginCapture s).ints = s.ints := rfl
@[simp] theorem beginCapture_now (s : State) : (beginCapture s).now = s.now := rfl
@[simp] theorem beginCapture_trace (s : State) : (beginCapture s).trace = s.trace := rfl
@[simp] theorem beginCapture_reads (s : State) : (beginCapture s).reads = s.reads := rfl
@[simp] theorem beginCapture_env (s : State) : (beginCapture s).env = s.env := rfl

@[simp] theorem dropEdge_build (s : State) : (dropEdge s).build = s.build := rfl
@[simp] theorem dropEdge_mem (s : State) : (dropEdge s).mem = s.mem := rfl
@[simp] theorem dropEdge_buf (s : State) : (dropEdge s).buf = s.buf := rfl
@[simp] theorem dropEdge_cap (s : State) : (dropEdge s).cap = s.cap := rfl
@[simp] theorem dropEdge_edge (s : State) : (dropEdge s).edge = s.edge := rfl
@[simp] theorem dropEdge_poll (s : State) : (dropEdge s).poll = s.poll := rfl
@[simp] theorem dropEdge_cfgSh (s : State) : (dropEdge s).cfgSh = s.cfgSh := rfl
@[simp] theorem dropEdge_cfg (s : State) : (dropEdge s).cfg = s.cfg := rfl
@[simp] theorem dropEdge_radio (s : State) : (dropEdge s).radio = s.radio := rfl
@[simp] theorem dropEdge_pins (s : State) : (dropEdge s).pins = s.pins := rfl
@[simp] theorem dropEdge_tx (s : State) : (dropEdge s).tx = s.tx := rfl
@[simp] theorem dropEdge_ints (s : State) : (dropEdge s).ints = s.ints := rfl
@[simp] theorem dropEdge_now (s : State) : (dropEdge s).now = s.now := rfl
@[simp] theorem dropEdge_trace (s : State) : (dropEdge s).trace = s.trace := rfl
@[simp] theorem dropEdge_reads (s : State) : (dropEdge s).reads = s.reads := rfl
@[simp] theorem dropEdge_env (s : State) : (dropEdge s).env = s.env := rfl

@[simp] theorem seekAbandon_build (s : State) : (seekAbandon s).build = s.build := rfl
@[simp] theorem seekAbandon_mem (s : State) : (seekAbandon s).mem = s.mem := rfl
@[simp] theorem seekAbandon_buf (s : State) : (seekAbandon s).buf = s.buf := rfl
@[simp] theorem seekAbandon_edge (s : State) : (seekAbandon s).edge = s.edge := rfl
@[simp] theorem seekAbandon_poll (s : State) : (seekAbandon s).poll = s.poll := rfl
@[simp] theorem seekAbandon_cfgSh (s : State) : (seekAbandon s).cfgSh = s.cfgSh := rfl
@[simp] theorem seekAbandon_cfg (s : State) : (seekAbandon s).cfg = s.cfg := rfl
@[simp] theorem seekAbandon_radio (s : State) : (seekAbandon s).radio = s.radio := rfl
@[simp] theorem seekAbandon_pins (s : State) : (seekAbandon s).pins = s.pins := rfl
@[simp] theorem seekAbandon_tx (s : State) : (seekAbandon s).tx = s.tx := rfl
@[simp] theorem seekAbandon_errs (s : State) : (seekAbandon s).errs = s.errs := rfl
@[simp] theorem seekAbandon_ints (s : State) : (seekAbandon s).ints = s.ints := rfl
@[simp] theorem seekAbandon_now (s : State) : (seekAbandon s).now = s.now := rfl
@[simp] theorem seekAbandon_trace (s : State) : (seekAbandon s).trace = s.trace := rfl
@[simp] theorem seekAbandon_reads (s : State) : (seekAbandon s).reads = s.reads := rfl
@[simp] theorem seekAbandon_env (s : State) : (seekAbandon s).env = s.env := rfl

@[simp] theorem captureTimeout_build (s : State) : (captureTimeout s).build = s.build := by simp [captureTimeout]
@[simp] theorem captureTimeout_mem (s : State) : (captureTimeout s).mem = s.mem := by simp [captureTimeout]
@[simp] theorem captureTimeout_edge (s : State) : (captureTimeout s).edge = s.edge := by simp [captureTimeout]
@[simp] theorem captureTimeout_cfgSh (s : State) : (captureTimeout s).cfgSh = s.cfgSh := by simp [captureTimeout]
@[simp] theorem captureTimeout_cfg (s : State) : (captureTimeout s).cfg = s.cfg := by simp [captureTimeout]
@[simp] theorem captureTimeout_radio (s : State) : (captureTimeout s).radio = s.radio := by simp [captureTimeout]
@[simp] theorem captureTimeout_pins (s : State) : (captureTimeout s).pins = s.pins := by simp [captureTimeout]
@[simp] theorem captureTimeout_tx (s : State) : (captureTimeout s).tx = s.tx := by simp [captureTimeout]
@[simp] theorem captureTimeout_errs (s : State) : (captureTimeout s).errs = s.errs := by simp [captureTimeout]
@[simp] theorem captureTimeout_now (s : State) : (captureTimeout s).now = s.now := by simp [captureTimeout]
@[simp] theorem captureTimeout_trace (s : State) : (captureTimeout s).trace = s.trace := by simp [captureTimeout]
@[simp] theorem captureTimeout_reads (s : State) : (captureTimeout s).reads = s.reads := by simp [captureTimeout]
@[simp] theorem captureTimeout_env (s : State) : (captureTimeout s).env = s.env := by simp [captureTimeout]

@[simp] theorem consumeBody_build (s : State) : (consumeBody s).build = s.build := by
  unfold consumeBody; split <;> rfl
@[simp] theorem consumeBody_mem (s : State) : (consumeBody s).mem = s.mem := by
  unfold consumeBody; split <;> rfl
@[simp] theorem consumeBody_buf (s : State) : (consumeBody s).buf = s.buf := by
  unfold consumeBody; split <;> rfl
@[simp] theorem consumeBody_edge (s : State) : (consumeBody s).edge = s.edge := by
  unfold consumeBody; split <;> rfl
@[simp] theorem consumeBody_poll (s : State) : (consumeBody s).poll = s.poll := by
  unfold consumeBody; split <;> rfl
@[simp] theorem consumeBody_cfgSh (s : State) : (consumeBody s).cfgSh = s.cfgSh := by
  unfold consumeBody; split <;> rfl
@[simp] theorem consumeBody_cfg (s : State) : (consumeBody s).cfg = s.cfg := by
  unfold consumeBody; split <;> rfl
@[simp] theorem consumeBody_radio (s : State) : (consumeBody s).radio = s.radio := by
  unfold consumeBody; split <;> rfl
@[simp] theorem consumeBody_pins (s : State) : (consumeBody s).pins = s.pins := by
  unfold consumeBody; split <;> rfl
@[simp] theorem consumeBody_tx (s : State) : (consumeBody s).tx = s.tx := by
  unfold consumeBody; split <;> rfl
@[simp] theorem consumeBody_errs (s : State) : (consumeBody s).errs = s.errs := by
  unfold consumeBody; split <;> rfl
@[simp] theorem consumeBody_ints (s : State) : (consumeBody s).ints = s.ints := by
  unfold consumeBody; split <;> rfl
@[simp] theorem consumeBody_now (s : State) : (consumeBody s).now = s.now := by
  unfold consumeBody; split <;> rfl
@[simp] theorem consumeBody_trace (s : State) : (consumeBody s).trace = s.trace := by
  unfold consumeBody; split <;> rfl
@[simp] theorem consumeBody_reads (s : State) : (consumeBody s).reads = s.reads := by
  unfold consumeBody; split <;> rfl
@[simp] theorem consumeBody_env (s : State) : (consumeBody s).env = s.env := by
  unfold consumeBody; split <;> rfl

@[simp] theorem refreshConfigBody_build (s : State) : (refreshConfigBody s).build = s.build := by
  unfold refreshConfigBody; repeat' split
  all_goals simp
@[simp] theorem refreshConfigBody_mem (s : State) : (refreshConfigBody s).mem = s.mem := by
  unfold refreshConfigBody; repeat' split
  all_goals simp
@[simp] theorem refreshConfigBody_buf (s : State) : (refreshConfigBody s).buf = s.buf := by
  unfold refreshConfigBody; repeat' split
  all_goals simp
@[simp] theorem refreshConfigBody_cap (s : State) : (refreshConfigBody s).cap = s.cap := by
  unfold refreshConfigBody; repeat' split
  all_goals simp
@[simp] theorem refreshConfigBody_edge (s : State) : (refreshConfigBody s).edge = s.edge := by
  unfold refreshConfigBody; repeat' split
  all_goals simp
@[simp] theorem refreshConfigBody_poll (s : State) : (refreshConfigBody s).poll = s.poll := by
  unfold refreshConfigBody; repeat' split
  all_goals simp
@[simp] theorem refreshConfigBody_cfgSh (s : State) : (refreshConfigBody s).cfgSh = s.cfgSh := by
  unfold refreshConfigBody; repeat' split
  all_goals simp
@[simp] theorem refreshConfigBody_radio (s : State) : (refreshConfigBody s).radio = s.radio := by
  unfold refreshConfigBody; repeat' split
  all_goals simp
@[simp] theorem refreshConfigBody_pins (s : State) : (refreshConfigBody s).pins = s.pins := by
  unfold refreshConfigBody; repeat' split
  all_goals simp
@[simp] theorem refreshConfigBody_tx (s : State) : (refreshConfigBody s).tx = s.tx := by
  unfold refreshConfigBody; repeat' split
  all_goals simp
@[simp] theorem refreshConfigBody_now (s : State) : (refreshConfigBody s).now = s.now := by
  unfold refreshConfigBody; repeat' split
  all_goals simp
@[simp] theorem refreshConfigBody_trace (s : State) : (refreshConfigBody s).trace = s.trace := by
  unfold refreshConfigBody; repeat' split
  all_goals simp
@[simp] theorem refreshConfigBody_reads (s : State) : (refreshConfigBody s).reads = s.reads := by
  unfold refreshConfigBody; repeat' split
  all_goals simp
@[simp] theorem refreshConfigBody_env (s : State) : (refreshConfigBody s).env = s.env := by
  unfold refreshConfigBody; repeat' split
  all_goals simp

@[simp] theorem updateSlicerBody_build (v : Slicer) (s : State) : (updateSlicerBody v s).build = s.build := by
  unfold updateSlicerBody; repeat' split
  all_goals simp
@[simp] theorem updateSlicerBody_mem (v : Slicer) (s : State) : (updateSlicerBody v s).mem = s.mem := by
  unfold updateSlicerBody; repeat' split
  all_goals simp
@[simp] theorem updateSlicerBody_buf (v : Slicer) (s : State) : (updateSlicerBody v s).buf = s.buf := by
  unfold updateSlicerBody; repeat' split
  all_goals simp
@[simp] theorem updateSlicerBody_cap (v : Slicer) (s : State) : (updateSlicerBody v s).cap = s.cap := by
  unfold updateSlicerBody; repeat' split
  all_goals simp
@[simp] theorem updateSlicerBody_edge (v : Slicer) (s : State) : (updateSlicerBody v s).edge = s.edge := by
  unfold updateSlicerBody; repeat' split
  all_goals simp
@[simp] theorem updateSlicerBody_poll (v : Slicer) (s : State) : (updateSlicerBody v s).poll = s.poll := by
  unfold updateSlicerBody; repeat' split
  all_goals simp
@[simp] theorem updateSlicerBody_cfgSh (v : Slicer) (s : State) : (updateSlicerBody v s).cfgSh = s.cfgSh := by
  unfold updateSlicerBody; repeat' split
  all_goals simp
@[simp] theorem updateSlicerBody_cfg (v : Slicer) (s : State) : (updateSlicerBody v s).cfg = s.cfg := by
  unfold updateSlicerBody; repeat' split
  all_goals simp
@[simp] theorem updateSlicerBody_radio (v : Slicer) (s : State) : (updateSlicerBody v s).radio = s.radio := by
  unfold updateSlicerBody; repeat' split
  all_goals simp
@[simp] theorem updateSlicerBody_pins (v : Slicer) (s : State) : (updateSlicerBody v s).pins = s.pins := by
  unfold updateSlicerBody; repeat' split
  all_goals simp
@[simp] theorem updateSlicerBody_tx (v : Slicer) (s : State) : (updateSlicerBody v s).tx = s.tx := by
  unfold updateSlicerBody; repeat' split
  all_goals simp
@[simp] theorem updateSlicerBody_now (v : Slicer) (s : State) : (updateSlicerBody v s).now = s.now := by
  unfold updateSlicerBody; repeat' split
  all_goals simp
@[simp] theorem updateSlicerBody_trace (v : Slicer) (s : State) : (updateSlicerBody v s).trace = s.trace := by
  unfold updateSlicerBody; repeat' split
  all_goals simp
@[simp] theorem updateSlicerBody_reads (v : Slicer) (s : State) : (updateSlicerBody v s).reads = s.reads := by
  unfold updateSlicerBody; repeat' split
  all_goals simp
@[simp] theorem updateSlicerBody_env (v : Slicer) (s : State) : (updateSlicerBody v s).env = s.env := by
  unfold updateSlicerBody; repeat' split
  all_goals simp

@[simp] theorem scanBody_build (s : State) : (scanBody s).build = s.build := by
  unfold scanBody; split <;> rfl
@[simp] theorem scanBody_mem (s : State) : (scanBody s).mem = s.mem := by
  unfold scanBody; split <;> rfl
@[simp] theorem scanBody_buf (s : State) : (scanBody s).buf = s.buf := by
  unfold scanBody; split <;> rfl
@[simp] theorem scanBody_cap (s : State) : (scanBody s).cap = s.cap := by
  unfold scanBody; split <;> rfl
@[simp] theorem scanBody_edge (s : State) : (scanBody s).edge = s.edge := by
  unfold scanBody; split <;> rfl
@[simp] theorem scanBody_cfgSh (s : State) : (scanBody s).cfgSh = s.cfgSh := by
  unfold scanBody; split <;> rfl
@[simp] theorem scanBody_cfg (s : State) : (scanBody s).cfg = s.cfg := by
  unfold scanBody; split <;> rfl
@[simp] theorem scanBody_radio (s : State) : (scanBody s).radio = s.radio := by
  unfold scanBody; split <;> rfl
@[simp] theorem scanBody_pins (s : State) : (scanBody s).pins = s.pins := by
  unfold scanBody; split <;> rfl
@[simp] theorem scanBody_tx (s : State) : (scanBody s).tx = s.tx := by
  unfold scanBody; split <;> rfl
@[simp] theorem scanBody_errs (s : State) : (scanBody s).errs = s.errs := by
  unfold scanBody; split <;> rfl
@[simp] theorem scanBody_ints (s : State) : (scanBody s).ints = s.ints := by
  unfold scanBody; split <;> rfl
@[simp] theorem scanBody_now (s : State) : (scanBody s).now = s.now := by
  unfold scanBody; split <;> rfl
@[simp] theorem scanBody_trace (s : State) : (scanBody s).trace = s.trace := by
  unfold scanBody; split <;> rfl
@[simp] theorem scanBody_reads (s : State) : (scanBody s).reads = s.reads := by
  unfold scanBody; split <;> rfl
@[simp] theorem scanBody_env (s : State) : (scanBody s).env = s.env := by
  unfold scanBody; split <;> rfl

@[simp] theorem txFinish_build (s : State) : (txFinish s).build = s.build := rfl
@[simp] theorem txFinish_mem (s : State) : (txFinish s).mem = s.mem := rfl
@[simp] theorem txFinish_buf (s : State) : (txFinish s).buf = s.buf := rfl
@[simp] theorem txFinish_cap (s : State) : (txFinish s).cap = s.cap := rfl
@[simp] theorem txFinish_edge (s : State) : (txFinish s).edge = s.edge := rfl
@[simp] theorem txFinish_poll (s : State) : (txFinish s).poll = s.poll := rfl
@[simp] theorem txFinish_cfgSh (s : State) : (txFinish s).cfgSh = s.cfgSh := rfl
@[simp] theorem txFinish_cfg (s : State) : (txFinish s).cfg = s.cfg := rfl
@[simp] theorem txFinish_radio (s : State) : (txFinish s).radio = s.radio := rfl
@[simp] theorem txFinish_pins (s : State) : (txFinish s).pins = s.pins := rfl
@[simp] theorem txFinish_errs (s : State) : (txFinish s).errs = s.errs := rfl
@[simp] theorem txFinish_now (s : State) : (txFinish s).now = s.now := rfl
@[simp] theorem txFinish_trace (s : State) : (txFinish s).trace = s.trace := rfl
@[simp] theorem txFinish_reads (s : State) : (txFinish s).reads = s.reads := rfl
@[simp] theorem txFinish_env (s : State) : (txFinish s).env = s.env := rfl

@[simp] theorem txRelease_build (s : State) : (txRelease s).build = s.build := by
  unfold txRelease; split <;> simp
@[simp] theorem txRelease_mem (s : State) : (txRelease s).mem = s.mem := by
  unfold txRelease; split <;> simp
@[simp] theorem txRelease_buf (s : State) : (txRelease s).buf = s.buf := by
  unfold txRelease; split <;> simp
@[simp] theorem txRelease_cap (s : State) : (txRelease s).cap = s.cap := by
  unfold txRelease; split <;> simp
@[simp] theorem txRelease_edge (s : State) : (txRelease s).edge = s.edge := by
  unfold txRelease; split <;> simp
@[simp] theorem txRelease_poll (s : State) : (txRelease s).poll = s.poll := by
  unfold txRelease; split <;> simp
@[simp] theorem txRelease_cfgSh (s : State) : (txRelease s).cfgSh = s.cfgSh := by
  unfold txRelease; split <;> simp
@[simp] theorem txRelease_cfg (s : State) : (txRelease s).cfg = s.cfg := by
  unfold txRelease; split <;> simp
@[simp] theorem txRelease_errs (s : State) : (txRelease s).errs = s.errs := by
  unfold txRelease; split <;> simp
@[simp] theorem txRelease_now (s : State) : (txRelease s).now = s.now := by
  unfold txRelease; split <;> simp
@[simp] theorem txRelease_reads (s : State) : (txRelease s).reads = s.reads := by
  unfold txRelease; split <;> simp
@[simp] theorem txRelease_env (s : State) : (txRelease s).env = s.env := by
  unfold txRelease; split <;> simp

@[simp] theorem nextTransmission_build (s : State) : (nextTransmission s).build = s.build := rfl
@[simp] theorem nextTransmission_mem (s : State) : (nextTransmission s).mem = s.mem := rfl
@[simp] theorem nextTransmission_buf (s : State) : (nextTransmission s).buf = s.buf := rfl
@[simp] theorem nextTransmission_cap (s : State) : (nextTransmission s).cap = s.cap := rfl
@[simp] theorem nextTransmission_edge (s : State) : (nextTransmission s).edge = s.edge := rfl
@[simp] theorem nextTransmission_poll (s : State) : (nextTransmission s).poll = s.poll := rfl
@[simp] theorem nextTransmission_cfgSh (s : State) : (nextTransmission s).cfgSh = s.cfgSh := rfl
@[simp] theorem nextTransmission_cfg (s : State) : (nextTransmission s).cfg = s.cfg := rfl
@[simp] theorem nextTransmission_radio (s : State) : (nextTransmission s).radio = s.radio := rfl
@[simp] theorem nextTransmission_pins (s : State) : (nextTransmission s).pins = s.pins := rfl
@[simp] theorem nextTransmission_errs (s : State) : (nextTransmission s).errs = s.errs := rfl
@[simp] theorem nextTransmission_ints (s : State) : (nextTransmission s).ints = s.ints := rfl
@[simp] theorem nextTransmission_now (s : State) : (nextTransmission s).now = s.now := rfl
@[simp] theorem nextTransmission_trace (s : State) : (nextTransmission s).trace = s.trace := rfl
@[simp] theorem nextTransmission_reads (s : State) : (nextTransmission s).reads = s.reads := rfl
@[simp] theorem nextTransmission_env (s : State) : (nextTransmission s).env = s.env := rfl

@[simp] theorem endTick_build (s : State) : (endTick s).build = s.build := rfl
@[simp] theorem endTick_mem (s : State) : (endTick s).mem = s.mem := rfl
@[simp] theorem endTick_buf (s : State) : (endTick s).buf = s.buf := rfl
@[simp] theorem endTick_cap (s : State) : (endTick s).cap = s.cap := rfl
@[simp] theorem endTick_edge (s : State) : (endTick s).edge = s.edge := rfl
@[simp] theorem endTick_poll (s : State) : (endTick s).poll = s.poll := rfl
@[simp] theorem endTick_cfgSh (s : State) : (endTick s).cfgSh = s.cfgSh := rfl
@[simp] theorem endTick_cfg (s : State) : (endTick s).cfg = s.cfg := rfl
@[simp] theorem endTick_radio (s : State) : (endTick s).radio = s.radio := rfl
@[simp] theorem endTick_pins (s : State) : (endTick s).pins = s.pins := rfl
@[simp] theorem endTick_tx (s : State) : (endTick s).tx = s.tx := rfl
@[simp] theorem endTick_errs (s : State) : (endTick s).errs = s.errs := rfl
@[simp] theorem endTick_trace (s : State) : (endTick s).trace = s.trace := rfl
@[simp] theorem endTick_reads (s : State) : (endTick s).reads = s.reads := rfl
@[simp] theorem endTick_env (s : State) : (endTick s).env = s.env := rfl

@[simp] theorem sampleInputs_build (t : TickInput) (s : State) : (sampleInputs t s).build = s.build := rfl
@[simp] theorem sampleInputs_mem (t : TickInput) (s : State) : (sampleInputs t s).mem = s.mem := rfl
@[simp] theorem sampleInputs_buf (t : TickInput) (s : State) : (sampleInputs t s).buf = s.buf := rfl
@[simp] theorem sampleInputs_cap (t : TickInput) (s : State) : (sampleInputs t s).cap = s.cap := rfl
@[simp] theorem sampleInputs_edge (t : TickInput) (s : State) : (sampleInputs t s).edge = s.edge := rfl
@[simp] theorem sampleInputs_poll (t : TickInput) (s : State) : (sampleInputs t s).poll = s.poll := rfl
@[simp] theorem sampleInputs_cfgSh (t : TickInput) (s : State) : (sampleInputs t s).cfgSh = s.cfgSh := rfl
@[simp] theorem sampleInputs_cfg (t : TickInput) (s : State) : (sampleInputs t s).cfg = s.cfg := rfl
@[simp] theorem sampleInputs_radio (t : TickInput) (s : State) : (sampleInputs t s).radio = s.radio := rfl
@[simp] theorem sampleInputs_pins (t : TickInput) (s : State) : (sampleInputs t s).pins = s.pins := rfl
@[simp] theorem sampleInputs_tx (t : TickInput) (s : State) : (sampleInputs t s).tx = s.tx := rfl
@[simp] theorem sampleInputs_errs (t : TickInput) (s : State) : (sampleInputs t s).errs = s.errs := rfl
@[simp] theorem sampleInputs_ints (t : TickInput) (s : State) : (sampleInputs t s).ints = s.ints := rfl
@[simp] theorem sampleInputs_now (t : TickInput) (s : State) : (sampleInputs t s).now = s.now := rfl
@[simp] theorem sampleInputs_trace (t : TickInput) (s : State) : (sampleInputs t s).trace = s.trace := rfl
@[simp] theorem sampleInputs_reads (t : TickInput) (s : State) : (sampleInputs t s).reads = s.reads := rfl

@[simp] theorem takeInput_build (s : State) : (takeInput s).build = s.build := rfl
@[simp] theorem takeInput_mem (s : State) : (takeInput s).mem = s.mem := rfl
@[simp] theorem takeInput_buf (s : State) : (takeInput s).buf = s.buf := rfl
@[simp] theorem takeInput_cap (s : State) : (takeInput s).cap = s.cap := rfl
@[simp] theorem takeInput_edge (s : State) : (takeInput s).edge = s.edge := rfl
@[simp] theorem takeInput_poll (s : State) : (takeInput s).poll = s.poll := rfl
@[simp] theorem takeInput_cfgSh (s : State) : (takeInput s).cfgSh = s.cfgSh := rfl
@[simp] theorem takeInput_cfg (s : State) : (takeInput s).cfg = s.cfg := rfl
@[simp] theorem takeInput_radio (s : State) : (takeInput s).radio = s.radio := rfl
@[simp] theorem takeInput_pins (s : State) : (takeInput s).pins = s.pins := rfl
@[simp] theorem takeInput_tx (s : State) : (takeInput s).tx = s.tx := rfl
@[simp] theorem takeInput_errs (s : State) : (takeInput s).errs = s.errs := rfl
@[simp] theorem takeInput_ints (s : State) : (takeInput s).ints = s.ints := rfl
@[simp] theorem takeInput_now (s : State) : (takeInput s).now = s.now := rfl
@[simp] theorem takeInput_trace (s : State) : (takeInput s).trace = s.trace := rfl
@[simp] theorem takeInput_reads (s : State) : (takeInput s).reads = s.reads := rfl

@[simp] theorem rejectTxn_build (h : BusTxn) (s : State) : (rejectTxn h s).build = s.build := by
  unfold rejectTxn; split <;> simp
@[simp] theorem rejectTxn_mem (h : BusTxn) (s : State) : (rejectTxn h s).mem = s.mem := by
  unfold rejectTxn; split <;> simp
@[simp] theorem rejectTxn_buf (h : BusTxn) (s : State) : (rejectTxn h s).buf = s.buf := by
  unfold rejectTxn; split <;> simp
@[simp] theorem rejectTxn_cap (h : BusTxn) (s : State) : (rejectTxn h s).cap = s.cap := by
  unfold rejectTxn; split <;> simp
@[simp] theorem rejectTxn_edge (h : BusTxn) (s : State) : (rejectTxn h s).edge = s.edge := by
  unfold rejectTxn; split <;> simp
@[simp] theorem rejectTxn_poll (h : BusTxn) (s : State) : (rejectTxn h s).poll = s.poll := by
  unfold rejectTxn; split <;> simp
@[simp] theorem rejectTxn_cfgSh (h : BusTxn) (s : State) : (rejectTxn h s).cfgSh = s.cfgSh := by
  unfold rejectTxn; split <;> simp
@[simp] theorem rejectTxn_cfg (h : BusTxn) (s : State) : (rejectTxn h s).cfg = s.cfg := by
  unfold rejectTxn; split <;> simp
@[simp] theorem rejectTxn_radio (h : BusTxn) (s : State) : (rejectTxn h s).radio = s.radio := by
  unfold rejectTxn; split <;> simp
@[simp] theorem rejectTxn_pins (h : BusTxn) (s : State) : (rejectTxn h s).pins = s.pins := by
  unfold rejectTxn; split <;> simp
@[simp] theorem rejectTxn_tx (h : BusTxn) (s : State) : (rejectTxn h s).tx = s.tx := by
  unfold rejectTxn; split <;> simp
@[simp] theorem rejectTxn_now (h : BusTxn) (s : State) : (rejectTxn h s).now = s.now := by
  unfold rejectTxn; split <;> simp
@[simp] theorem rejectTxn_trace (h : BusTxn) (s : State) : (rejectTxn h s).trace = s.trace := by
  unfold rejectTxn; split <;> simp
@[simp] theorem rejectTxn_env (h : BusTxn) (s : State) : (rejectTxn h s).env = s.env := by
  unfold rejectTxn; split <;> simp

/-! ### What the updates of errors and interrupts write -/

@[simp] theorem setPending_ints (k : Nat) (s : State) :
    (setPending k s).ints = { s.ints with pending := s.ints.pending ||| (1#4 <<< k) } := rfl

@[simp] theorem raiseErr_errs (c : ErrCause) (a : Offset) (d : Word) (s : State) :
    (raiseErr c a d s).errs =
      { flags := s.errs.flags ||| (1#7 <<< c.code), cause := BitVec.ofNat 4 c.code, addr := a, data := d } := rfl

@[simp] theorem raiseErr_ints (c : ErrCause) (a : Offset) (d : Word) (s : State) :
    (raiseErr c a d s).ints = { s.ints with pending := s.ints.pending ||| 8#4 } := rfl

@[simp] theorem raiseFatal_errs (a : Offset) (d : Word) (s : State) :
    (raiseFatal a d s).errs = { flags := s.errs.flags ||| 64#7, cause := 6#4, addr := a, data := d } := rfl

@[simp] theorem raiseFatal_ints (a : Offset) (d : Word) (s : State) :
    (raiseFatal a d s).ints = { s.ints with pending := s.ints.pending ||| 8#4 } := rfl

@[simp] theorem rejectCmd_errs (c : ErrCause) (w : Word) (s : State) :
    (rejectCmd c w s).errs =
      { flags := s.errs.flags ||| (1#7 <<< c.code), cause := BitVec.ofNat 4 c.code, addr := 0x028#14, data := w } := rfl

@[simp] theorem rejectCmd_ints (c : ErrCause) (w : Word) (s : State) :
    (rejectCmd c w s).ints = { s.ints with pending := s.ints.pending ||| 8#4 } := rfl

/-! ### What the updates of the radio write -/

@[simp] theorem radioStart_radio (m : RadioMode) (o : Origin) (s : State) :
    (radioStart m o s).radio =
      { mode := s.radio.mode, busy := true, target := m, step := .first, wait := s.build.settleUs, origin := o } := by
  simp [radioStart]

@[simp] theorem radioComplete_radio (s : State) :
    (radioComplete s).radio =
      { s.radio with mode := s.radio.target, busy := false, step := .none, wait := 0#32 } := by
  simp [radioComplete]

@[simp] theorem radioSecondStep_radio (s : State) :
    (radioSecondStep s).radio = { s.radio with step := .second, wait := s.build.settleUs } := by
  simp [radioSecondStep]

/-! ### What the other updates write -/

@[simp] theorem drivePin_pins (p : Pin) (b : Bool) (s : State) : (drivePin p b s).pins = s.pins.drive p b := rfl

@[simp] theorem drivePin_trace (p : Pin) (b : Bool) (s : State) :
    (drivePin p b s).trace = s.trace ++ [{ tick := s.now, pin := p, level := b }] := rfl

@[simp] theorem sampleEdge_edge (s : State) :
    (sampleEdge s).edge = { rxPrev := s.env.rxIn, rxPrevValid := true } := rfl

@[simp] theorem endTick_now (s : State) : (endTick s).now = s.now + 1#32 := rfl

@[simp] theorem endTick_ints (s : State) : (endTick s).ints = { s.ints with irq := irqLevel s } := rfl

@[simp] theorem returnRead_reads (o : Offset) (v : Word) (s : State) :
    (returnRead o v s).reads = s.reads ++ [{ tick := s.now, offset := o, value := v }] := rfl

@[simp] theorem nextTransmission_tx (s : State) :
    (nextTransmission s).tx = { s.tx with rep := s.tx.rep + 1#16, idx := 1#16 } := rfl

@[simp] theorem txFinish_tx (s : State) :
    (txFinish s).tx = { s.tx with phase := .idle, rep := 0#16, idx := 0#16, wait := 0#32 } := rfl

end Sys2Proof.Machine
end

