-- ==== Sys2Proof/Laws/Outcome.lean ====
section
/-!
SUPPORT. What the shared operations that answer an outcome can do: one lemma each.
-/
namespace Sys2Proof.Machine

@[simp] theorem andThen_next (s : State) (f : State → Out) : andThen (.next s) f = f s := rfl

@[simp] theorem andThen_fault (r : Fault) (f : State → Out) : andThen (.fault r) f = .fault r := rfl

@[simp] theorem andThen_refused (r : Refusal) (f : State → Out) : andThen (.refused r) f = .refused r := rfl

/-- A sequence answers next exactly if both parts do. -/
theorem andThen_eq_next {o : Out} {f : State → Out} {t : State} :
    andThen o f = .next t ↔ ∃ s, o = .next s ∧ f s = .next t := by
  cases o <;> simp

theorem andThen_assoc (o : Out) (f g : State → Out) :
    andThen (andThen o f) g = andThen o (fun s => andThen (f s) g) := by
  cases o <;> rfl

/-- A word is written exactly at an index the buffer has. -/
theorem setPulse_eq_next {i : Nat} {v : Half} {s t : State} :
    setPulse i v s = .next t ↔ i ≤ s.build.capacity ∧ { s with mem := s.mem.writePulse i v } = t := by
  unfold setPulse; split <;> simp_all

/-- A command runs, or under FATAL is recorded as rejected. -/
theorem unlessFatal_eq (w : Word) (run : State → Out) (s : State) :
    unlessFatal w run s = if fatalLocked s = true then .next (rejectCmd .cmdRejected w s) else run s := rfl

/-- A gated write runs while Q holds and the value is legal, or is recorded as rejected. -/
theorem gatedWrite_eq_next {o : Offset} {d : Word} {legal : Bool} {run : State → Out} {s t : State}
    (h : gatedWrite o d legal run s = .next t) :
    (quiescent s = true ∧ legal = true ∧ run s = .next t) ∨ t = raiseErr .writeRejected o d s := by
  unfold gatedWrite at h
  split at h
  · rename_i hq; simp only [Bool.and_eq_true] at hq; exact .inl ⟨hq.1, hq.2, h⟩
  · simp only [Host.Outcome.next.injEq] at h; exact .inr h.symm

/-- An edge row runs its rule on the sampled state where its condition holds, and changes nothing elsewhere. -/
theorem edgeRow_eq_next {c : CapState} {long : Bool} {run : State → Out} {s t : State}
    (h : edgeRow c long run s = .next t) :
    (edgeObserved s = true ∧ s.cap.state = c ∧ longInterval s = long ∧ run (sampleEdge s) = .next t) ∨ t = s := by
  unfold edgeRow at h
  split at h
  · rename_i hc
    simp only [Bool.and_eq_true, decide_eq_true_eq, beq_iff_eq] at hc
    exact .inl ⟨hc.1.1, hc.1.2, hc.2, h⟩
  · simp only [Host.Outcome.next.injEq] at h; exact .inr h.symm

/-- A pulse is stored at the next index, scaled, exactly if the buffer has that index. -/
theorem storePulse_eq_next {w : Word} {s t : State} :
    storePulse w s = .next t ↔
      s.buf.pulseCount.toNat + 1 ≤ s.build.capacity ∧
        { s with
          buf := { s.buf with pulseCount := s.buf.pulseCount + 1#16 }
          mem := s.mem.writePulse (s.buf.pulseCount.toNat + 1) (scaledWidth s.cfg.sampleRate w) } = t := by
  unfold storePulse; rw [setPulse_eq_next]

end Sys2Proof.Machine
end

