-- ==== Sys2Proof/Laws/Invariant.lean ====
section
/-!
SUPPORT. What the shared operations of the radio, the TX engine and the capture engine do to the invariants of
Safety.lean.
-/
namespace Sys2Proof.Machine

/-! ### Groups the invariants read -/

theorem inCapture_congr {s t : State} (h : t.cap = s.cap) : inCapture t = inCapture s := by simp [inCapture, h]

theorem txBusy_congr {s t : State} (h : t.tx = s.tx) : txBusy t = txBusy s := by simp [txBusy, h]

theorem BufferInv.of_eq {s t : State} (h : BufferInv s) (hb : t.build = s.build) (hm : t.mem = s.mem)
    (hc : t.buf.pulseCount = s.buf.pulseCount) : BufferInv t :=
  ⟨by rw [hb]; exact h.build, by rw [hm]; exact h.canonical, by rw [hb, hm]; exact h.range,
    by rw [hb, hc]; exact h.count⟩

theorem ConfigInv.of_eq {s t : State} (h : ConfigInv s) (hb : t.build = s.build) (hsh : t.cfgSh = s.cfgSh)
    (hc : t.cfg = s.cfg) (hs : t.cap.slicer = s.cap.slicer) : ConfigInv t :=
  ⟨by rw [hb, hc]; exact h.valid, by rw [hb, hsh]; exact h.shadowGap, by rw [hb, hc]; exact h.activeGap,
    by rw [hs]; exact h.slicer⟩

theorem CaptureInv.of_eq {s t : State} (h : CaptureInv s) (hb : t.build = s.build) (hk : t.cap = s.cap)
    (hn : t.buf.pulseCount = s.buf.pulseCount) (hT : t.cfg.signalEndTimeoutUs = s.cfg.signalEndTimeoutUs) :
    CaptureInv t := by
  refine ⟨?_, ?_, ?_, ?_, ?_⟩
  · rw [hk]; exact h.ready
  · rw [hk, inCapture_congr hk]; exact h.deadline
  · rw [hk, hn, hb]; exact h.room
  · rw [hk, hT]; exact h.silence
  · rw [hk, hT]; exact h.seek

theorem RadioInv.of_eq {s t : State} (h : RadioInv s) (hr : t.radio = s.radio) (hp : t.pins = s.pins) :
    RadioInv t :=
  ⟨by rw [hp]; exact h.exclusive, by rw [hr]; exact h.step, by rw [hr]; exact h.target, by rw [hr]; exact h.wait,
    by rw [hr, hp]; exact h.running, by rw [hr, hp]; exact h.still⟩

theorem TxInv.of_eq {s t : State} (h : TxInv s) (hx : t.tx = s.tx) (hr : t.radio = s.radio)
    (hk : inCapture t = inCapture s) (hn : t.buf.pulseCount = s.buf.pulseCount)
    (hN : t.buf.repeats = s.buf.repeats) : TxInv t := by
  have hbusy := txBusy_congr hx
  refine ⟨?_, ?_, ?_, ?_, ?_, ?_, ?_, ?_, ?_, ?_⟩
  · rw [hx, hr]; exact h.playing
  · rw [hbusy, hk]; exact h.noCapture
  · rw [hbusy, hx, hn, hN]; exact h.train
  · rw [hx, hn]; exact h.index
  · rw [hx, hN]; exact h.repetition
  · rw [hx, hN]; exact h.pause
  · rw [hx]; exact h.wait
  · rw [hx]; exact h.prior
  · rw [hx, hr]; exact h.acquire
  · rw [hx, hr]; exact h.release

/-- The invariants read only the build, the buffer's bytes and counts, the capture engine, the configuration, the radio
with its outputs, and the TX engine. -/
theorem PhaseInv.of_eq {s t : State} (h : PhaseInv s) (hb : t.build = s.build) (hm : t.mem = s.mem)
    (hn : t.buf.pulseCount = s.buf.pulseCount) (hN : t.buf.repeats = s.buf.repeats) (hk : t.cap = s.cap)
    (hsh : t.cfgSh = s.cfgSh) (hc : t.cfg = s.cfg) (hr : t.radio = s.radio) (hp : t.pins = s.pins)
    (hx : t.tx = s.tx) : PhaseInv t :=
  ⟨h.buffer.of_eq hb hm hn, h.config.of_eq hb hsh hc (by rw [hk]), h.capture.of_eq hb hk hn (by rw [hc]),
    h.radio.of_eq hr hp, h.tx.of_eq hx hr (inCapture_congr hk) hn hN⟩

theorem BlockInv.of_eq {s t : State} (h : BlockInv s) (hb : t.build = s.build) (hm : t.mem = s.mem)
    (hn : t.buf.pulseCount = s.buf.pulseCount) (hN : t.buf.repeats = s.buf.repeats) (hk : t.cap = s.cap)
    (hsh : t.cfgSh = s.cfgSh) (hc : t.cfg = s.cfg) (hr : t.radio = s.radio) (hp : t.pins = s.pins)
    (hx : t.tx = s.tx) : BlockInv t :=
  { h.toPhaseInv.of_eq hb hm hn hN hk hsh hc hr hp hx with waits := by rw [hx, hr]; exact h.waits }

/-! ### The radio -/

theorem settle_ne_zero {s : State} (h : s.build.wf = true) : s.build.settleUs ≠ 0#32 := by
  simp only [Build.wf, Bool.and_eq_true, decide_eq_true_eq] at h
  intro h0
  rw [h0] at h
  exact absurd h.1.1.2 (by decide)

theorem capacity_pos {s : State} (h : s.build.wf = true) : 1 ≤ s.build.capacity := by
  simp only [Build.wf, Bool.and_eq_true, decide_eq_true_eq] at h
  exact h.1.1.1.1

theorem capacity_le {s : State} (h : s.build.wf = true) : s.build.capacity ≤ 2047 := by
  simp only [Build.wf, Bool.and_eq_true, decide_eq_true_eq] at h
  exact h.1.1.1.2

/-- Starting a sequence from a still radio reaches the outputs of its step 1 (R111, R112). -/
theorem radioStart_radioInv {m : RadioMode} {o : Origin} {s : State} (hw : s.build.settleUs ≠ 0#32)
    (hm : m ≠ .unset) : RadioInv (radioStart m o s) := by
  refine ⟨?_, by simp, by simpa using hm, by simpa using hw, ?_, by simp⟩
  · cases m <;> simp_all [radioStart, stepOnePins, disableRx, disableTx, drivePins, drivePin, Pins.drive, Pins.exclusive]
  · cases m <;>
      simp_all [radioStart, stepOnePins, disableRx, disableTx, drivePins, drivePin, Pins.drive, Radio.sequencePins]

/-- The sequencer's step keeps the radio's invariant (R111, R113 to R115). -/
theorem radioAdvance_radioInv {s : State} (h : RadioInv s) (hw : s.build.settleUs ≠ 0#32) :
    RadioInv (radioAdvance s) := by
  obtain ⟨hex, hstep, htgt, hwait, hrun, hstill⟩ := h
  unfold radioAdvance
  split
  · rename_i hb
    have hrun := hrun hb
    split
    · split
      · rename_i hf
        refine ⟨?_, by simp [hb], by simpa using htgt, fun _ => by simpa using hw, ?_, by simp [hb]⟩
        · revert hrun
          cases ht : s.radio.target <;>
            simp_all [radioSecondStep, stepTwoPins, enableRx, enableTx, disableTx, drivePins, drivePin, Pins.drive,
              Pins.exclusive, Radio.sequencePins]
        · revert hrun
          cases ht : s.radio.target <;>
            simp_all [radioSecondStep, stepTwoPins, enableRx, enableTx, disableTx, drivePins, drivePin, Pins.drive,
              Radio.sequencePins, Pins.allLow]
      · rename_i hf
        refine ⟨by simpa using hex, by simp, by simpa using htgt, by simp, by simp, fun _ => ?_⟩
        have hs : s.radio.step ≠ .none := fun h => by simp [hb] at hstep; exact hstep h
        revert hrun
        cases ht : s.radio.target <;> cases hst : s.radio.step <;>
          simp_all [Radio.sequencePins, modePins]
    · rename_i hne
      exact ⟨hex, hstep, htgt, fun _ => hne, fun _ => hrun, fun h => absurd hb (by simp_all)⟩
  · exact ⟨hex, hstep, htgt, hwait, hrun, hstill⟩

end Sys2Proof.Machine
end

