-- ==== Sys2Proof/Laws/Replay.lean ====
section
/-!
SUPPORT. The TX engine: what its steps leave alone (TxFrame), and that from a state ready to play they answer next and
end in the invariant.
-/
namespace Sys2Proof.Machine

/-! ### The frame of the TX engine -/

/-- The TX engine writes only its own counters, the radio but for its mode, the outputs with the trace, and pending bits,
which it only sets. -/
structure TxFrame (s t : State) : Prop where
  build : t.build = s.build
  mem : t.mem = s.mem
  buf : t.buf = s.buf
  cap : t.cap = s.cap
  edge : t.edge = s.edge
  poll : t.poll = s.poll
  cfgSh : t.cfgSh = s.cfgSh
  cfg : t.cfg = s.cfg
  errs : t.errs = s.errs
  enable : t.ints.enable = s.ints.enable
  irq : t.ints.irq = s.ints.irq
  now : t.now = s.now
  reads : t.reads = s.reads
  env : t.env = s.env
  prior : t.tx.prior = s.tx.prior
  mode : t.radio.mode = s.radio.mode
  pending : ∀ k, s.ints.pending.getLsbD k = true → t.ints.pending.getLsbD k = true

theorem TxFrame.refl (s : State) : TxFrame s s :=
  ⟨rfl, rfl, rfl, rfl, rfl, rfl, rfl, rfl, rfl, rfl, rfl, rfl, rfl, rfl, rfl, rfl, fun _ h => h⟩

theorem TxFrame.trans {s t u : State} (h : TxFrame s t) (g : TxFrame t u) : TxFrame s u :=
  ⟨g.build.trans h.build, g.mem.trans h.mem, g.buf.trans h.buf, g.cap.trans h.cap, g.edge.trans h.edge,
    g.poll.trans h.poll, g.cfgSh.trans h.cfgSh, g.cfg.trans h.cfg, g.errs.trans h.errs, g.enable.trans h.enable,
    g.irq.trans h.irq, g.now.trans h.now, g.reads.trans h.reads, g.env.trans h.env, g.prior.trans h.prior,
    g.mode.trans h.mode, fun k hk => g.pending k (h.pending k hk)⟩

theorem setPending_pending {s : State} {k j : Nat} (h : s.ints.pending.getLsbD k = true) :
    (setPending j s).ints.pending.getLsbD k = true := by
  simp [setPending, h]

theorem txRelease_frame (s : State) : TxFrame s (txRelease s) := by
  unfold txRelease
  split
  · exact ⟨rfl, rfl, rfl, rfl, rfl, rfl, rfl, rfl, rfl, rfl, rfl, rfl, rfl, rfl, rfl, rfl, fun _ h => setPending_pending h⟩
  · constructor <;> simp

theorem beginPulse_eq_next {s t : State} :
    beginPulse s = .next t ↔
      s.tx.idx.toNat ≤ s.build.capacity ∧
        drivePin .txData (s.tx.idx.getLsbD 0) { s with tx := { s.tx with phase := .pulse, wait := segmentTicks s } } =
          t := by
  unfold beginPulse; split <;> simp_all

theorem beginPulse_frame {s t : State} (h : beginPulse s = .next t) : TxFrame s t := by
  obtain ⟨-, rfl⟩ := beginPulse_eq_next.1 h
  exact ⟨rfl, rfl, rfl, rfl, rfl, rfl, rfl, rfl, rfl, rfl, rfl, rfl, rfl, rfl, rfl, rfl, fun _ h => h⟩

theorem playPulses_frame {e : State → Out} (he : ∀ s t, e s = .next t → TxFrame s t) :
    ∀ (n : Nat) (s t : State), playPulses e n s = .next t → TxFrame s t := by
  intro n
  induction n with
  | zero =>
    intro s t h
    obtain ⟨u, hu, h⟩ := andThen_eq_next.1 h
    refine (beginPulse_frame hu).trans ?_
    split at h
    · exact he u t h
    · cases h; exact TxFrame.refl _
  | succ n ih =>
    intro s t h
    obtain ⟨u, hu, h⟩ := andThen_eq_next.1 h
    refine (beginPulse_frame hu).trans ?_
    split at h
    · exact TxFrame.trans (by constructor <;> first | rfl | exact fun _ h => h) (ih _ t h)
    · cases h; exact TxFrame.refl _

theorem endTransmission_frame : ∀ (n : Nat) (s t : State), endTransmission n s = .next t → TxFrame s t := by
  intro n
  induction n with
  | zero =>
    intro s t h
    cases h
    exact TxFrame.trans (by constructor <;> first | rfl | exact fun _ h => h) (txRelease_frame (drivePin .txData false s))
  | succ n ih =>
    intro s t h
    simp only [endTransmission] at h
    split at h
    · exact TxFrame.trans (by constructor <;> first | rfl | exact fun _ h => h) (playPulses_frame ih _ _ t h)
    · cases h; exact ⟨rfl, rfl, rfl, rfl, rfl, rfl, rfl, rfl, rfl, rfl, rfl, rfl, rfl, rfl, rfl, rfl, fun _ h => h⟩

theorem playTransmission_frame {s t : State} (h : playTransmission s = .next t) : TxFrame s t :=
  playPulses_frame (endTransmission_frame _) _ _ _ h

theorem startTrain_frame {s t : State} (h : startTrain s = .next t) : TxFrame s t := by
  unfold startTrain at h
  exact TxFrame.trans (by constructor <;> first | rfl | exact fun _ h => h) (playTransmission_frame h)

theorem advancePulse_frame {s t : State} (h : advancePulse s = .next t) : TxFrame s t := by
  unfold advancePulse at h
  split at h
  · exact TxFrame.trans (by constructor <;> first | rfl | exact fun _ h => h) (playTransmission_frame h)
  · exact endTransmission_frame _ _ _ h

theorem advanceGap_frame {s t : State} (h : advanceGap s = .next t) : TxFrame s t := by
  unfold advanceGap at h
  exact TxFrame.trans (by constructor <;> first | rfl | exact fun _ h => h) (playTransmission_frame h)

theorem countDown_frame {f : State → Out} (hf : ∀ s t, f s = .next t → TxFrame s t) {s t : State}
    (h : countDown f s = .next t) : TxFrame s t := by
  refine (⟨rfl, rfl, rfl, rfl, rfl, rfl, rfl, rfl, rfl, rfl, rfl, rfl, rfl, rfl, rfl, rfl, fun _ h => h⟩ : TxFrame s
    { s with tx := { s.tx with wait := s.tx.wait - 1#32 } }).trans ?_
  simp only [countDown] at h
  split at h
  · exact hf _ _ h
  · cases h; exact TxFrame.refl _

/-- The TX engine's step leaves everything alone but the groups TxFrame leaves out (R195). -/
theorem txAdvance_frame {s t : State} (h : txAdvance s = .next t) : TxFrame s t := by
  unfold txAdvance at h
  split at h
  · cases h; exact TxFrame.refl _
  · split at h
    · cases h; exact TxFrame.refl _
    · exact startTrain_frame h
  · exact countDown_frame (fun _ _ => advancePulse_frame) h
  · exact countDown_frame (fun _ _ => advanceGap_frame) h
  · split at h
    · cases h; exact TxFrame.refl _
    · cases h; exact ⟨rfl, rfl, rfl, rfl, rfl, rfl, rfl, rfl, rfl, rfl, rfl, rfl, rfl, rfl, rfl, rfl, fun _ h => setPending_pending h⟩

/-! ### Playing keeps the invariant -/

/-- A state from which a half-pulse may begin: the transmitter is on and still, no capture runs, and the counters are
in range (R21, R45, R59). -/
structure PlayReady (s : State) : Prop where
  buffer : BufferInv s
  config : ConfigInv s
  capture : CaptureInv s
  radio : RadioInv s
  mode : s.radio.mode = .tx
  still : s.radio.busy = false
  quiet : inCapture s = false
  repeats : 1 ≤ s.buf.repeats.toNat
  prior : s.tx.prior ≠ .unset
  idxLow : 1 ≤ s.tx.idx.toNat
  idxHigh : s.tx.idx.toNat ≤ s.buf.pulseCount.toNat
  repLow : 1 ≤ s.tx.rep.toNat
  repHigh : s.tx.rep.toNat ≤ s.buf.repeats.toNat

/-- A write of the data output and of the TX engine's counters keeps PlayReady while the counters stay in range. -/
theorem PlayReady.drive {s : State} (h : PlayReady s) (b : Bool) (x : TxEngine) (hp : x.prior = s.tx.prior)
    (h1 : 1 ≤ x.idx.toNat) (h2 : x.idx.toNat ≤ s.buf.pulseCount.toNat) (h3 : 1 ≤ x.rep.toNat)
    (h4 : x.rep.toNat ≤ s.buf.repeats.toNat) : PlayReady (drivePin .txData b { s with tx := x }) := by
  refine ⟨h.buffer.of_eq rfl rfl rfl, h.config.of_eq rfl rfl rfl rfl, h.capture.of_eq rfl rfl rfl rfl, ?_, h.mode,
    h.still, h.quiet, h.repeats, by rw [show (drivePin .txData b { s with tx := x }).tx = x from rfl, hp]; exact h.prior,
    h1, h2, h3, h4⟩
  refine ⟨h.radio.exclusive, h.radio.step, h.radio.target, h.radio.wait, fun hb => ?_, fun _ => ?_⟩
  · exact absurd hb (by simp [h.still])
  · have := h.radio.still h.still
    rw [h.mode] at this
    show modePins s.radio.mode _
    rw [h.mode]
    exact this

/-- Counters alone. -/
theorem PlayReady.counters {s : State} (h : PlayReady s) (x : TxEngine) (hp : x.prior = s.tx.prior)
    (h1 : 1 ≤ x.idx.toNat) (h2 : x.idx.toNat ≤ s.buf.pulseCount.toNat) (h3 : 1 ≤ x.rep.toNat)
    (h4 : x.rep.toNat ≤ s.buf.repeats.toNat) : PlayReady { s with tx := x } :=
  ⟨h.buffer.of_eq rfl rfl rfl, h.config.of_eq rfl rfl rfl rfl, h.capture.of_eq rfl rfl rfl rfl,
    h.radio.of_eq rfl rfl, h.mode, h.still, h.quiet, h.repeats, by simpa [hp] using h.prior, h1, h2, h3, h4⟩

/-- A segment that runs: half-pulse or pause, with time left. -/
theorem PlayReady.inv {s : State} (h : PlayReady s) (hw : s.tx.wait ≠ 0#32)
    (hp : s.tx.phase = .pulse ∨ s.tx.phase = .gap ∧ s.tx.rep.toNat < s.buf.repeats.toNat) : BlockInv s := by
  have hplay : s.tx.phase = .pulse ∨ s.tx.phase = .gap := hp.imp_right And.left
  refine
    { buffer := h.buffer, config := h.config, capture := h.capture, radio := h.radio, tx := ?_, waits := ?_ }
  · refine ⟨fun _ => ⟨h.mode, h.still⟩, fun _ => h.quiet, fun _ _ => ⟨h.idxLow.trans h.idxHigh, h.repeats⟩,
      fun _ => ⟨h.idxLow, h.idxHigh⟩, fun _ => ⟨h.repLow, h.repHigh⟩, fun hg => ?_, fun _ => hw, h.prior,
      fun ha => ?_, fun hr => ?_⟩
    · rcases hp with hp | hp
      · simp [hp] at hg
      · exact hp.2
    · rcases hplay with hp | hp <;> simp [hp] at ha
    · rcases hplay with hp | hp <;> simp [hp] at hr
  · rintro (ha | ha) <;> rcases hplay with hp | hp <;> simp [hp] at ha

/-- The release of a finished train ends in the invariant (R196). -/
theorem PlayReady.release {s : State} (h : PlayReady s) : BlockInv (txRelease s) := by
  unfold txRelease
  split
  · rename_i hprior
    refine
      { buffer := h.buffer.of_eq rfl rfl rfl, config := h.config.of_eq rfl rfl rfl rfl
        capture := h.capture.of_eq rfl rfl rfl rfl, radio := h.radio.of_eq rfl rfl, tx := ?_, waits := ?_ }
    · exact ⟨by simp, by simp [txBusy], by simp [txBusy], by simp, by simp, by simp, by simp, by simpa using h.prior,
        by simp, by simp⟩
    · simp
  · rename_i hprior
    have hs := settle_ne_zero h.buffer.build
    refine
      { buffer := h.buffer.of_eq (by simp) (by simp) (by simp)
        config := h.config.of_eq (by simp) (by simp) (by simp) (by simp)
        capture := h.capture.of_eq (by simp) (by simp) (by simp) (by simp)
        radio := radioStart_radioInv hs h.prior, tx := ?_, waits := by simp }
    refine ⟨by simp, fun _ => ?_, by simp, by simp, by simp, by simp, by simp, by simpa using h.prior, by simp, ?_⟩
    · exact (inCapture_congr (by simp)).trans h.quiet
    · simp [hprior]

/-- Playing the rest of a transmission answers next and ends in the invariant, if the end of a transmission does. -/
theorem playPulses_inv {e : State → Out} {r : Nat}
    (he : ∀ s, PlayReady s → repeatsLeft s = r → ∃ t, e s = .next t ∧ BlockInv t) :
    ∀ (n : Nat) (s : State), PlayReady s → repeatsLeft s = r → pulsesLeft s = n →
      ∃ t, playPulses e n s = .next t ∧ BlockInv t := by
  have hbegin : ∀ s, PlayReady s → ∃ u, beginPulse s = .next u ∧ PlayReady u ∧ u.tx.phase = .pulse ∧
      u.tx.idx = s.tx.idx ∧ u.tx.rep = s.tx.rep ∧ u.buf = s.buf := fun s h =>
    ⟨_, beginPulse_eq_next.2 ⟨h.idxHigh.trans h.buffer.count, rfl⟩,
      h.drive _ _ rfl h.idxLow h.idxHigh h.repLow h.repHigh, rfl, rfl, rfl, rfl⟩
  intro n
  induction n with
  | zero =>
    intro s h hr _
    obtain ⟨u, hu, hready, hph, _, hrep, hbuf⟩ := hbegin s h
    simp only [playPulses, hu, andThen_next]
    split
    · exact he u hready (by simpa [repeatsLeft, hrep, hbuf] using hr)
    · rename_i hw; exact ⟨u, rfl, hready.inv hw (.inl hph)⟩
  | succ n ih =>
    intro s h hr hn
    obtain ⟨u, hu, hready, hph, hidx, hrep, hbuf⟩ := hbegin s h
    simp only [playPulses, hu, andThen_next]
    split
    · have hlt : s.tx.idx.toNat < s.buf.pulseCount.toNat := by simp only [pulsesLeft] at hn; omega
      have hb := s.buf.pulseCount.isLt
      have hnext : (u.tx.idx + 1#16).toNat = s.tx.idx.toNat + 1 := by
        rw [hidx, BitVec.toNat_add, show (1#16).toNat = 1 from rfl]; omega
      refine ih _ (hready.counters _ rfl ?_ ?_ hready.repLow hready.repHigh) ?_ ?_
      · simp only [hnext]; omega
      · simp only [hnext, hbuf]; omega
      · simpa [repeatsLeft, hrep, hbuf] using hr
      · simp only [pulsesLeft, hnext, hbuf] at hn ⊢; omega
    · rename_i hw; exact ⟨u, rfl, hready.inv hw (.inl hph)⟩

/-- The end of a transmission answers next and ends in the invariant. -/
theorem endTransmission_inv :
    ∀ (n : Nat) (s : State), PlayReady s → repeatsLeft s = n → ∃ t, endTransmission n s = .next t ∧ BlockInv t := by
  intro n
  induction n with
  | zero =>
    intro s h _
    exact ⟨_, rfl, (h.drive false s.tx rfl h.idxLow h.idxHigh h.repLow h.repHigh).release⟩
  | succ n ih =>
    intro s h hn
    have hlt : s.tx.rep.toNat < s.buf.repeats.toNat := by simp only [repeatsLeft] at hn; omega
    have hb := s.buf.repeats.isLt
    have hnext : (s.tx.rep + 1#16).toNat = s.tx.rep.toNat + 1 := by
      rw [BitVec.toNat_add, show (1#16).toNat = 1 from rfl]; omega
    have hd := h.drive false s.tx rfl h.idxLow h.idxHigh h.repLow h.repHigh
    simp only [endTransmission]
    split
    · refine playPulses_inv ih _ _ (hd.counters _ rfl ?_ ?_ ?_ ?_) ?_ rfl
      · simp
      · have := h.idxLow.trans h.idxHigh; simpa using this
      · simp only [drivePin_tx, hnext]; omega
      · simp only [drivePin_tx, drivePin_buf, hnext]; omega
      · simp only [repeatsLeft, nextTransmission_tx, nextTransmission_buf, drivePin_tx, drivePin_buf, hnext] at hn ⊢
        omega
    · rename_i hw
      have hg := hd.counters { s.tx with phase := .gap, wait := pauseTicks (drivePin .txData false s) } rfl
        h.idxLow h.idxHigh h.repLow h.repHigh
      exact ⟨_, rfl, hg.inv hw (.inr ⟨rfl, hlt⟩)⟩

theorem playTransmission_inv {s : State} (h : PlayReady s) : ∃ t, playTransmission s = .next t ∧ BlockInv t :=
  playPulses_inv (fun s h hr => endTransmission_inv _ s h hr) _ _ h rfl rfl

/-- The TX engine's step answers next and ends in the invariant of the end of a tick (R59, R195). -/
theorem txAdvance_inv {s : State} (h : PhaseInv s) : ∃ t, txAdvance s = .next t ∧ BlockInv t := by
  have hready : ∀ (x : TxEngine), x.prior = s.tx.prior → s.radio.mode = .tx → s.radio.busy = false →
      txBusy s = true → s.tx.phase ≠ .release → 1 ≤ x.idx.toNat → x.idx.toNat ≤ s.buf.pulseCount.toNat →
      1 ≤ x.rep.toNat → x.rep.toNat ≤ s.buf.repeats.toNat → PlayReady { s with tx := x } :=
    fun x hx hm hb hbusy hrel h1 h2 h3 h4 =>
      ⟨h.buffer.of_eq rfl rfl rfl, h.config.of_eq rfl rfl rfl rfl, h.capture.of_eq rfl rfl rfl rfl,
        h.radio.of_eq rfl rfl, hm, hb, h.tx.noCapture hbusy, (h.tx.train hbusy hrel).2, by simpa [hx] using h.tx.prior,
        h1, h2, h3, h4⟩
  unfold txAdvance
  cases hph : s.tx.phase with
  | idle => exact ⟨s, rfl, { h with waits := by simp [hph] }⟩
  | acquire =>
    have hbusy : txBusy s = true := by simp [txBusy, hph]
    have ht := h.tx.train hbusy (by simp [hph])
    simp only
    split
    · rename_i hb; exact ⟨s, rfl, { h with waits := fun _ => hb }⟩
    · rename_i hb
      have hb : s.radio.busy = false := by simpa using hb
      exact playTransmission_inv (hready _ rfl ((h.tx.acquire hph).2 hb) hb hbusy (by simp [hph])
        (by simp) (by simpa using ht.1) (by simp) (by simpa using ht.2))
  | pulse =>
    have hbusy : txBusy s = true := by simp [txBusy, hph]
    obtain ⟨hm, hb⟩ := h.tx.playing (.inl hph)
    obtain ⟨i1, i2⟩ := h.tx.index hph
    obtain ⟨r1, r2⟩ := h.tx.repetition (.inl hph)
    have hr := hready { s.tx with wait := s.tx.wait - 1#32 } rfl hm hb hbusy (by simp [hph]) i1 i2 r1 r2
    simp only [countDown]
    split
    · simp only [advancePulse]
      split
      · rename_i hlt
        have hlt : s.tx.idx.toNat < s.buf.pulseCount.toNat := hlt
        have hc := s.buf.pulseCount.isLt
        have hnext : (s.tx.idx + 1#16).toNat = s.tx.idx.toNat + 1 := by
          rw [BitVec.toNat_add, show (1#16).toNat = 1 from rfl]; omega
        exact playTransmission_inv (hr.counters _ rfl (by simp only [hnext]; omega) (by simp only [hnext]; omega) r1 r2)
      · exact endTransmission_inv _ _ hr rfl
    · rename_i hw; exact ⟨_, rfl, hr.inv hw (.inl hph)⟩
  | gap =>
    have hbusy : txBusy s = true := by simp [txBusy, hph]
    obtain ⟨hm, hb⟩ := h.tx.playing (.inr hph)
    have ht := h.tx.train hbusy (by simp [hph])
    have hlt := h.tx.pause hph
    obtain ⟨r1, r2⟩ := h.tx.repetition (.inr hph)
    have hc := s.buf.repeats.isLt
    have hnext : (s.tx.rep + 1#16).toNat = s.tx.rep.toNat + 1 := by
      rw [BitVec.toNat_add, show (1#16).toNat = 1 from rfl]; omega
    simp only [countDown]
    split
    · exact playTransmission_inv (hready { s.tx with wait := s.tx.wait - 1#32, rep := s.tx.rep + 1#16, idx := 1#16 } rfl
        hm hb hbusy (by simp [hph]) (by simp) (by simpa using ht.1) (by simp only [hnext]; omega)
        (by simp only [hnext]; omega))
    · rename_i hw
      refine ⟨_, rfl, ?_⟩
      refine
        { buffer := h.buffer.of_eq rfl rfl rfl, config := h.config.of_eq rfl rfl rfl rfl
          capture := h.capture.of_eq rfl rfl rfl rfl, radio := h.radio.of_eq rfl rfl, tx := ?_, waits := ?_ }
      · exact ⟨h.tx.playing, h.tx.noCapture, h.tx.train, h.tx.index, h.tx.repetition, h.tx.pause, fun _ => hw,
          h.tx.prior, h.tx.acquire, h.tx.release⟩
      · simp [hph]
  | release =>
    simp only
    split
    · rename_i hb; exact ⟨s, rfl, { h with waits := fun _ => hb }⟩
    · rename_i hb
      refine ⟨_, rfl, ?_⟩
      refine
        { buffer := h.buffer.of_eq rfl rfl rfl, config := h.config.of_eq rfl rfl rfl rfl
          capture := h.capture.of_eq rfl rfl rfl rfl, radio := h.radio.of_eq rfl rfl, tx := ?_, waits := ?_ }
      · exact ⟨by simp, by simp [txBusy], by simp [txBusy], by simp, by simp, by simp, by simp,
          by simpa using h.tx.prior, by simp, by simp⟩
      · simp

end Sys2Proof.Machine
end

