-- ==== Sys2Proof/Laws/Capture.lean ====
section
/-!
SUPPORT. The capture engine: what its operations write, and that its edge and deadline rules keep the invariant.
-/
namespace Sys2Proof.Machine

/-! ### What the operations write -/

@[simp] theorem armDeadline_state (s : State) : (armDeadline s).cap.state = s.cap.state := by
  unfold armDeadline; split <;> rfl

@[simp] theorem armDeadline_ready (s : State) : (armDeadline s).cap.ready = s.cap.ready := by
  unfold armDeadline; split <;> rfl

@[simp] theorem armDeadline_lastEdge (s : State) : (armDeadline s).cap.lastEdge = s.cap.lastEdge := by
  unfold armDeadline; split <;> rfl

@[simp] theorem armDeadline_dlArmed (s : State) : (armDeadline s).cap.dlArmed = true := by
  unfold armDeadline; split <;> rfl

@[simp] theorem armDeadline_slicer (s : State) : (armDeadline s).cap.slicer = s.cap.slicer := by
  unfold armDeadline; split <;> rfl

/-- The deadline is T after the tick being run, unless the gap policy shortened it (R136). -/
theorem armDeadline_silence (s : State) (h : (armDeadline s).cap.dlKind ≠ .adaptive) :
    (armDeadline s).cap.deadline = s.now + s.cfg.signalEndTimeoutUs := by
  unfold armDeadline at h ⊢
  split <;> simp_all

/-- The build that has no adaptive gap, or a configuration that does not enable it, consults no policy (R136). -/
theorem adaptiveGap_none {s : State} (h : (s.build.hasAdaptiveGap && s.cfg.adaptiveGapEn) = false) :
    adaptiveGap s = none := by
  simp [adaptiveGap, h]

/-- What finish leaves of the capture engine (R146): DONE and ready exactly if the train is long enough. -/
theorem finish_cap (r : EndReason) (s : State) :
    (finish r s).cap =
      if s.cfg.minRawPulses.toNat ≤ s.buf.pulseCount.toNat then
        { s.cap with dlArmed := false, state := .done, ready := true }
      else { s.cap with dlArmed := false, state := .idle } := by
  unfold finish; simp only; split <;> simp

theorem finish_buf (r : EndReason) (s : State) :
    (finish r s).buf = { s.buf with endReason := r, capturedAt := s.now } := by
  unfold finish; simp only; split <;> simp

theorem finish_poll (r : EndReason) (s : State) : (finish r s).poll = { s.poll with isOpen := false } := by
  unfold finish; simp only; split <;> simp

theorem finish_ints (r : EndReason) (s : State) :
    (finish r s).ints =
      if s.cfg.minRawPulses.toNat ≤ s.buf.pulseCount.toNat then { s.ints with pending := s.ints.pending ||| 1#4 }
      else s.ints := by
  unfold finish; simp only; split <;> simp

/-! ### The invariant -/

/-- An idle TX engine has nothing to keep but its last prior mode. -/
theorem TxInv.of_idle {t : State} (h : t.tx.phase = .idle) (hp : t.tx.prior ≠ .unset) : TxInv t :=
  ⟨by simp [h], by simp [txBusy, h], by simp [txBusy, h], by simp [h], by simp [h], by simp [h], by simp [h], hp,
    by simp [h], by simp [h]⟩

theorem tx_idle_of_inCapture {s : State} (h : TxInv s) (hc : inCapture s = true) : s.tx.phase = .idle := by
  by_contra hne
  have := h.noCapture (by simpa [txBusy] using hne)
  simp [hc] at this

/-- While edges are observed, no transmit runs (R57, R59). -/
theorem tx_idle_of_armed {s : State} (h : BlockInv s) (ha : armed s = true) : s.tx.phase = .idle := by
  simp only [armed, Bool.and_eq_true, decide_eq_true_eq, Bool.not_eq_true'] at ha
  obtain ⟨⟨hm, hb⟩, -⟩ := ha
  cases hp : s.tx.phase with
  | idle => rfl
  | acquire => have := h.waits (.inl hp); simp [hb] at this
  | release => have := h.waits (.inr hp); simp [hb] at this
  | pulse => have := (h.tx.playing (.inl hp)).1; simp [hm] at this
  | gap => have := (h.tx.playing (.inr hp)).1; simp [hm] at this

/-- The end of a capture keeps the invariant (R146). -/
theorem finish_inv {r : EndReason} {s : State} (hb : BufferInv s) (hc : ConfigInv s) (hr : RadioInv s)
    (hi : s.tx.phase = .idle) (hp : s.tx.prior ≠ .unset) (hready : s.cap.ready = false) : BlockInv (finish r s) := by
  refine
    { buffer := hb.of_eq (by simp) (by simp) (by simp [finish_buf])
      config := hc.of_eq (by simp) (by simp) (by simp) (by rw [finish_cap]; split <;> rfl)
      capture := ?_, radio := hr.of_eq (by simp) (by simp), tx := TxInv.of_idle (by simp [hi]) (by simpa using hp)
      waits := by simp [hi] }
  by_cases hd : s.cfg.minRawPulses.toNat ≤ s.buf.pulseCount.toNat
  · have hk := finish_cap r s
    rw [if_pos hd] at hk
    exact ⟨by simp [hk], by simp [inCapture, hk], by simp [hk], by simp [hk], by simp [hk]⟩
  · have hk := finish_cap r s
    rw [if_neg hd] at hk
    exact ⟨by simp [hk, hready], by simp [inCapture, hk], by simp [hk], by simp [hk], by simp [hk]⟩

/-- An open capture with its deadline armed keeps the invariant (R136). -/
theorem armDeadline_inv {s : State} (hb : BufferInv s) (hc : ConfigInv s) (hr : RadioInv s)
    (hi : s.tx.phase = .idle) (hp : s.tx.prior ≠ .unset) (hready : s.cap.ready = false)
    (hs : s.cap.state = .capturing) (hl : s.cap.lastEdge = s.now)
    (hn : s.buf.pulseCount.toNat < s.build.capacity) : BlockInv (armDeadline s) := by
  refine
    { buffer := hb.of_eq (by simp) (by simp) (by simp)
      config := hc.of_eq (by simp) (by simp) (by simp) (by simp)
      capture := ?_, radio := hr.of_eq (by simp) (by simp), tx := TxInv.of_idle (by simp [hi]) (by simpa using hp)
      waits := by simp [hi] }
  refine ⟨by simp [hready, hs], by simp [inCapture, hs], fun _ => by simpa using hn, fun _ hk => ?_, by simp [hs]⟩
  rw [armDeadline_silence s hk]
  simp [hl]

/-- A store's end keeps the invariant: TooLong or a new deadline (R138, R141). -/
theorem closeOrArm_inv {s : State} (hb : BufferInv s) (hc : ConfigInv s) (hr : RadioInv s)
    (hi : s.tx.phase = .idle) (hp : s.tx.prior ≠ .unset) (hready : s.cap.ready = false)
    (hs : s.cap.state = .capturing) (hl : s.cap.lastEdge = s.now) : BlockInv (closeOrArm s) := by
  unfold closeOrArm
  split
  · exact finish_inv hb hc hr hi hp hready
  · rename_i hne
    exact armDeadline_inv hb hc hr hi hp hready hs hl (lt_of_le_of_ne hb.count hne)

/-- A listed address after a word's write is one of the word's bytes or was listed before. -/
theorem writePulse_mem {m : Memory} {i : Nat} {v : Half} {d : Host.Cell} (h : d ∈ Memory.writePulse m i v) :
    d ∈ m ∨ d.1 = pulseAddr i ∨ d.1 = pulseAddr i + 1 := by
  rcases memory_mem_write h with h | rfl
  · rcases memory_mem_write h with h | rfl
    · exact .inl h
    · exact .inr (.inl rfl)
  · exact .inr (.inr rfl)

theorem pulseByte_iff {c a : Nat} :
    pulseByte c a = true ↔ 0x2000 ≤ a ∧ (a - 0x2000) / 4 ≤ c ∧ (a - 0x2000) % 4 < 2 := by
  unfold pulseByte
  rw [Bool.and_eq_true, Bool.and_eq_true, decide_eq_true_iff, decide_eq_true_iff, decide_eq_true_iff, and_assoc]

theorem pulseByte_pulseAddr {c i : Nat} (h : i ≤ c) :
    pulseByte c (pulseAddr i) = true ∧ pulseByte c (pulseAddr i + 1) = true := by
  have ha : pulseAddr i = 0x2000 + 4 * i := rfl
  rw [pulseByte_iff, pulseByte_iff]
  omega

/-- Writing a word that the buffer has keeps its invariant (R61). -/
theorem BufferInv.write {s : State} (h : BufferInv s) {i : Nat} (v : Half) (hi : i ≤ s.build.capacity) :
    BufferInv { s with mem := s.mem.writePulse i v } := by
  refine ⟨h.build, memory_writePulse_wf _ _ h.canonical, ?_, h.count⟩
  simp only [List.all_eq_true]
  intro d hd
  have := pulseByte_pulseAddr hi
  rcases writePulse_mem hd with hd | hd | hd
  · exact List.all_eq_true.1 h.range d hd
  · simp [hd, this.1]
  · simp [hd, this.2]

/-- A store into a buffer with room answers next and keeps the buffer's invariant (R135). -/
theorem BufferInv.store {s : State} (h : BufferInv s) (w : Word) (hn : s.buf.pulseCount.toNat < s.build.capacity) :
    ∃ t, storePulse w s = .next t ∧ BufferInv t ∧ t.build = s.build ∧ t.cap = s.cap ∧ t.cfgSh = s.cfgSh ∧
      t.cfg = s.cfg ∧ t.radio = s.radio ∧ t.pins = s.pins ∧ t.tx = s.tx ∧ t.now = s.now := by
  refine ⟨_, storePulse_eq_next.2 ⟨hn, rfl⟩, ?_, rfl, rfl, rfl, rfl, rfl, rfl, rfl, rfl⟩
  have hc := capacity_le h.build
  have := h.write (scaledWidth s.cfg.sampleRate w) (i := s.buf.pulseCount.toNat + 1) hn
  refine ⟨this.build, this.canonical, this.range, ?_⟩
  show (s.buf.pulseCount + 1#16).toNat ≤ s.build.capacity
  rw [BitVec.toNat_add, show (1#16).toNat = 1 from rfl]
  omega

/-- The edge that leaves IDLE keeps the invariant (R133). -/
theorem startSeeking_inv {s : State} (h : BlockInv s) (ha : armed s = true) (hs : s.cap.state = .idle) :
    BlockInv (startSeeking s) := by
  have hi := tx_idle_of_armed h ha
  have hready : s.cap.ready = false := by
    have := h.capture.ready
    cases hr : s.cap.ready
    · rfl
    · simp [hr, hs] at this
  unfold startSeeking
  split
  · exact h
  · refine
      { buffer := h.buffer.of_eq rfl rfl rfl, config := h.config.of_eq rfl rfl rfl rfl, capture := ?_
        radio := h.radio.of_eq rfl rfl, tx := TxInv.of_idle hi h.tx.prior, waits := by simp [hi] }
    exact ⟨by simp [hready], by simp [inCapture], by simp, by simp, by simp⟩

/-- The commit of a preamble answers next and keeps the invariant (R138). -/
theorem seekCommit_inv {s : State} (h : BlockInv s) (hs : s.cap.state = .seeking) :
    ∃ t, seekCommit s = .next t ∧ BlockInv t := by
  have hi := tx_idle_of_inCapture h.tx (by simp [inCapture, hs])
  have hready : s.cap.ready = false := by
    have := h.capture.ready
    cases hr : s.cap.ready
    · rfl
    · simp [hr, hs] at this
  have hb : BufferInv (beginCapture s) :=
    ⟨h.buffer.build, h.buffer.canonical, h.buffer.range, by simp [beginCapture]⟩
  have hpos : 0 < s.build.capacity := capacity_pos h.buffer.build
  unfold seekCommit
  split
  · exact ⟨_, rfl, armDeadline_inv hb (h.config.of_eq rfl rfl rfl rfl) (h.radio.of_eq rfl rfl) hi h.tx.prior hready rfl
      rfl (by simpa [beginCapture] using hpos)⟩
  · obtain ⟨t, ht, hbt, e1, e2, e3, e4, e5, e6, e7, e8⟩ :=
      hb.store (seekWidth s) (by simpa [beginCapture] using hpos)
    refine ⟨_, by rw [ht, andThen_next], closeOrArm_inv hbt ?_ ?_ ?_ ?_ ?_ ?_ ?_⟩
    · exact h.config.of_eq e1 e3 e4 (by rw [e2]; rfl)
    · exact h.radio.of_eq e5 e6
    · rw [e7]; exact hi
    · rw [e7]; exact h.tx.prior
    · rw [e2]; exact hready
    · rw [e2]; rfl
    · rw [e2, e8]; rfl

/-- An accepted pulse answers next and keeps the invariant (R141). -/
theorem acceptPulse_inv {s : State} (h : BlockInv s) (hs : s.cap.state = .capturing) :
    ∃ t, acceptPulse s = .next t ∧ BlockInv t := by
  have hi := tx_idle_of_inCapture h.tx (by simp [inCapture, hs])
  have hready : s.cap.ready = false := by
    have := h.capture.ready
    cases hr : s.cap.ready
    · rfl
    · simp [hr, hs] at this
  obtain ⟨t, ht, hbt, e1, e2, e3, e4, e5, e6, e7, e8⟩ := h.buffer.store (pulseWidth s) (h.capture.room hs)
  refine ⟨closeOrArm { t with cap := { t.cap with lastEdge := t.now } }, by rw [acceptPulse, ht, andThen_next],
    closeOrArm_inv (hbt.of_eq rfl rfl rfl) ?_ ?_ ?_ ?_ ?_ ?_ rfl⟩
  · exact h.config.of_eq e1 e3 e4 (by rw [e2])
  · exact h.radio.of_eq e5 e6
  · show t.tx.phase = .idle
    rw [e7]; exact hi
  · show t.tx.prior ≠ .unset
    rw [e7]; exact h.tx.prior
  · show t.cap.ready = false
    rw [e2]; exact hready
  · show t.cap.state = .capturing
    rw [e2]; exact hs

/-- Abandoning a preamble keeps the invariant (R144). -/
theorem seekAbandon_inv {s : State} (h : BlockInv s) (hs : s.cap.state = .seeking) : BlockInv (seekAbandon s) := by
  have hi := tx_idle_of_inCapture h.tx (by simp [inCapture, hs])
  have hready : s.cap.ready = false := by
    have := h.capture.ready
    cases hr : s.cap.ready
    · rfl
    · simp [hr, hs] at this
  refine
    { buffer := h.buffer.of_eq rfl rfl rfl, config := h.config.of_eq rfl rfl rfl rfl, capture := ?_
      radio := h.radio.of_eq rfl rfl, tx := TxInv.of_idle hi h.tx.prior, waits := by simp [seekAbandon, hi] }
  exact ⟨by simp [seekAbandon, hready], by simp [seekAbandon, inCapture], by simp [seekAbandon],
    by simp [seekAbandon], by simp [seekAbandon]⟩

/-- A capture's timeout keeps the invariant (R145). -/
theorem captureTimeout_inv {s : State} (h : BlockInv s) (hs : s.cap.state = .capturing) : BlockInv (captureTimeout s) := by
  have hi := tx_idle_of_inCapture h.tx (by simp [inCapture, hs])
  have hready : s.cap.ready = false := by
    have := h.capture.ready
    cases hr : s.cap.ready
    · rfl
    · simp [hr, hs] at this
  exact finish_inv h.buffer h.config h.radio hi h.tx.prior hready

end Sys2Proof.Machine
end

