-- ==== Sys2Proof/Laws/Exec.lean ====
section
/-!
SUPPORT. What one instruction can do, said once: exec_effect lists every next state exec can answer, with what held when
it answered, so that a rule about all instructions is a case analysis over Effect.
-/
namespace Sys2Proof.Machine

/-- The operations of an edge row that the width filters drop. -/
def filteredEdge (i : Instr) : Prop := i = .evEdgeIdle ∨ i = .evEdgeSeekingShort ∨ i = .evEdgeCapturingGlitch

/-- The EVENT rows. -/
def eventRow : Instr → Bool
  | .evEdgeIdle | .evEdgeSeekingShort | .evEdgeSeekingCommit | .evEdgeCapturingGlitch | .evEdgeCapturingAccept
  | .evEdgeDone | .evDeadlineSeeking | .evDeadlineCapturing | .evPollEnd | .evRadioStep | .evTxStep => true
  | _ => false

/-- The rows that read. -/
def readRow : Instr → Bool
  | .rdReg _ | .rdPulse _ => true
  | _ => false

/-- The rows that write the shadow configuration. -/
def shadowRow : Instr → Bool
  | .wrCfgSampleRate _ | .wrCfgMinRawPulses _ | .wrCfgSeekTimeoutMs _ | .wrCfgMinPreambleUs _
  | .wrCfgMinPulseLenUs _ | .wrCfgSignalEndTimeoutUs _ | .wrCfgFlags _ => true
  | _ => false

/-- Every next state an instruction can have. -/
inductive Effect : Instr → State → State → Prop where
  | same (i : Instr) (s : State) : Effect i s s
  | error (i : Instr) (c : ErrCause) (a : Offset) (d : Word) (s : State) (hi : eventRow i = false := by rfl) :
      Effect i s (raiseErr c a d s)
  | read (i : Instr) (o : Offset) (v : Word) (s : State) (hi : readRow i = true := by rfl) :
      Effect i s (returnRead o v s)
  | command {w : Word} {i : Instr} {s t : State} (hw : decodeCmd w = .ok i) (h : Effect i s t) :
      Effect (.wrCmd w) s t
  | consumed {s : State} (hf : fatalLocked s = false) (hr : s.cap.ready = true) :
      Effect .consume s { s with cap := { s.cap with ready := false, state := .idle } }
  | refreshed {s : State} (hf : fatalLocked s = false) (hq : quiescent s = true)
      (hv : cfgValid s.build.capacity s.cfgSh = true) : Effect .refreshConfig s { s with cfg := s.cfgSh }
  | modeStarted {m : RadioMode} {s : State} (hf : fatalLocked s = false) (hm : m ≠ .unset)
      (hb : s.radio.busy = false) (hx : txBusy s = false) (hne : m ≠ s.radio.mode) :
      Effect (.setMode m) s (radioStart m .cmd s)
  | sent {s t : State} (hf : fatalLocked s = false) (hb : s.radio.busy = false) (hx : txBusy s = false)
      (hu : s.radio.mode ≠ .unset) (hc : inCapture s = false) (h : rawSendAccept s = .next t) : Effect .rawSend s t
  | scanned {s : State} (hf : fatalLocked s = false) (ha : s.cfg.asyncMode = false)
      (hn : s.cfg.seekTimeoutMs ≠ 0#16) :
      Effect .scan s { s with poll := { isOpen := true, endAt := s.now + pollTicks s } }
  | held (d : Word) (s : State) : Effect (.wrCtrl d) s { s with cap := { s.cap with hold := d.getLsbD 0 } }
  | errCleared (d : Word) (s : State) :
      Effect (.wrErr d) s
        { s with errs := { s.errs with flags := clearOnes s.errs.flags (0#1 ++ d.extractLsb' 0 6) } }
  | enabled (d : Word) (s : State) :
      Effect (.wrIntEn d) s { s with ints := { s.ints with enable := d.extractLsb' 0 4 } }
  | acknowledged (d : Word) (s : State) :
      Effect (.wrIntPend d) s
        { s with ints := { s.ints with pending := clearOnes s.ints.pending (d.extractLsb' 0 4) } }
  | counted {d : Word} {s : State} (hq : quiescent s = true) (hn : (lowHalf d).toNat ≤ s.build.capacity) :
      Effect (.wrPulseCount d) s { s with buf := { s.buf with pulseCount := lowHalf d } }
  | repeated {d : Word} {s : State} (hq : quiescent s = true) :
      Effect (.wrRepeats d) s { s with buf := { s.buf with repeats := lowHalf d } }
  | delayed {d : Word} {s : State} (hq : quiescent s = true) :
      Effect (.wrInterRepeatDelayMs d) s { s with buf := { s.buf with interRepeatDelayMs := lowHalf d } }
  | shadowed {i : Instr} {s : State} {c : TimingConfig} (hi : shadowRow i = true)
      (hg : c.adaptiveGapEn = true → s.build.hasAdaptiveGap = true ∨ s.cfgSh.adaptiveGapEn = true) :
      Effect i s { s with cfgSh := c }
  | stored {k : Index} {d : Word} {s : State} (hq : quiescent s = true) (hk : k.toNat ≤ s.build.capacity) :
      Effect (.wrPulse k d) s { s with mem := s.mem.writePulse k.toNat (lowHalf d) }
  | sampled {i : Instr} {s : State} (hi : filteredEdge i) : Effect i s (sampleEdge s)
  | seeking {s : State} (he : edgeObserved s = true) (hs : s.cap.state = .idle) (hh : s.cap.hold = false) :
      Effect .evEdgeIdle s (startSeeking (sampleEdge s))
  | committed {s t : State} (he : edgeObserved s = true) (hs : s.cap.state = .seeking)
      (hl : longInterval s = true) (h : seekCommit (sampleEdge s) = .next t) : Effect .evEdgeSeekingCommit s t
  | accepted {s t : State} (he : edgeObserved s = true) (hs : s.cap.state = .capturing)
      (hl : longInterval s = true) (h : acceptPulse (sampleEdge s) = .next t) : Effect .evEdgeCapturingAccept s t
  | dropped {s : State} (he : edgeObserved s = true) (hs : s.cap.state = .done) :
      Effect .evEdgeDone s (dropEdge (sampleEdge s))
  | abandoned {s : State} (hd : deadlineDue s = true) (hs : s.cap.state = .seeking) :
      Effect .evDeadlineSeeking s (seekAbandon s)
  | timedOut {s : State} (hd : deadlineDue s = true) (hs : s.cap.state = .capturing) :
      Effect .evDeadlineCapturing s (captureTimeout s)
  | pollClosed {s : State} (hp : pollDue s = true) :
      Effect .evPollEnd s { s with poll := { s.poll with isOpen := false } }
  | radioStepped (s : State) : Effect .evRadioStep s (radioAdvance s)
  | txStepped {s t : State} (h : txAdvance s = .next t) : Effect .evTxStep s t

theorem next_inj {s t : State} (h : (Host.Outcome.next s : Out) = .next t) : s = t := by
  cases h; rfl

/-! ### Commands -/

theorem execNop_effect {s t : State} (h : execNop s = .next t) : Effect .nop s t := by
  unfold execNop unlessFatal at h
  split at h <;> cases next_inj h
  · exact .error ..
  · exact .same ..

theorem execConsume_effect {s t : State} (h : execConsume s = .next t) : Effect .consume s t := by
  unfold execConsume unlessFatal at h
  split at h <;> cases next_inj h
  · exact .error ..
  · rename_i hf
    unfold consumeBody
    split
    · rename_i hr; exact .consumed (by simpa using hf) hr
    · exact .same ..

theorem execRefreshConfig_effect {s t : State} (h : execRefreshConfig s = .next t) : Effect .refreshConfig s t := by
  unfold execRefreshConfig unlessFatal at h
  split at h <;> cases next_inj h
  · exact .error ..
  · rename_i hf
    unfold refreshConfigBody
    split
    · split
      · rename_i hq hv; exact .refreshed (by simpa using hf) hq hv
      · exact .error ..
    · exact .error ..

theorem execSetMode_effect {m : RadioMode} {s t : State} (h : execSetMode m s = .next t) : Effect (.setMode m) s t := by
  unfold execSetMode unlessFatal at h
  split at h <;> cases next_inj h
  · exact .error ..
  · rename_i hf
    unfold setModeBody
    split
    · exact .error ..
    · split
      · exact .error ..
      · split
        · exact .same ..
        · rename_i hm hb hne
          simp only [Bool.or_eq_true, not_or, Bool.not_eq_true] at hb
          exact .modeStarted (by simpa using hf) hm hb.1 hb.2 hne

theorem execRawSend_effect {s t : State} (h : execRawSend s = .next t) : Effect .rawSend s t := by
  unfold execRawSend unlessFatal at h
  split at h
  · cases next_inj h; exact .error ..
  · rename_i hf
    unfold rawSendBody at h
    split at h
    · cases next_inj h; exact .error ..
    · split at h
      · cases next_inj h; exact .error ..
      · split at h
        · cases next_inj h; exact .error ..
        · rename_i hb hu hc
          simp only [Bool.or_eq_true, not_or, Bool.not_eq_true] at hb
          exact .sent (by simpa using hf) hb.1 hb.2 hu (by simpa using hc) h

theorem execUpdateSlicer_effect {v : Slicer} {s t : State} (h : execUpdateSlicer v s = .next t) :
    Effect (.updateSlicer v) s t := by
  unfold execUpdateSlicer unlessFatal at h
  split at h <;> cases next_inj h
  · exact .error ..
  · unfold updateSlicerBody
    split
    · exact .error ..
    · split
      · exact .error ..
      · exact .same ..

theorem execScan_effect {s t : State} (h : execScan s = .next t) : Effect .scan s t := by
  unfold execScan unlessFatal at h
  split at h <;> cases next_inj h
  · exact .error ..
  · rename_i hf
    unfold scanBody
    split
    · rename_i hc
      simp only [Bool.and_eq_true, Bool.not_eq_true', decide_eq_true_eq] at hc
      exact .scanned (by simpa using hf) hc.1 hc.2
    · exact .same ..

theorem execWrCmd_effect {w : Word} {s t : State} (h : execWrCmd w s = .next t) : Effect (.wrCmd w) s t := by
  unfold execWrCmd unlessFatal at h
  split at h
  · cases next_inj h; exact .error ..
  · unfold runCommand at h
    split at h
    · rename_i hw; exact .command hw (execNop_effect h)
    · rename_i hw; exact .command hw (execConsume_effect h)
    · rename_i hw; exact .command hw (execRefreshConfig_effect h)
    · rename_i hw; exact .command hw (execSetMode_effect h)
    · rename_i hw; exact .command hw (execRawSend_effect h)
    · rename_i hw; exact .command hw (execUpdateSlicer_effect h)
    · rename_i hw; exact .command hw (execScan_effect h)
    · cases next_inj h; exact .error ..

/-! ### Buffer writes -/

theorem execWrPulse_effect {k : Index} {d : Word} {s t : State} (h : execWrPulse k d s = .next t) :
    Effect (.wrPulse k d) s t := by
  rcases gatedWrite_eq_next h with ⟨hq, -, h⟩ | rfl
  · obtain ⟨hk, rfl⟩ := setPulse_eq_next.1 h
    exact .stored hq hk
  · exact .error ..

theorem execWrPulseCount_effect {d : Word} {s t : State} (h : execWrPulseCount d s = .next t) :
    Effect (.wrPulseCount d) s t := by
  rcases gatedWrite_eq_next h with ⟨hq, hn, h⟩ | rfl
  · cases next_inj h; exact .counted hq (by simpa using hn)
  · exact .error ..

theorem execWrRepeats_effect {d : Word} {s t : State} (h : execWrRepeats d s = .next t) :
    Effect (.wrRepeats d) s t := by
  rcases gatedWrite_eq_next h with ⟨hq, -, h⟩ | rfl
  · cases next_inj h; exact .repeated hq
  · exact .error ..

theorem execWrInterRepeatDelayMs_effect {d : Word} {s t : State} (h : execWrInterRepeatDelayMs d s = .next t) :
    Effect (.wrInterRepeatDelayMs d) s t := by
  rcases gatedWrite_eq_next h with ⟨hq, -, h⟩ | rfl
  · cases next_inj h; exact .delayed hq
  · exact .error ..

theorem execRdPulse_effect {k : Index} {s t : State} (h : execRdPulse k s = .next t) : Effect (.rdPulse k) s t := by
  unfold execRdPulse at h
  split at h
  · cases next_inj h; exact .read ..
  · cases h

/-- A write of one shadow field that is not the gap flag. -/
theorem shadow_effect {i : Instr} {c : TimingConfig} {s t : State} (h : writeShadow c s = .next t)
    (hi : shadowRow i = true) (hc : c.adaptiveGapEn = s.cfgSh.adaptiveGapEn) : Effect i s t := by
  cases next_inj h
  exact .shadowed hi fun hg => .inr (hc ▸ hg)

theorem execWrCfgFlags_effect {d : Word} {s t : State} (h : execWrCfgFlags d s = .next t) :
    Effect (.wrCfgFlags d) s t := by
  cases next_inj h
  exact .shadowed rfl fun hg => .inl (by simp only [Bool.and_eq_true] at hg; exact hg.1)

/-! ### Events -/

theorem execEvEdgeIdle_effect {s t : State} (h : execEvEdgeIdle s = .next t) : Effect .evEdgeIdle s t := by
  rcases edgeRow_eq_next h with ⟨he, hs, -, h⟩ | rfl
  · cases next_inj h
    cases hh : s.cap.hold
    · exact .seeking he hs hh
    · have : startSeeking (sampleEdge s) = sampleEdge s := by
        unfold startSeeking; rw [sampleEdge_cap, hh]; rfl
      rw [this]
      exact .sampled (.inl rfl)
  · exact .same ..

theorem execEvEdgeSeekingShort_effect {s t : State} (h : execEvEdgeSeekingShort s = .next t) :
    Effect .evEdgeSeekingShort s t := by
  rcases edgeRow_eq_next h with ⟨-, -, -, h⟩ | rfl
  · cases next_inj h; exact .sampled (.inr (.inl rfl))
  · exact .same ..

theorem execEvEdgeSeekingCommit_effect {s t : State} (h : execEvEdgeSeekingCommit s = .next t) :
    Effect .evEdgeSeekingCommit s t := by
  rcases edgeRow_eq_next h with ⟨he, hs, hl, h⟩ | rfl
  · exact .committed he hs hl h
  · exact .same ..

theorem execEvEdgeCapturingGlitch_effect {s t : State} (h : execEvEdgeCapturingGlitch s = .next t) :
    Effect .evEdgeCapturingGlitch s t := by
  rcases edgeRow_eq_next h with ⟨-, -, -, h⟩ | rfl
  · cases next_inj h; exact .sampled (.inr (.inr rfl))
  · exact .same ..

theorem execEvEdgeCapturingAccept_effect {s t : State} (h : execEvEdgeCapturingAccept s = .next t) :
    Effect .evEdgeCapturingAccept s t := by
  rcases edgeRow_eq_next h with ⟨he, hs, hl, h⟩ | rfl
  · exact .accepted he hs hl h
  · exact .same ..

theorem execEvEdgeDone_effect {s t : State} (h : execEvEdgeDone s = .next t) : Effect .evEdgeDone s t := by
  rcases edgeRow_eq_next h with ⟨he, hs, -, h⟩ | rfl
  · cases next_inj h; exact .dropped he hs
  · exact .same ..

/-- A deadline row runs its rule where its condition holds, and changes nothing elsewhere. -/
theorem deadlineRow_cases (c : CapState) (run : State → State) (s : State) :
    (deadlineDue s = true ∧ s.cap.state = c ∧ deadlineRow c run s = run s) ∨ deadlineRow c run s = s := by
  unfold deadlineRow
  split
  · rename_i hc
    simp only [Bool.and_eq_true, decide_eq_true_eq] at hc
    exact .inl ⟨hc.1, hc.2, rfl⟩
  · exact .inr rfl

theorem execEvDeadlineSeeking_effect {s t : State} (h : execEvDeadlineSeeking s = .next t) :
    Effect .evDeadlineSeeking s t := by
  cases next_inj h
  rcases deadlineRow_cases .seeking seekAbandon s with ⟨hd, hs, e⟩ | e <;> rw [e]
  · exact .abandoned hd hs
  · exact .same ..

theorem execEvDeadlineCapturing_effect {s t : State} (h : execEvDeadlineCapturing s = .next t) :
    Effect .evDeadlineCapturing s t := by
  cases next_inj h
  rcases deadlineRow_cases .capturing captureTimeout s with ⟨hd, hs, e⟩ | e <;> rw [e]
  · exact .timedOut hd hs
  · exact .same ..

theorem execEvPollEnd_effect {s t : State} (h : execEvPollEnd s = .next t) : Effect .evPollEnd s t := by
  cases next_inj h
  split
  · rename_i hp; exact .pollClosed hp
  · exact .same ..

/-! ### All instructions -/

/-- Every next state of exec, instruction by instruction. -/
theorem exec_effect {i : Instr} {s t : State} (h : exec i s = .next t) : Effect i s t := by
  cases i with
  | nop => exact execNop_effect h
  | consume => exact execConsume_effect h
  | refreshConfig => exact execRefreshConfig_effect h
  | setMode m => exact execSetMode_effect h
  | rawSend => exact execRawSend_effect h
  | updateSlicer v => exact execUpdateSlicer_effect h
  | scan => exact execScan_effect h
  | wrCtrl d => cases next_inj h; exact .held ..
  | wrErr d => cases next_inj h; exact .errCleared ..
  | wrIntEn d => cases next_inj h; exact .enabled ..
  | wrIntPend d => cases next_inj h; exact .acknowledged ..
  | wrCmd w => exact execWrCmd_effect h
  | wrPulseCount d => exact execWrPulseCount_effect h
  | wrRepeats d => exact execWrRepeats_effect h
  | wrInterRepeatDelayMs d => exact execWrInterRepeatDelayMs_effect h
  | wrCfgSampleRate d => exact shadow_effect h rfl rfl
  | wrCfgMinRawPulses d => exact shadow_effect h rfl rfl
  | wrCfgSeekTimeoutMs d => exact shadow_effect h rfl rfl
  | wrCfgMinPreambleUs d => exact shadow_effect h rfl rfl
  | wrCfgMinPulseLenUs d => exact shadow_effect h rfl rfl
  | wrCfgSignalEndTimeoutUs d => exact shadow_effect h rfl rfl
  | wrCfgFlags d => exact execWrCfgFlags_effect h
  | wrPulse k d => exact execWrPulse_effect h
  | rdReg r => cases next_inj h; exact .read ..
  | rdPulse k => exact execRdPulse_effect h
  | evEdgeIdle => exact execEvEdgeIdle_effect h
  | evEdgeSeekingShort => exact execEvEdgeSeekingShort_effect h
  | evEdgeSeekingCommit => exact execEvEdgeSeekingCommit_effect h
  | evEdgeCapturingGlitch => exact execEvEdgeCapturingGlitch_effect h
  | evEdgeCapturingAccept => exact execEvEdgeCapturingAccept_effect h
  | evEdgeDone => exact execEvEdgeDone_effect h
  | evDeadlineSeeking => exact execEvDeadlineSeeking_effect h
  | evDeadlineCapturing => exact execEvDeadlineCapturing_effect h
  | evPollEnd => exact execEvPollEnd_effect h
  | evRadioStep => cases next_inj h; exact .radioStepped s
  | evTxStep => exact .txStepped h
  | wrRoId d | wrRoCaps d | wrRoSettleUs d | wrRoStatus d | wrRoErrInfo d | wrRoErrData d | wrRoNowUs d
  | wrRoCapturedAt d | wrRoSignalStrength d | wrRoActSampleRate d | wrRoActMinRawPulses d | wrRoActSeekTimeoutMs d
  | wrRoActMinPreambleUs d | wrRoActMinPulseLenUs d | wrRoActSignalEndTimeoutUs d | wrRoActFlags d =>
    cases next_inj h; exact .error ..

end Sys2Proof.Machine
end

