-- ==== Sys2Proof/Laws/Keep.lean ====
section
/-!
SUPPORT. Every instruction but the radio's step keeps the invariant of the end of a tick; the radio's step keeps the
invariant of a phase, and the TX engine's step after it gives back the invariant of the end of a tick (R59).
-/
namespace Sys2Proof.Machine

/-- While Q holds, no transmit runs and no capture is open (R58). -/
theorem quiescent_cases {s : State} (h : quiescent s = true) : s.tx.phase = .idle ∧ inCapture s = false := by
  simp only [quiescent, txBusy, Bool.and_eq_true, Bool.or_eq_true, decide_eq_true_eq, Bool.not_eq_true',
    decide_eq_false_iff_not, ne_eq, not_not] at h
  refine ⟨h.1, ?_⟩
  rcases h.2 with hd | hd
  · simp [inCapture, hd]
  · simp [inCapture, hd.1]

theorem not_inCapture {s : State} (h : inCapture s = false) : s.cap.state ≠ .seeking ∧ s.cap.state ≠ .capturing := by
  simpa [inCapture] using h

theorem tx_idle_of_not_busy {s : State} (h : txBusy s = false) : s.tx.phase = .idle := by simpa [txBusy] using h

/-- The capture items while no capture is open. -/
theorem CaptureInv.of_closed {t : State} (hr : t.cap.ready = true ↔ t.cap.state = .done) (hd : t.cap.dlArmed = false)
    (hc : inCapture t = false) : CaptureInv t := by
  obtain ⟨h1, h2⟩ := not_inCapture hc
  exact ⟨hr, by simp [hd, hc], fun h => absurd h h2, fun h => absurd h h2, fun h => absurd h h1⟩

theorem dlArmed_of_closed {s : State} (h : CaptureInv s) (hc : inCapture s = false) : s.cap.dlArmed = false := by
  have := h.deadline
  cases hd : s.cap.dlArmed
  · rfl
  · simp [hd, hc] at this

theorem raiseErr_inv {c : ErrCause} {a : Offset} {d : Word} {s : State} (h : BlockInv s) : BlockInv (raiseErr c a d s) :=
  h.of_eq rfl rfl rfl rfl rfl rfl rfl rfl rfl rfl

theorem sampleEdge_inv {s : State} (h : BlockInv s) : BlockInv (sampleEdge s) := h.of_eq rfl rfl rfl rfl rfl rfl rfl rfl rfl rfl

/-- Starting a sequence from a still radio keeps the invariant, whatever the TX engine has just been set to for it. -/
theorem radioStart_inv {m : RadioMode} {o : Origin} {s : State} (h : BlockInv s) (hm : m ≠ .unset)
    (hi : s.tx.phase = .idle) : BlockInv (radioStart m o s) := by
  refine
    { buffer := h.buffer.of_eq (by simp) (by simp) (by simp)
      config := h.config.of_eq (by simp) (by simp) (by simp) (by simp)
      capture := h.capture.of_eq (by simp) (by simp) (by simp) (by simp)
      radio := radioStart_radioInv (settle_ne_zero h.buffer.build) hm
      tx := TxInv.of_idle (by simpa using hi) (by simpa using h.tx.prior), waits := by simp }

/-- An accepted RAW_SEND answers next and keeps the invariant (R190, R191). -/
theorem rawSendAccept_inv {s : State} (h : BlockInv s) (hb : s.radio.busy = false) (hx : txBusy s = false)
    (hu : s.radio.mode ≠ .unset) (hc : inCapture s = false) : ∃ t, rawSendAccept s = .next t ∧ BlockInv t := by
  have hi := tx_idle_of_not_busy hx
  unfold rawSendAccept
  simp only
  split
  · refine ⟨_, rfl, ?_⟩
    exact
      { buffer := h.buffer.of_eq rfl rfl rfl, config := h.config.of_eq rfl rfl rfl rfl
        capture := h.capture.of_eq rfl rfl rfl rfl, radio := h.radio.of_eq rfl rfl
        tx := TxInv.of_idle (by simpa using hi) (by simpa using hu), waits := by simp [hi] }
  · rename_i hne
    simp only [not_or] at hne
    have hN : 1 ≤ s.buf.repeats.toNat := Nat.one_le_iff_ne_zero.2 fun h0 => hne.1 (BitVec.eq_of_toNat_eq h0)
    have hn : 1 ≤ s.buf.pulseCount.toNat := Nat.one_le_iff_ne_zero.2 fun h0 => hne.2 (BitVec.eq_of_toNat_eq h0)
    split
    · rename_i hm
      refine playTransmission_inv ⟨h.buffer.of_eq rfl rfl rfl, h.config.of_eq rfl rfl rfl rfl,
        h.capture.of_eq rfl rfl rfl rfl, h.radio.of_eq rfl rfl, hm, hb, hc, hN, hu, ?_, ?_, ?_, ?_⟩
      · simp
      · simpa using hn
      · simp
      · simpa using hN
    · refine ⟨_, rfl, ?_⟩
      refine
        { buffer := h.buffer.of_eq (by simp) (by simp) (by simp)
          config := h.config.of_eq (by simp) (by simp) (by simp) (by simp)
          capture := h.capture.of_eq (by simp) (by simp) (by simp) (by simp)
          radio := radioStart_radioInv (settle_ne_zero h.buffer.build) (by simp)
          tx := ?_, waits := by simp }
      refine ⟨by simp, fun _ => ?_, fun _ _ => by simpa using ⟨hn, hN⟩, by simp, by simp, by simp, by simp,
        by simpa using hu, by simp, by simp⟩
      rw [inCapture_congr (radioStart_cap ..)]
      exact hc

/-- Every instruction but the radio's step keeps the invariant (R59). -/
theorem effect_inv {i : Instr} {s t : State} (he : Effect i s t) (hi : i ≠ .evRadioStep) (h : BlockInv s) : BlockInv t := by
  induction he with
  | same => exact h
  | error => exact raiseErr_inv h
  | read => exact h.of_eq rfl rfl rfl rfl rfl rfl rfl rfl rfl rfl
  | command hw _ ih =>
    refine ih (fun hr => ?_) h
    rw [hr] at hw
    unfold decodeCmd plainCommand at hw
    repeat' split at hw
    all_goals cases hw
  | @consumed s _ hr =>
    have hd := h.capture.ready.1 hr
    have hc : inCapture s = false := by simp [inCapture, hd]
    have harm := dlArmed_of_closed h.capture hc
    refine
      { buffer := h.buffer.of_eq rfl rfl rfl, config := h.config.of_eq rfl rfl rfl rfl
        capture := CaptureInv.of_closed (by simp) harm (by simp [inCapture])
        radio := h.radio.of_eq rfl rfl, tx := h.tx.of_eq rfl rfl ?_ rfl rfl, waits := h.waits }
    rw [hc]; simp [inCapture]
  | @refreshed s _ hq hv =>
    obtain ⟨hi, hc⟩ := quiescent_cases hq
    have harm := dlArmed_of_closed h.capture hc
    exact
      { buffer := h.buffer.of_eq rfl rfl rfl
        config := ⟨hv, h.config.shadowGap, h.config.shadowGap, h.config.slicer⟩
        capture := CaptureInv.of_closed h.capture.ready harm hc
        radio := h.radio.of_eq rfl rfl, tx := h.tx.of_eq rfl rfl rfl rfl rfl, waits := h.waits }
  | modeStarted _ hm _ hx _ => exact radioStart_inv h hm (tx_idle_of_not_busy hx)
  | sent _ hb hx hu hc hs =>
    obtain ⟨u, hu', hinv⟩ := rawSendAccept_inv h hb hx hu hc
    rw [hu'] at hs
    exact next_inj hs ▸ hinv
  | scanned => exact h.of_eq rfl rfl rfl rfl rfl rfl rfl rfl rfl rfl
  | held d s =>
    exact
      { buffer := h.buffer.of_eq rfl rfl rfl, config := h.config.of_eq rfl rfl rfl rfl
        capture := ⟨h.capture.ready, h.capture.deadline, h.capture.room, h.capture.silence, h.capture.seek⟩
        radio := h.radio.of_eq rfl rfl, tx := h.tx.of_eq rfl rfl rfl rfl rfl, waits := h.waits }
  | errCleared => exact h.of_eq rfl rfl rfl rfl rfl rfl rfl rfl rfl rfl
  | enabled => exact h.of_eq rfl rfl rfl rfl rfl rfl rfl rfl rfl rfl
  | acknowledged => exact h.of_eq rfl rfl rfl rfl rfl rfl rfl rfl rfl rfl
  | counted hq hn =>
    obtain ⟨hi, hc⟩ := quiescent_cases hq
    have harm := dlArmed_of_closed h.capture hc
    exact
      { buffer := ⟨h.buffer.build, h.buffer.canonical, h.buffer.range, hn⟩
        config := h.config.of_eq rfl rfl rfl rfl
        capture := CaptureInv.of_closed h.capture.ready harm hc
        radio := h.radio.of_eq rfl rfl, tx := TxInv.of_idle hi h.tx.prior, waits := by simp [hi] }
  | repeated hq =>
    obtain ⟨hi, hc⟩ := quiescent_cases hq
    exact
      { buffer := h.buffer.of_eq rfl rfl rfl, config := h.config.of_eq rfl rfl rfl rfl
        capture := h.capture.of_eq rfl rfl rfl rfl
        radio := h.radio.of_eq rfl rfl, tx := TxInv.of_idle hi h.tx.prior, waits := by simp [hi] }
  | delayed => exact h.of_eq rfl rfl rfl rfl rfl rfl rfl rfl rfl rfl
  | shadowed _ hg =>
    exact
      { buffer := h.buffer.of_eq rfl rfl rfl
        config := ⟨h.config.valid, fun hk => (hg hk).elim id h.config.shadowGap, h.config.activeGap, h.config.slicer⟩
        capture := h.capture.of_eq rfl rfl rfl rfl
        radio := h.radio.of_eq rfl rfl, tx := h.tx.of_eq rfl rfl rfl rfl rfl, waits := h.waits }
  | stored hq hk =>
    exact
      { buffer := h.buffer.write _ hk, config := h.config.of_eq rfl rfl rfl rfl
        capture := h.capture.of_eq rfl rfl rfl rfl
        radio := h.radio.of_eq rfl rfl, tx := h.tx.of_eq rfl rfl rfl rfl rfl, waits := h.waits }
  | sampled => exact sampleEdge_inv h
  | seeking he hs _ =>
    simp only [edgeObserved, Bool.and_eq_true] at he
    exact startSeeking_inv (sampleEdge_inv h) he.2 hs
  | committed _ hs _ hx =>
    obtain ⟨u, hu, hinv⟩ := seekCommit_inv (sampleEdge_inv h) hs
    rw [hu] at hx
    exact next_inj hx ▸ hinv
  | accepted _ hs _ hx =>
    obtain ⟨u, hu, hinv⟩ := acceptPulse_inv (sampleEdge_inv h) hs
    rw [hu] at hx
    exact next_inj hx ▸ hinv
  | dropped => exact h.of_eq rfl rfl rfl rfl rfl rfl rfl rfl rfl rfl
  | abandoned _ hs => exact seekAbandon_inv h hs
  | timedOut _ hs => exact captureTimeout_inv h hs
  | pollClosed => exact h.of_eq rfl rfl rfl rfl rfl rfl rfl rfl rfl rfl
  | radioStepped => exact absurd rfl hi
  | txStepped hx =>
    obtain ⟨u, hu, hinv⟩ := txAdvance_inv h.toPhaseInv
    rw [hu] at hx
    exact next_inj hx ▸ hinv

/-- The radio's step keeps the invariant of a phase (R59, R113, R114). -/
theorem radioAdvance_phaseInv {s : State} (h : PhaseInv s) : PhaseInv (radioAdvance s) := by
  refine
    { buffer := h.buffer.of_eq (by simp) (by simp) (by simp)
      config := h.config.of_eq (by simp) (by simp) (by simp) (by simp)
      capture := h.capture.of_eq (by simp) (by simp) (by simp) (by simp)
      radio := radioAdvance_radioInv h.radio (settle_ne_zero h.buffer.build), tx := ?_ }
  have hcap : inCapture (radioAdvance s) = inCapture s := inCapture_congr (by simp)
  have hbusy : txBusy (radioAdvance s) = txBusy s := txBusy_congr (by simp)
  have hx := radioAdvance_tx s
  have hbuf := radioAdvance_buf s
  -- the mode and the busy bit after the step, from those before
  have hplay : s.radio.busy = false → (radioAdvance s).radio = s.radio := by
    intro hb; unfold radioAdvance; rw [if_neg (by simp [hb])]
  have hmode : ∀ m, (s.radio.busy = true → s.radio.target = m) → (s.radio.busy = false → s.radio.mode = m) →
      ((radioAdvance s).radio.busy = true → (radioAdvance s).radio.target = m) ∧
        ((radioAdvance s).radio.busy = false → (radioAdvance s).radio.mode = m) := by
    intro m h1 h2
    cases hb : s.radio.busy
    · rw [hplay hb]; exact ⟨fun h => by simp [hb] at h, fun _ => h2 hb⟩
    · have ht := h1 hb
      unfold radioAdvance
      rw [if_pos hb]
      split
      · split
        · simp [hb, ht]
        · simp [ht]
      · simp [hb, ht]
  refine ⟨?_, ?_, ?_, ?_, ?_, ?_, ?_, ?_, ?_, ?_⟩
  · rw [hx]; intro hp
    have := h.tx.playing hp
    rw [hplay this.2]; exact this
  · rw [hbusy, hcap]; exact h.tx.noCapture
  · rw [hbusy, hx, hbuf]; exact h.tx.train
  · rw [hx, hbuf]; exact h.tx.index
  · rw [hx, hbuf]; exact h.tx.repetition
  · rw [hx, hbuf]; exact h.tx.pause
  · rw [hx]; exact h.tx.wait
  · rw [hx]; exact h.tx.prior
  · rw [hx]; intro ha
    exact hmode .tx (h.tx.acquire ha).1 (h.tx.acquire ha).2
  · rw [hx]; intro hr
    obtain ⟨h1, h2, h3⟩ := h.tx.release hr
    exact ⟨h1, hmode _ h2 h3⟩

end Sys2Proof.Machine
end

