-- ==== Sys2Proof/Laws/Step.lean ====
section
/-!
SUPPORT. The parts of a tick: what each phase runs, that from the invariant each phase answers next and keeps it, and
the same for one host transaction.
-/
namespace Sys2Proof.Machine

/-! ### Decoding in the phases -/

/-- The radio's step is no transaction. -/
theorem decodeBus_ne_radioStep {c : Nat} {h : BusTxn} {i : Instr} (hd : decodeBus c h = .ok i) : i ≠ .evRadioStep := by
  intro hi
  subst hi
  unfold decodeBus at hd
  repeat' split at hd
  all_goals try cases hd
  all_goals rename_i r _ _
  all_goals cases r <;> cases hd

/-- A transaction decodes to an operation of the build. -/
theorem decodeBus_wf {c : Nat} {h : BusTxn} {i : Instr} (hd : decodeBus c h = .ok i) : i.wf c = true := by
  unfold decodeBus at hd
  repeat' split at hd
  all_goals try cases hd
  · rename_i hle _; simpa [Instr.wf] using hle
  · rename_i hle _; simpa [Instr.wf] using hle
  · rename_i r _ _; cases r <;> rfl
  · rfl

/-! ### Answers -/

/-- From the invariant every operation of the build answers next (R61: no index outside the buffer is formed). -/
theorem exec_answers {i : Instr} {s : State} (h : BlockInv s) (hw : i.wf s.build.capacity = true) :
    ∃ t, exec i s = .next t := by
  have hsend : ∃ t, execRawSend s = .next t := by
    unfold execRawSend unlessFatal
    split
    · exact ⟨_, rfl⟩
    · unfold rawSendBody
      split
      · exact ⟨_, rfl⟩
      · split
        · exact ⟨_, rfl⟩
        · split
          · exact ⟨_, rfl⟩
          · rename_i hb hu hc
            simp only [Bool.or_eq_true, not_or, Bool.not_eq_true] at hb
            obtain ⟨t, ht, -⟩ := rawSendAccept_inv h hb.1 hb.2 hu (by simpa using hc)
            exact ⟨t, ht⟩
  have hplain : ∀ (w : Word) (f : State → State), ∃ t, unlessFatal w (fun s => .next (f s)) s = .next t := by
    intro w f; unfold unlessFatal; split <;> exact ⟨_, rfl⟩
  have hgated : ∀ (o : Offset) (d : Word) (l : Bool) (f : State → State),
      ∃ t, gatedWrite o d l (fun s => .next (f s)) s = .next t := by
    intro o d l f; unfold gatedWrite; split <;> exact ⟨_, rfl⟩
  have hedge : ∀ (c : CapState) (l : Bool) (f : State → Out),
      (s.cap.state = c → ∃ t, f (sampleEdge s) = .next t) → ∃ t, edgeRow c l f s = .next t := by
    intro c l f hf
    unfold edgeRow
    split
    · rename_i hc
      simp only [Bool.and_eq_true, decide_eq_true_eq] at hc
      exact hf hc.1.2
    · exact ⟨_, rfl⟩
  cases i with
  | nop => exact hplain (cmdWord 0#8 0x00#8) id
  | consume => exact hplain _ _
  | refreshConfig => exact hplain _ _
  | setMode m => exact hplain _ _
  | rawSend => exact hsend
  | updateSlicer v => exact hplain _ _
  | scan => exact hplain _ _
  | wrCmd w =>
    show ∃ t, execWrCmd w s = .next t
    unfold execWrCmd unlessFatal
    split
    · exact ⟨_, rfl⟩
    · unfold runCommand
      split
      · exact hplain (cmdWord 0#8 0x00#8) id
      · exact hplain _ _
      · exact hplain _ _
      · exact hplain _ _
      · exact hsend
      · exact hplain _ _
      · exact hplain _ _
      · exact ⟨_, rfl⟩
  | wrPulseCount d => exact hgated _ _ _ fun s => { s with buf := { s.buf with pulseCount := lowHalf d } }
  | wrRepeats d => exact hgated _ _ _ fun s => { s with buf := { s.buf with repeats := lowHalf d } }
  | wrInterRepeatDelayMs d => exact hgated _ _ _ fun s => { s with buf := { s.buf with interRepeatDelayMs := lowHalf d } }
  | wrPulse k d =>
    have hk : k.toNat ≤ s.build.capacity := by simpa [Instr.wf] using hw
    show ∃ t, execWrPulse k d s = .next t
    unfold execWrPulse gatedWrite
    split
    · exact ⟨_, setPulse_eq_next.2 ⟨hk, rfl⟩⟩
    · exact ⟨_, rfl⟩
  | rdPulse k =>
    have hk : k.toNat ≤ s.build.capacity := by simpa [Instr.wf] using hw
    exact ⟨_, if_pos hk⟩
  | evEdgeIdle => exact hedge .idle false (fun s => .next (startSeeking s)) fun _ => ⟨_, rfl⟩
  | evEdgeSeekingShort => exact hedge _ _ _ fun _ => ⟨_, rfl⟩
  | evEdgeSeekingCommit =>
    exact hedge _ _ _ fun hs => (seekCommit_inv (sampleEdge_inv h) hs).imp fun _ ht => ht.1
  | evEdgeCapturingGlitch => exact hedge _ _ _ fun _ => ⟨_, rfl⟩
  | evEdgeCapturingAccept =>
    exact hedge _ _ _ fun hs => (acceptPulse_inv (sampleEdge_inv h) hs).imp fun _ ht => ht.1
  | evEdgeDone => exact hedge .done false (fun s => .next (dropEdge s)) fun _ => ⟨_, rfl⟩
  | evTxStep => exact (txAdvance_inv h.toPhaseInv).imp fun _ ht => ht.1
  | wrCtrl _ | wrErr _ | wrIntEn _ | wrIntPend _ | wrCfgSampleRate _ | wrCfgMinRawPulses _ | wrCfgSeekTimeoutMs _
  | wrCfgMinPreambleUs _ | wrCfgMinPulseLenUs _ | wrCfgSignalEndTimeoutUs _ | wrCfgFlags _ | wrRoId _ | wrRoCaps _
  | wrRoSettleUs _ | wrRoStatus _ | wrRoErrInfo _ | wrRoErrData _ | wrRoNowUs _ | wrRoCapturedAt _
  | wrRoSignalStrength _ | wrRoActSampleRate _ | wrRoActMinRawPulses _ | wrRoActSeekTimeoutMs _
  | wrRoActMinPreambleUs _ | wrRoActMinPulseLenUs _ | wrRoActSignalEndTimeoutUs _ | wrRoActFlags _ | rdReg _
  | evDeadlineSeeking | evDeadlineCapturing | evPollEnd | evRadioStep => exact ⟨_, rfl⟩

/-- From the invariant every operation but the radio's step answers next and keeps it. -/
theorem exec_inv {i : Instr} {s : State} (h : BlockInv s) (hw : i.wf s.build.capacity = true) (hi : i ≠ .evRadioStep) :
    ∃ t, exec i s = .next t ∧ BlockInv t :=
  (exec_answers h hw).imp fun _ ht => ⟨ht, effect_inv (exec_effect ht) hi h⟩

/-! ### Phases -/

theorem radioPhase_eq (s : State) : radioPhase s = .next (radioAdvance s) := by
  unfold radioPhase
  split
  · cases hs : s.cap.state <;> simp [runEvent, eventSelector, hs, CapState.code, decodeEvent] <;> rfl
  · rename_i hb; unfold radioAdvance; rw [if_neg hb]

theorem txPhase_eq (s : State) : txPhase s = txAdvance s := by
  unfold txPhase
  split
  · cases hs : s.cap.state <;> simp [runEvent, eventSelector, hs, CapState.code, decodeEvent] <;> rfl
  · rename_i hb
    have : s.tx.phase = .idle := by simpa [txBusy] using hb
    simp [txAdvance, this]

theorem deadlinePhase_eq (s : State) :
    deadlinePhase s =
      if deadlineDue s then
        match s.cap.state with
        | .seeking => .next (seekAbandon s)
        | .capturing => .next (captureTimeout s)
        | _ => .next s
      else .next s := by
  unfold deadlinePhase
  split
  · rename_i hd
    cases hs : s.cap.state <;>
      simp [runEvent, eventSelector, hs, CapState.code, decodeEvent, exec, execEvDeadlineSeeking,
        execEvDeadlineCapturing, deadlineRow, hd]
  · rfl

theorem pollPhase_eq (s : State) :
    pollPhase s = .next (if pollDue s then { s with poll := { s.poll with isOpen := false } } else s) := by
  unfold pollPhase
  split
  · rename_i hp
    cases hs : s.cap.state <;>
      simp [runEvent, eventSelector, hs, CapState.code, decodeEvent, exec, execEvPollEnd, hp]
  · rfl

/-- The edge phase is one edge row, or only the detector's sample. -/
theorem edgePhase_cases (s : State) :
    edgePhase s = .next (sampleEdge s) ∨
      ∃ i, edgePhase s = exec i s ∧ i.wf s.build.capacity = true ∧ i ≠ .evRadioStep ∧ i ≠ .evTxStep := by
  unfold edgePhase
  split
  · refine .inr ?_
    cases hs : s.cap.state <;> cases hl : longInterval s <;>
      simp [runEvent, eventSelector, hs, hl, CapState.code, decodeEvent] <;> exact ⟨_, rfl, rfl, by simp, by simp⟩
  · exact .inl rfl

/-- Phases A1 to B answer next and keep the invariant (R59). -/
theorem blockPhases_inv {s : State} (h : BlockInv s) : ∃ t, blockPhases s = .next t ∧ BlockInv t := by
  obtain ⟨t2, e2, h2⟩ := txAdvance_inv (radioAdvance_phaseInv h.toPhaseInv)
  unfold blockPhases
  rw [radioPhase_eq, andThen_next, txPhase_eq, e2, andThen_next, deadlinePhase_eq]
  have h3 : ∃ t3, (if deadlineDue t2 then
        match t2.cap.state with
        | .seeking => .next (seekAbandon t2)
        | .capturing => .next (captureTimeout t2)
        | _ => .next t2
      else .next t2 : Out) = .next t3 ∧ BlockInv t3 := by
    split
    · split
      · rename_i hs; exact ⟨_, rfl, seekAbandon_inv h2 hs⟩
      · rename_i hs; exact ⟨_, rfl, captureTimeout_inv h2 hs⟩
      · exact ⟨_, rfl, h2⟩
    · exact ⟨_, rfl, h2⟩
  obtain ⟨t3, e3, h3⟩ := h3
  rw [e3, andThen_next, pollPhase_eq, andThen_next]
  have h4 : BlockInv (if pollDue t3 then { t3 with poll := { t3.poll with isOpen := false } } else t3) := by
    split
    · exact h3.of_eq rfl rfl rfl rfl rfl rfl rfl rfl rfl rfl
    · exact h3
  rcases edgePhase_cases (if pollDue t3 then { t3 with poll := { t3.poll with isOpen := false } } else t3) with
    e | ⟨i, e, hw, hi, -⟩
  · exact ⟨_, e, sampleEdge_inv h4⟩
  · rw [e]; exact exec_inv h4 hw hi

/-- One transaction answers next and keeps the invariant (R81). -/
theorem bus_inv {h : BusTxn} {s : State} (hs : BlockInv s) : ∃ t, bus h s = .next t ∧ BlockInv t := by
  unfold bus
  split
  · rename_i hd; exact exec_inv hs (decodeBus_wf hd) (decodeBus_ne_radioStep hd)
  · refine ⟨_, rfl, ?_⟩
    unfold rejectTxn
    split
    · exact raiseErr_inv hs
    · exact (raiseErr_inv (c := .busErr) (a := h.offset) (d := 0#32) hs).of_eq rfl rfl rfl rfl rfl rfl rfl rfl rfl rfl

/-- The end of a tick keeps the invariant (R49, R50). -/
theorem endTick_inv {s : State} (h : BlockInv s) : BlockInv (endTick s) := h.of_eq rfl rfl rfl rfl rfl rfl rfl rfl rfl rfl

/-- Taking an input and sampling it keep the invariant. -/
theorem sampled_inv {s : State} (t : TickInput) (h : BlockInv s) : BlockInv (sampleInputs t (takeInput s)) :=
  h.of_eq rfl rfl rfl rfl rfl rfl rfl rfl rfl rfl

end Sys2Proof.Machine
end

