-- ==== Sys2Proof/Laws/Trace.lean ====
section
/-!
SUPPORT. The output trace: what a pin write adds to it, and that the radio's sequences and the TX engine keep its
safety (R43, R116).
-/
namespace Sys2Proof.Machine

theorem pinsAfter_append (p : Pins) (t u : List TraceEntry) : pinsAfter p (t ++ u) = pinsAfter (pinsAfter p t) u := by
  induction t generalizing p with
  | nil => rfl
  | cons e t ih => exact ih _

theorem exclusiveAlong_append (p : Pins) (t u : List TraceEntry) :
    exclusiveAlong p (t ++ u) = true ↔ exclusiveAlong p t = true ∧ exclusiveAlong (pinsAfter p t) u = true := by
  induction t generalizing p with
  | nil =>
    refine ⟨fun h => ⟨?_, h⟩, fun h => h.2⟩
    cases u with
    | nil => exact h
    | cons e u => simp only [List.nil_append, exclusiveAlong, Bool.and_eq_true] at h ⊢; exact h.1
  | cons e t ih =>
    simp only [List.cons_append, exclusiveAlong, pinsAfter, Bool.and_eq_true, ih, and_assoc]

/-- The trace's invariant reads the trace and the outputs alone. -/
theorem TraceInv.of_eq {s t : State} (h : TraceInv s) (ht : t.trace = s.trace) (hp : t.pins = s.pins) : TraceInv t :=
  ⟨by rw [ht]; exact h.along, by rw [ht, hp]; exact h.present⟩

/-- The outputs at the end of a safe trace are exclusive. -/
theorem TraceInv.exclusive {s : State} (h : TraceInv s) : s.pins.exclusive = true := by
  have := h.along
  rw [← List.append_nil s.trace, exclusiveAlong_append, h.present] at this
  exact this.2

/-- A pin write that leaves the outputs exclusive keeps the trace safe. -/
theorem TraceInv.drivePin {s : State} (h : TraceInv s) {p : Pin} {b : Bool} (he : (s.pins.drive p b).exclusive = true) :
    TraceInv (drivePin p b s) := by
  refine ⟨?_, ?_⟩
  · rw [drivePin_trace, exclusiveAlong_append, h.present]
    simp only [exclusiveAlong, Bool.and_eq_true]
    exact ⟨h.along, h.exclusive, he⟩
  · rw [drivePin_trace, pinsAfter_append, h.present]
    rfl

/-- The data output is no part of R43. -/
theorem TraceInv.driveData {s : State} (h : TraceInv s) (b : Bool) : TraceInv (Machine.drivePin .txData b s) :=
  h.drivePin h.exclusive

/-- Step 1 of any change keeps the trace safe: it only switches off (R111). -/
theorem TraceInv.radioStart {s : State} (h : TraceInv s) (m : RadioMode) (o : Origin) :
    TraceInv (radioStart m o s) := by
  have hx := h.exclusive
  have hs : TraceInv
      { s with
        radio :=
          { mode := s.radio.mode, busy := true, target := m, step := .first, wait := s.build.settleUs, origin := o } } :=
    h.of_eq rfl rfl
  unfold Machine.radioStart
  cases m <;> simp only [stepOnePins, disableRx, disableTx, drivePins] <;>
    first
    | exact hs
    | (refine (hs.drivePin ?_).drivePin ?_ <;> simp_all [Pins.drive, Pins.exclusive] <;> tauto)

/-- The radio's step keeps the trace safe: step 2 switches a role on after step 1 has switched the other off (R111). -/
theorem TraceInv.radioAdvance {s : State} (h : TraceInv s) (hr : RadioInv s) : TraceInv (radioAdvance s) := by
  unfold Machine.radioAdvance
  split
  · rename_i hb
    split
    · split
      · rename_i hf
        have hrun := hr.running hb
        have hx := h.exclusive
        have hs : TraceInv { s with radio := { s.radio with step := .second, wait := s.build.settleUs } } :=
          h.of_eq rfl rfl
        unfold radioSecondStep
        cases ht : s.radio.target <;> simp only [stepTwoPins, enableRx, enableTx, disableTx, drivePins] <;>
          first
          | exact hs
          | (refine (hs.drivePin ?_).drivePin ?_ <;>
              simp_all [Pins.drive, Pins.exclusive, Radio.sequencePins])
      · exact h.of_eq (by simp) (by simp)
    · exact h.of_eq rfl rfl
  · exact h

theorem TraceInv.txRelease {s : State} (h : TraceInv s) : TraceInv (txRelease s) := by
  unfold Machine.txRelease
  split
  · exact h.of_eq rfl rfl
  · exact (TraceInv.of_eq (t := { s with tx := { s.tx with phase := .release } }) h rfl rfl).radioStart _ _

theorem TraceInv.playPulses {e : State → Out} (he : ∀ s t, e s = .next t → TraceInv s → TraceInv t) :
    ∀ (n : Nat) (s t : State), playPulses e n s = .next t → TraceInv s → TraceInv t := by
  have hbegin : ∀ s u, beginPulse s = .next u → TraceInv s → TraceInv u := by
    intro s u hu h
    obtain ⟨-, rfl⟩ := beginPulse_eq_next.1 hu
    exact (TraceInv.of_eq (t := { s with tx := { s.tx with phase := .pulse, wait := segmentTicks s } }) h rfl
      rfl).driveData _
  intro n
  induction n with
  | zero =>
    intro s t ht h
    obtain ⟨u, hu, ht⟩ := andThen_eq_next.1 ht
    have := hbegin s u hu h
    split at ht
    · exact he u t ht this
    · cases ht; exact this
  | succ n ih =>
    intro s t ht h
    obtain ⟨u, hu, ht⟩ := andThen_eq_next.1 ht
    have := hbegin s u hu h
    split at ht
    · exact ih _ t ht (this.of_eq rfl rfl)
    · cases ht; exact this

theorem TraceInv.endTransmission :
    ∀ (n : Nat) (s t : State), endTransmission n s = .next t → TraceInv s → TraceInv t := by
  intro n
  induction n with
  | zero => intro s t ht h; cases ht; exact (h.driveData false).txRelease
  | succ n ih =>
    intro s t ht h
    simp only [Machine.endTransmission] at ht
    split at ht
    · exact TraceInv.playPulses ih _ _ t ht ((h.driveData false).of_eq rfl rfl)
    · cases ht; exact (h.driveData false).of_eq rfl rfl

theorem TraceInv.playTransmission {s t : State} (ht : playTransmission s = .next t) (h : TraceInv s) : TraceInv t :=
  TraceInv.playPulses (TraceInv.endTransmission _) _ _ _ ht h

/-- The TX engine's step keeps the trace safe. -/
theorem TraceInv.txAdvance {s t : State} (ht : txAdvance s = .next t) (h : TraceInv s) : TraceInv t := by
  unfold Machine.txAdvance at ht
  split at ht
  · cases ht; exact h
  · split at ht
    · cases ht; exact h
    · exact TraceInv.playTransmission ht (h.of_eq rfl rfl)
  · simp only [countDown] at ht
    split at ht
    · unfold advancePulse at ht
      split at ht
      · exact TraceInv.playTransmission ht (h.of_eq rfl rfl)
      · exact TraceInv.endTransmission _ _ _ ht (h.of_eq rfl rfl)
    · cases ht; exact h.of_eq rfl rfl
  · simp only [countDown] at ht
    split at ht
    · exact TraceInv.playTransmission ht (h.of_eq rfl rfl)
    · cases ht; exact h.of_eq rfl rfl
  · split at ht
    · cases ht; exact h
    · cases ht; exact h.of_eq rfl rfl

end Sys2Proof.Machine
end

