-- ==== Sys2Proof/Laws/Waveform.lean ====
section
/-!
SUPPORT. The TX engine and the radio's sequences in the words of Safety.lean: a started sequence, a begun half-pulse,
the end of a transmission, and how a segment counts down over ticks.
-/
namespace Sys2Proof.Machine

theorem sub_one_eq_zero_iff (w : Word) : w - 1#32 = 0#32 ↔ w = 1#32 :=
  ⟨fun h => by simpa using congrArg (· + 1#32) h, fun h => by rw [h]; rfl⟩

/-- A sequence as the model starts it is R112's, with R111's pins. -/
theorem radioStart_eq_sequenceStarted (m : RadioMode) (o : Origin) (s : State) :
    radioStart m o s = sequenceStarted m o s := by
  cases m <;>
    simp [radioStart, sequenceStarted, stepOnePins, firstPins, withPins, disableRx, disableTx, drivePins, drivePin]

theorem radioSecondStep_eq (s : State) :
    radioSecondStep s =
      withPins (secondPins s.radio.target)
        { s with radio := { s.radio with step := .second, wait := s.build.settleUs } } := by
  unfold radioSecondStep
  cases s.radio.target <;>
    simp [stepTwoPins, secondPins, withPins, enableRx, enableTx, disableTx, drivePins, drivePin]

/-! ### Half-pulses -/

/-- A half-pulse's ticks fit a word (R7, R193). -/
theorem halfPulseTicks_lt (k : Nat) (s : State) : halfPulseTicks k s < 2 ^ 32 :=
  calc halfPulseTicks k s ≤ 65535 * 65535 := by
        have h1 := (pulse s k).isLt
        have h2 := s.cfg.sampleRate.isLt
        exact Nat.mul_le_mul (by omega) (by omega)
    _ < 2 ^ 32 := by norm_num

theorem toNat_halfPulseTicks (k : Nat) (s : State) : (BitVec.ofNat 32 (halfPulseTicks k s)).toNat = halfPulseTicks k s := by
  rw [BitVec.toNat_ofNat, Nat.mod_eq_of_lt (halfPulseTicks_lt k s)]

theorem halfPulseTicks_eq_zero (k : Nat) (s : State) :
    BitVec.ofNat 32 (halfPulseTicks k s) = 0#32 ↔ halfPulseTicks k s = 0 := by
  rw [← BitVec.toNat_inj, toNat_halfPulseTicks]; rfl

/-- The body of `begin_pulse()` begins half-pulse `tx_idx` (R193). -/
theorem beginPulse_eq_halfPulseBegun {s : State} {r k : Nat} {x : TxEngine} (hp : x.prior = s.tx.prior)
    (hr : x.rep = BitVec.ofNat 16 r) (hk : x.idx = BitVec.ofNat 16 k) (hk16 : k < 2 ^ 16)
    (hc : k ≤ s.build.capacity) : beginPulse { s with tx := x } = .next (halfPulseBegun r k s) := by
  have hi : x.idx.toNat = k := by rw [hk, BitVec.toNat_ofNat]; omega
  have hb : (BitVec.ofNat 16 k).getLsbD 0 = decide (k % 2 = 1) := by
    rw [BitVec.getLsbD_ofNat]; simp [Nat.testBit_zero]
  have hw : (segmentTicks { s with tx := x } : Word) = BitVec.ofNat 32 (halfPulseTicks k s) := by
    unfold segmentTicks halfPulseTicks
    rw [show ({ s with tx := x } : State).tx.idx.toNat = k from hi]
    apply BitVec.eq_of_toNat_eq
    simp [pulse]
  rw [beginPulse_eq_next]
  refine ⟨by simpa only [hi] using hc, ?_⟩
  unfold halfPulseBegun withPins drivePin
  simp only [hw, hp, hr, hk, hb, List.foldl_cons, List.foldl_nil, List.map_cons, List.map_nil]

/-- The state with one tick of its segment left. -/
def lastTick (s : State) : State := { s with tx := { s.tx with wait := 1#32 } }

theorem txAdvance_lastTick {s : State} (h : s.tx.phase = .pulse) :
    txAdvance (lastTick s) = advancePulse { s with tx := { s.tx with wait := 0#32 } } := by
  unfold txAdvance lastTick
  simp only [h, countDown]
  rw [if_pos (show (1#32 : Word) - 1#32 = 0#32 from rfl)]
  rfl

theorem txAdvance_lastTick_gap {s : State} (h : s.tx.phase = .gap) :
    txAdvance (lastTick s) = advanceGap { s with tx := { s.tx with wait := 0#32 } } := by
  unfold txAdvance lastTick
  simp only [h, countDown]
  rw [if_pos (show (1#32 : Word) - 1#32 = 0#32 from rfl)]
  rfl

/-- `begin_pulse()` begins half-pulse `tx_idx`; an empty one ends in the step that begins it (R193, R194). -/
theorem playTransmission_eq {s : State} {r k : Nat} {x : TxEngine} (hp : x.prior = s.tx.prior)
    (hr : x.rep = BitVec.ofNat 16 r) (hk : x.idx = BitVec.ofNat 16 k) (hk16 : k < 2 ^ 16)
    (hc : k ≤ s.buf.pulseCount.toNat) (hcap : k ≤ s.build.capacity) :
    playTransmission { s with tx := x } =
      if halfPulseTicks k s = 0 then txAdvance (lastTick (halfPulseBegun r k s)) else .next (halfPulseBegun r k s) := by
  have hi : x.idx.toNat = k := by rw [hk, BitVec.toNat_ofNat]; omega
  have hb := beginPulse_eq_halfPulseBegun hp hr hk hk16 hcap
  have hwait : (halfPulseBegun r k s).tx.wait = BitVec.ofNat 32 (halfPulseTicks k s) := rfl
  have hbuf : (halfPulseBegun r k s).buf = s.buf := rfl
  have hrep : (halfPulseBegun r k s).tx.rep = BitVec.ofNat 16 r := rfl
  have hidx : (halfPulseBegun r k s).tx.idx.toNat = k := (congrArg BitVec.toNat hk).symm.trans hi
  have hpl : pulsesLeft { s with tx := x } = s.buf.pulseCount.toNat - k := by simp [pulsesLeft, hi]
  have hrl : repeatsLeft { s with tx := x } = repeatsLeft (halfPulseBegun r k s) := by simp [repeatsLeft, hr, hrep, hbuf]
  unfold playTransmission
  rw [hpl, hrl, txAdvance_lastTick rfl]
  by_cases hz : halfPulseTicks k s = 0
  · rw [if_pos hz]
    have hw0 : (halfPulseBegun r k s).tx.wait = 0#32 := by rw [hwait, halfPulseTicks_eq_zero]; exact hz
    have he : ({ (halfPulseBegun r k s).tx with wait := 0#32 } : TxEngine) = (halfPulseBegun r k s).tx := by rw [← hw0]
    rw [show ({ halfPulseBegun r k s with tx := { (halfPulseBegun r k s).tx with wait := 0#32 } } : State) =
      halfPulseBegun r k s by rw [he]]
    unfold advancePulse
    by_cases hlt : k < s.buf.pulseCount.toNat
    · rw [if_pos (by rw [BitVec.lt_def, hidx]; exact hlt)]
      obtain ⟨n, hn⟩ : ∃ n, s.buf.pulseCount.toNat - k = n + 1 := ⟨s.buf.pulseCount.toNat - k - 1, by omega⟩
      rw [hn]
      simp only [playPulses]
      rw [hb, andThen_next, if_pos hw0]
      unfold playTransmission
      congr 1
      have := s.buf.pulseCount.isLt
      simp only [pulsesLeft, hbuf, BitVec.toNat_add, hidx, show (1#16).toNat = 1 from rfl]
      omega
    · rw [if_neg (by rw [BitVec.lt_def, hidx]; exact hlt), show s.buf.pulseCount.toNat - k = 0 by omega]
      simp only [playPulses]
      rw [hb, andThen_next, if_pos hw0]
  · rw [if_neg hz]
    have hw0 : ¬ (halfPulseBegun r k s).tx.wait = 0#32 := by rw [hwait, halfPulseTicks_eq_zero]; exact hz
    cases s.buf.pulseCount.toNat - k <;> simp only [playPulses] <;> rw [hb, andThen_next, if_neg hw0]

/-! ### Ticks of a transmit -/

/-- One tick of the radio and the TX engine alone: the end of a tick, and phases A1 and A2 of the next one (R56). -/
def transmitTick (o : Out) : Out := andThen o fun s => txAdvance (radioAdvance (endTick s))

/-- After n ticks of the radio and the TX engine the outcome is o', and until then the transmit is busy. -/
structure Run (o : Out) (n : Nat) (o' : Out) : Prop where
  final : transmitTick^[n] o = o'
  busy : ∀ k, k < n → ∃ u, transmitTick^[k] o = .next u ∧ txBusy u = true

theorem Run.refl (o : Out) : Run o 0 o := ⟨rfl, fun _ h => absurd h (Nat.not_lt_zero _)⟩

theorem Run.trans {o o' o'' : Out} {n m : Nat} (h : Run o n o') (g : Run o' m o'') : Run o (n + m) o'' := by
  have hadd : ∀ k, transmitTick^[n + k] o = transmitTick^[k] o' := fun k => by
    rw [Nat.add_comm, Function.iterate_add_apply, h.final]
  refine ⟨(hadd m).trans g.final, fun k hk => ?_⟩
  by_cases hlt : k < n
  · exact h.busy k hlt
  · obtain ⟨u, hu⟩ := g.busy (k - n) (by omega)
    rw [← hadd, show n + (k - n) = k by omega] at hu
    exact ⟨u, hu⟩

theorem Run.tick {s : State} {o : Out} (hb : txBusy s = true) (h : transmitTick (.next s) = o) : Run (.next s) 1 o :=
  ⟨h, fun k hk => by obtain rfl : k = 0 := by omega
                     exact ⟨s, rfl, hb⟩⟩

/-- The state n ticks later with nothing changed but the time and the interrupt output. -/
def later (n : Nat) (b : Bool) (s : State) : State :=
  { s with now := s.now + BitVec.ofNat 32 n, ints := { s.ints with irq := b } }

theorem transmitTick_next (s : State) : transmitTick (.next s) = txAdvance (radioAdvance (endTick s)) := rfl

theorem radioAdvance_still {s : State} (h : s.radio.busy = false) : radioAdvance s = s := by
  unfold radioAdvance; rw [if_neg (by simp [h])]

theorem radioAdvance_waits {s : State} (hb : s.radio.busy = true) (hw : s.radio.wait ≠ 1#32) :
    radioAdvance s = { s with radio := { s.radio with wait := s.radio.wait - 1#32 } } := by
  unfold radioAdvance
  rw [if_pos hb, if_neg (by rw [sub_one_eq_zero_iff]; exact hw)]

theorem radioAdvance_first {s : State} (hb : s.radio.busy = true) (hw : s.radio.wait = 1#32)
    (hs : s.radio.step = .first) :
    radioAdvance s =
      withPins (secondPins s.radio.target)
        { s with radio := { s.radio with step := .second, wait := s.build.settleUs } } := by
  unfold radioAdvance
  rw [if_pos hb, if_pos (by rw [hw]; rfl), if_pos hs, radioSecondStep_eq]

theorem radioAdvance_second {s : State} (hb : s.radio.busy = true) (hw : s.radio.wait = 1#32)
    (hs : s.radio.step = .second) : radioAdvance s = radioComplete s := by
  unfold radioAdvance
  rw [if_pos hb, if_pos (by rw [hw]; rfl), if_neg (by simp [hs])]

theorem txAdvance_waits {s : State} (hp : s.tx.phase = .pulse ∨ s.tx.phase = .gap) (hw : s.tx.wait ≠ 1#32) :
    txAdvance s = .next { s with tx := { s.tx with wait := s.tx.wait - 1#32 } } := by
  unfold txAdvance
  rcases hp with hp | hp <;> simp only [hp, countDown] <;> rw [if_neg (by rw [sub_one_eq_zero_iff]; exact hw)]

theorem txAdvance_held {s : State} (hp : s.tx.phase = .acquire ∨ s.tx.phase = .release) (hb : s.radio.busy = true) :
    txAdvance s = .next s := by
  unfold txAdvance
  rcases hp with hp | hp <;> simp [hp, hb]

theorem word_of_toNat {w : Word} {n : Nat} (h : w.toNat = n) : w = BitVec.ofNat 32 n := by rw [← h]; simp

theorem later_endTick (n : Nat) (b : Bool) (s : State) :
    later n b (endTick s) = later (n + 1) b s := by
  unfold later endTick
  simp only [BitVec.add_assoc]
  congr 2
  rw [Nat.add_comm n 1, BitVec.ofNat_add]

/-- A segment counts down over its ticks, to its last one (R195). -/
theorem run_segment : ∀ (n : Nat) (s : State), s.tx.phase = .pulse ∨ s.tx.phase = .gap → s.radio.busy = false →
    s.tx.wait.toNat = n + 1 → ∃ b, Run (.next s) (n + 1) (txAdvance (lastTick (later (n + 1) b s))) := by
  intro n
  induction n with
  | zero =>
    intro s hp hb hw
    have hbusy : txBusy s = true := by rcases hp with hp | hp <;> simp [txBusy, hp]
    refine ⟨irqLevel s, Run.tick hbusy ?_⟩
    rw [transmitTick_next, radioAdvance_still (s := endTick s) hb]
    have h1 : s.tx.wait = 1#32 := word_of_toNat hw
    congr 1
    unfold lastTick later endTick
    simp only [← h1]
  | succ n ih =>
    intro s hp hb hw
    have hbusy : txBusy s = true := by rcases hp with hp | hp <;> simp [txBusy, hp]
    have hne : s.tx.wait ≠ 1#32 := fun h => by rw [h] at hw; simp at hw
    have hsub : (s.tx.wait - 1#32).toNat = n + 1 := by
      have := s.tx.wait.isLt
      rw [BitVec.toNat_sub, show (1#32 : Word).toNat = 1 from rfl]; omega
    have htick : transmitTick (.next s) = .next { endTick s with tx := { s.tx with wait := s.tx.wait - 1#32 } } := by
      rw [transmitTick_next, radioAdvance_still (s := endTick s) hb]
      exact txAdvance_waits hp hne
    obtain ⟨b, hrun⟩ := ih { endTick s with tx := { s.tx with wait := s.tx.wait - 1#32 } } hp hb hsub
    refine ⟨b, ?_⟩
    have := (Run.tick hbusy htick).trans hrun
    rw [Nat.add_comm 1 (n + 1)] at this
    convert this using 2
    rw [← later_endTick]
    rfl

/-- A settle counts down over its ticks while the TX engine waits for the radio, to its last tick (R113, R195). -/
theorem run_settle : ∀ (n : Nat) (s : State), s.tx.phase = .acquire ∨ s.tx.phase = .release → s.radio.busy = true →
    s.radio.wait.toNat = n + 1 →
    ∃ b, Run (.next s) (n + 1)
      (txAdvance (radioAdvance (later (n + 1) b { s with radio := { s.radio with wait := 1#32 } }))) := by
  intro n
  induction n with
  | zero =>
    intro s hp hb hw
    have hbusy : txBusy s = true := by rcases hp with hp | hp <;> simp [txBusy, hp]
    refine ⟨irqLevel s, Run.tick hbusy ?_⟩
    have h1 : s.radio.wait = 1#32 := word_of_toNat hw
    rw [transmitTick_next]
    congr 2
    unfold later endTick
    simp only [← h1]
  | succ n ih =>
    intro s hp hb hw
    have hbusy : txBusy s = true := by rcases hp with hp | hp <;> simp [txBusy, hp]
    have hne : s.radio.wait ≠ 1#32 := fun h => by rw [h] at hw; simp at hw
    have hsub : (s.radio.wait - 1#32).toNat = n + 1 := by
      have := s.radio.wait.isLt
      rw [BitVec.toNat_sub, show (1#32 : Word).toNat = 1 from rfl]; omega
    have htick : transmitTick (.next s) =
        .next { endTick s with radio := { s.radio with wait := s.radio.wait - 1#32 } } := by
      rw [transmitTick_next, radioAdvance_waits (s := endTick s) hb hne]
      exact txAdvance_held hp hb
    obtain ⟨b, hrun⟩ := ih { endTick s with radio := { s.radio with wait := s.radio.wait - 1#32 } } hp hb hsub
    refine ⟨b, ?_⟩
    have := (Run.tick hbusy htick).trans hrun
    rw [Nat.add_comm 1 (n + 1)] at this
    convert this using 3
    rw [← later_endTick]
    rfl

/-- Half-pulse k plays for its ticks, none among them (R193, R195). -/
theorem run_halfPulse {s : State} {r k : Nat} {x : TxEngine} (hp : x.prior = s.tx.prior)
    (hr : x.rep = BitVec.ofNat 16 r) (hk : x.idx = BitVec.ofNat 16 k) (hk16 : k < 2 ^ 16)
    (hc : k ≤ s.buf.pulseCount.toNat) (hcap : s.buf.pulseCount.toNat ≤ s.build.capacity) (hb : s.radio.busy = false) :
    ∃ b, Run (playTransmission { s with tx := x }) (halfPulseTicks k s)
      (txAdvance (lastTick (later (halfPulseTicks k s) b (halfPulseBegun r k s)))) := by
  rw [playTransmission_eq hp hr hk hk16 hc (hc.trans hcap)]
  split
  · rename_i hz
    refine ⟨s.ints.irq, ?_⟩
    rw [hz]
    convert Run.refl _ using 3
    unfold later
    simp [halfPulseBegun, withPins]
  · rename_i hz
    obtain ⟨n, hn⟩ : ∃ n, halfPulseTicks k s = n + 1 := ⟨halfPulseTicks k s - 1, by omega⟩
    rw [hn]
    exact run_segment n _ (.inl rfl) hb (by rw [← hn]; exact toNat_halfPulseTicks k s)

/-! ### Transmissions -/

/-- The trace entries of data-output writes counted from tick t₀. -/
def dataFrom (t₀ : Word) (ws : List (Nat × Bool)) : List TraceEntry :=
  traceFrom t₀ (ws.map fun w => (w.1, Pin.txData, w.2))

theorem dataFrom_append (t₀ : Word) (a b : List (Nat × Bool)) : dataFrom t₀ (a ++ b) = dataFrom t₀ a ++ dataFrom t₀ b := by
  simp [dataFrom, traceFrom]

/-- What a state of a playing transmit keeps of an earlier one. -/
structure Playing (s u : State) : Prop where
  frame : u = { s with tx := u.tx, pins := u.pins, trace := u.trace, now := u.now, ints := u.ints }
  pending : u.ints.pending = s.ints.pending
  enable : u.ints.enable = s.ints.enable
  prior : u.tx.prior = s.tx.prior

theorem Playing.build {s u : State} (h : Playing s u) : u.build = s.build := by rw [h.frame]
theorem Playing.buf {s u : State} (h : Playing s u) : u.buf = s.buf := by rw [h.frame]
theorem Playing.mem {s u : State} (h : Playing s u) : u.mem = s.mem := by rw [h.frame]
theorem Playing.cfg {s u : State} (h : Playing s u) : u.cfg = s.cfg := by rw [h.frame]
theorem Playing.radio {s u : State} (h : Playing s u) : u.radio = s.radio := by rw [h.frame]

theorem Playing.refl (s : State) : Playing s s := ⟨rfl, rfl, rfl, rfl⟩

theorem Playing.trans {s u v : State} (h : Playing s u) (g : Playing u v) : Playing s v :=
  ⟨by have := g.frame; rw [h.frame] at this; exact this, g.pending.trans h.pending, g.enable.trans h.enable,
    g.prior.trans h.prior⟩

theorem Playing.begun (r k n : Nat) (b : Bool) (s : State) (w : Word) :
    Playing s
      { later n b (halfPulseBegun r k s) with tx := { (later n b (halfPulseBegun r k s)).tx with wait := w } } :=
  ⟨rfl, rfl, rfl, rfl⟩

/-- A transmission from half-pulse k on plays its words and reaches its end (R193, R194, R197). The write that ends it
is the last of transmissionWrites. -/
theorem run_transmission (t₀ : Word) {r : Nat} (hr16 : r < 2 ^ 16) :
    ∀ (vs : List Half) (k τ : Nat) (s : State) (x : TxEngine), vs ≠ [] → k + vs.length = s.buf.pulseCount.toNat + 1 →
      (∀ (j : Nat) (h : j < vs.length), vs[j] = pulse s (k + j)) → s.buf.pulseCount.toNat ≤ s.build.capacity →
      s.radio.busy = false → x.prior = s.tx.prior → x.rep = BitVec.ofNat 16 r → x.idx = BitVec.ofNat 16 k →
      s.now = t₀ + BitVec.ofNat 32 τ →
      ∃ u, Run (playTransmission { s with tx := x }) (vs.map fun v => v.toNat * s.cfg.sampleRate.toNat).sum
          (endTransmission (s.buf.repeats.toNat - r) u) ∧
        Playing s u ∧ u.tx.rep = BitVec.ofNat 16 r ∧
        u.now = t₀ + BitVec.ofNat 32 (τ + (vs.map fun v => v.toNat * s.cfg.sampleRate.toNat).sum) ∧
        (drivePin .txData false u).trace =
          s.trace ++ dataFrom t₀ (transmissionWrites s.cfg.sampleRate.toNat k τ vs) := by
  intro vs
  induction vs with
  | nil => intro k τ s x h; exact absurd rfl h
  | cons v vs ih =>
    intro k τ s x _ hlen hvs hcap hb hp hr hk hnow
    have hc16 := s.buf.pulseCount.isLt
    simp only [List.length_cons] at hlen
    have hkc : k ≤ s.buf.pulseCount.toNat := by omega
    have hk16 : k < 2 ^ 16 := by omega
    have hv : v = pulse s k := hvs 0 (by simp)
    have hticks : halfPulseTicks k s = v.toNat * s.cfg.sampleRate.toNat := by rw [hv]; rfl
    obtain ⟨b, hrun⟩ := run_halfPulse hp hr hk hk16 hkc hcap hb
    rw [txAdvance_lastTick rfl, hticks] at hrun
    generalize hw : ({ later (v.toNat * s.cfg.sampleRate.toNat) b (halfPulseBegun r k s) with
      tx := { (later (v.toNat * s.cfg.sampleRate.toNat) b (halfPulseBegun r k s)).tx with wait := 0#32 } } : State) = w
      at hrun
    have hplay : Playing s w := by rw [← hw]; exact Playing.begun _ _ _ _ _ _
    have hwnow : w.now = t₀ + BitVec.ofNat 32 (τ + v.toNat * s.cfg.sampleRate.toNat) := by
      rw [← hw, BitVec.ofNat_add, ← BitVec.add_assoc, ← hnow]; rfl
    have hwtrace : w.trace = s.trace ++ dataFrom t₀ [(τ, decide (k % 2 = 1))] := by
      rw [← hw]; unfold dataFrom traceFrom; simp [later, halfPulseBegun, withPins, hnow]
    have hidx : w.tx.idx.toNat = k := by
      rw [← hw]
      show (BitVec.ofNat 16 k).toNat = k
      rw [BitVec.toNat_ofNat]; omega
    have hrep : w.tx.rep = BitVec.ofNat 16 r := by rw [← hw]; rfl
    have hbuf : w.buf = s.buf := by rw [← hw]; rfl
    have hcfg : w.cfg = s.cfg := by rw [← hw]; rfl
    have hbuild : w.build = s.build := by rw [← hw]; rfl
    have hradio : w.radio = s.radio := by rw [← hw]; rfl
    have hmem : w.mem = s.mem := by rw [← hw]; rfl
    clear hw
    unfold advancePulse at hrun
    cases vs with
    | nil =>
      simp only [List.length_nil] at hlen
      rw [if_neg (by rw [BitVec.lt_def, hidx, hbuf]; omega)] at hrun
      have hleft : repeatsLeft w = s.buf.repeats.toNat - r := by
        unfold repeatsLeft
        rw [hbuf, hrep, BitVec.toNat_ofNat, Nat.mod_eq_of_lt hr16]
      rw [hleft] at hrun
      refine ⟨w, by simpa using hrun, hplay, hrep, by simpa using hwnow, ?_⟩
      rw [drivePin_trace, hwtrace, hwnow]
      unfold dataFrom traceFrom
      simp [transmissionWrites]
    | cons v' vs =>
      simp only [List.length_cons] at hlen
      rw [if_pos (by rw [BitVec.lt_def, hidx, hbuf]; omega)] at hrun
      obtain ⟨u, hu, hplay', hrep', hnow', htrace'⟩ := ih (k + 1) (τ + v.toNat * s.cfg.sampleRate.toNat) w
        { w.tx with idx := w.tx.idx + 1#16 } (by simp) (by simp only [List.length_cons, hbuf]; omega)
        (fun j hj => by
          have := hvs (j + 1) (by simpa using hj)
          simp only [List.getElem_cons_succ] at this
          rw [this, show k + (j + 1) = k + 1 + j by omega]
          unfold pulse; rw [hmem])
        (by rw [hbuf, hbuild]; exact hcap) (by rw [hradio]; exact hb) rfl hrep
        (by rw [BitVec.ofNat_add]; show w.tx.idx + 1#16 = _; congr 1; apply BitVec.eq_of_toNat_eq; rw [hidx, BitVec.toNat_ofNat]; omega)
        hwnow
      rw [show w.buf.repeats.toNat - r = s.buf.repeats.toNat - r by rw [hbuf],
        show (List.map (fun v : Half => v.toNat * w.cfg.sampleRate.toNat) (v' :: vs)).sum =
          (List.map (fun v : Half => v.toNat * s.cfg.sampleRate.toNat) (v' :: vs)).sum by rw [hcfg]] at hu
      rw [hcfg] at hnow' htrace'
      refine ⟨u, ?_, hplay.trans hplay', hrep', ?_, ?_⟩
      · rw [List.map_cons, List.sum_cons]; exact hrun.trans hu
      · simp only [hnow', List.map_cons, List.sum_cons, Nat.add_assoc]
      · rw [htrace', hwtrace, List.append_assoc, ← dataFrom_append]
        rfl

/-- The pause between two transmissions, none among them, and the next transmission (R194, R195). -/
theorem run_pause {u : State} {n : Nat} (hn : u.tx.rep.toNat + (n + 1) = u.buf.repeats.toNat)
    (hb : u.radio.busy = false) :
    ∃ b w, Run (endTransmission (n + 1) u) (u.buf.interRepeatDelayMs.toNat * 1000)
      (playTransmission
        { later (u.buf.interRepeatDelayMs.toNat * 1000) b (drivePin .txData false u) with
          tx := { u.tx with phase := .gap, wait := w, rep := u.tx.rep + 1#16, idx := 1#16 } }) := by
  have hd := u.buf.interRepeatDelayMs.isLt
  have hN := u.buf.repeats.isLt
  have hpause : pauseTicks (drivePin .txData false u) = BitVec.ofNat 32 (u.buf.interRepeatDelayMs.toNat * 1000) := by
    apply BitVec.eq_of_toNat_eq; simp [pauseTicks]
  have hnat : (BitVec.ofNat 32 (u.buf.interRepeatDelayMs.toNat * 1000)).toNat = u.buf.interRepeatDelayMs.toNat * 1000 := by
    rw [BitVec.toNat_ofNat, Nat.mod_eq_of_lt (by omega)]
  simp only [endTransmission, hpause]
  split
  · rename_i hz
    rw [hz] at hnat
    have hD0 : u.buf.interRepeatDelayMs.toNat * 1000 = 0 := hnat.symm
    refine ⟨u.ints.irq, 0#32, ?_⟩
    rw [hD0]
    convert Run.refl _ using 2
    unfold playTransmission
    have hl : n = repeatsLeft
        (nextTransmission
          { drivePin .txData false u with tx := { (drivePin .txData false u).tx with phase := .gap, wait := 0#32 } }) := by
      show n = u.buf.repeats.toNat - (u.tx.rep + 1#16).toNat
      rw [BitVec.toNat_add, show (1#16).toNat = 1 from rfl]
      omega
    conv_rhs => rw [hl]
    have hlater : later 0 u.ints.irq (drivePin .txData false u) = drivePin .txData false u := by
      simp [later, drivePin]
    rw [hlater]
    rfl
  · rename_i hz
    obtain ⟨m, hm⟩ : ∃ m, u.buf.interRepeatDelayMs.toNat * 1000 = m + 1 :=
      ⟨u.buf.interRepeatDelayMs.toNat * 1000 - 1, by
        have : u.buf.interRepeatDelayMs.toNat * 1000 ≠ 0 := fun h => hz (by rw [h])
        omega⟩
    rw [hm] at hnat ⊢
    obtain ⟨b, hrun⟩ := run_segment m
      { drivePin .txData false u with
        tx := { (drivePin .txData false u).tx with phase := .gap, wait := BitVec.ofNat 32 (m + 1) } } (.inr rfl) hb hnat
    refine ⟨b, 0#32, ?_⟩
    rw [txAdvance_lastTick_gap rfl] at hrun
    exact hrun

/-- Transmission r and the n after it play, and the train is released (R194, R196, R197). -/
theorem run_train (t₀ : Word) (vs : List Half) (hne : vs ≠ []) :
    ∀ (n r τ : Nat) (s : State) (x : TxEngine), vs.length = s.buf.pulseCount.toNat →
      (∀ (j : Nat) (h : j < vs.length), vs[j] = pulse s (1 + j)) → s.buf.pulseCount.toNat ≤ s.build.capacity →
      s.radio.busy = false → r + n = s.buf.repeats.toNat → x.prior = s.tx.prior → x.rep = BitVec.ofNat 16 r →
      x.idx = 1#16 → s.now = t₀ + BitVec.ofNat 32 τ →
      ∃ u, Run (playTransmission { s with tx := x })
          ((n + 1) * (vs.map fun v => v.toNat * s.cfg.sampleRate.toNat).sum +
            n * (s.buf.interRepeatDelayMs.toNat * 1000))
          (.next (txRelease u)) ∧
        Playing s u ∧
        u.now =
          t₀ + BitVec.ofNat 32
            (τ + ((n + 1) * (vs.map fun v => v.toNat * s.cfg.sampleRate.toNat).sum +
              n * (s.buf.interRepeatDelayMs.toNat * 1000))) ∧
        u.trace =
          s.trace ++ dataFrom t₀
            (trainWrites s.cfg.sampleRate.toNat (vs.map fun v => v.toNat * s.cfg.sampleRate.toNat).sum
              (s.buf.interRepeatDelayMs.toNat * 1000) vs (n + 1) τ) := by
  intro n
  induction n with
  | zero =>
    intro r τ s x hlen hvs hcap hb hr hp hrep hidx hnow
    have hN := s.buf.repeats.isLt
    obtain ⟨u, hu, hplay, -, hnow', htrace⟩ := run_transmission t₀ (r := r) (by omega) vs 1 τ s x hne (by omega) hvs
      hcap hb hp hrep hidx hnow
    rw [show s.buf.repeats.toNat - r = 0 by omega] at hu
    refine ⟨drivePin .txData false u, by simpa [endTransmission] using hu, hplay.trans ⟨rfl, rfl, rfl, rfl⟩,
      by simpa using hnow', ?_⟩
    rw [htrace]
    simp [trainWrites]
  | succ n ih =>
    intro r τ s x hlen hvs hcap hb hr hp hrep hidx hnow
    have hN := s.buf.repeats.isLt
    generalize hL : (vs.map fun v => v.toNat * s.cfg.sampleRate.toNat).sum = L
    generalize hD : s.buf.interRepeatDelayMs.toNat * 1000 = D
    obtain ⟨u, hu, hplay, hrep', hnow', htrace⟩ := run_transmission t₀ (r := r) (by omega) vs 1 τ s x hne (by omega) hvs
      hcap hb hp hrep hidx hnow
    rw [hL] at hu hnow'
    have hbuf : u.buf = s.buf := hplay.buf
    have hcfg : u.cfg = s.cfg := hplay.cfg
    have hmem : u.mem = s.mem := hplay.mem
    have hbuild : u.build = s.build := hplay.build
    have hradio : u.radio = s.radio := hplay.radio
    have hr16 : u.tx.rep.toNat = r := by rw [hrep', BitVec.toNat_ofNat]; omega
    obtain ⟨b, w, hpause⟩ := run_pause (u := u) (n := n) (by rw [hr16, hbuf]; omega) (by rw [hradio]; exact hb)
    rw [show u.buf.interRepeatDelayMs.toNat * 1000 = D by rw [hbuf, hD]] at hpause
    generalize hv : later D b (drivePin .txData false u) = v at hpause
    have hplay' : Playing u v := by rw [← hv]; exact ⟨rfl, rfl, rfl, rfl⟩
    have hvnow : v.now = t₀ + BitVec.ofNat 32 (τ + L + D) := by
      rw [BitVec.ofNat_add, ← BitVec.add_assoc, ← hnow', ← hv]; rfl
    have hvtrace : v.trace = s.trace ++ dataFrom t₀ (transmissionWrites s.cfg.sampleRate.toNat 1 τ vs) := by
      rw [← htrace, ← hv]; rfl
    have hvtx : v.tx = u.tx := by rw [← hv]; rfl
    clear hv
    have hplay2 := hplay.trans hplay'
    have hbuf2 : v.buf = s.buf := hplay2.buf
    have hcfg2 : v.cfg = s.cfg := hplay2.cfg
    have hmem2 : v.mem = s.mem := hplay2.mem
    have hbuild2 : v.build = s.build := hplay2.build
    have hradio2 : v.radio = s.radio := hplay2.radio
    obtain ⟨z, hz, hplayz, hnowz, htracez⟩ := ih (r + 1) (τ + L + D) v
      { u.tx with phase := .gap, wait := w, rep := u.tx.rep + 1#16, idx := 1#16 }
      (by rw [hbuf2]; exact hlen) (fun j hj => by rw [hvs j hj]; unfold pulse; rw [hmem2])
      (by rw [hbuf2, hbuild2]; exact hcap) (by rw [hradio2]; exact hb) (by rw [hbuf2]; omega) (by rw [hvtx])
      (by rw [BitVec.ofNat_add, hrep']) rfl hvnow
    have eL : (vs.map fun v' => v'.toNat * v.cfg.sampleRate.toNat).sum = L := by rw [hcfg2, hL]
    have eD : v.buf.interRepeatDelayMs.toNat * 1000 = D := by rw [hbuf2, hD]
    rw [eL, eD] at hz hnowz htracez
    refine ⟨z, ?_, hplay2.trans hplayz, ?_, ?_⟩
    · rw [show s.buf.repeats.toNat - r = n + 1 by omega] at hu
      have := (hu.trans hpause).trans hz
      rw [show (n + 1 + 1) * L + (n + 1) * D = L + D + ((n + 1) * L + n * D) by ring]
      exact this
    · rw [hnowz, show τ + L + D + ((n + 1) * L + n * D) = τ + ((n + 1 + 1) * L + (n + 1) * D) by ring]
    · rw [htracez, hvtrace, hcfg2, List.append_assoc, ← dataFrom_append]
      rfl

/-! ### The radio's sequence -/

/-- A sequence of the TX engine's takes two settles, the pins of step 2 are written after the first, and the mode is
the target's after the second (R112 to R114, R117). -/
theorem run_sequence (m : RadioMode) {s : State} (hp : s.tx.phase = .acquire ∨ s.tx.phase = .release)
    (hs : s.build.settleUs ≠ 0#32) :
    ∃ u, Run (.next (sequenceStarted m .tx s)) (2 * s.build.settleUs.toNat) (txAdvance u) ∧
      u = { s with radio := u.radio, pins := u.pins, trace := u.trace, now := u.now, ints := u.ints } ∧
      u.radio.mode = m ∧ u.radio.busy = false ∧ u.ints.pending = s.ints.pending ∧
      u.now = s.now + BitVec.ofNat 32 (2 * s.build.settleUs.toNat) ∧
      u.trace =
        s.trace ++ traceFrom s.now (pinsAt 0 (firstPins m) ++ pinsAt s.build.settleUs.toNat (secondPins m)) := by
  obtain ⟨n, hn⟩ : ∃ n, s.build.settleUs.toNat = n + 1 :=
    ⟨s.build.settleUs.toNat - 1, by
      have : s.build.settleUs.toNat ≠ 0 := fun h => hs (BitVec.eq_of_toNat_eq h)
      omega⟩
  obtain ⟨b, h1⟩ := run_settle n (sequenceStarted m .tx s) hp rfl hn
  have e1 : radioAdvance
      (later (n + 1) b
        { sequenceStarted m .tx s with radio := { (sequenceStarted m .tx s).radio with wait := 1#32 } }) =
      withPins (secondPins m)
        { later (n + 1) b (sequenceStarted m .tx s) with
          radio := { (sequenceStarted m .tx s).radio with step := .second, wait := s.build.settleUs } } := by
    exact radioAdvance_first rfl rfl rfl
  rw [(congrArg txAdvance e1).trans (txAdvance_held hp rfl)] at h1
  obtain ⟨b2, h2⟩ := run_settle n
    (withPins (secondPins m)
        { later (n + 1) b (sequenceStarted m .tx s) with
          radio := { (sequenceStarted m .tx s).radio with step := .second, wait := s.build.settleUs } }) hp rfl hn
  have h3 := h1.trans h2
  rw [congrArg txAdvance (radioAdvance_second rfl rfl rfl)] at h3
  rw [hn, Nat.two_mul]
  refine ⟨_, h3, rfl, rfl, rfl, rfl, ?_, ?_⟩
  · rw [BitVec.ofNat_add (n + 1), ← BitVec.add_assoc]; rfl
  · show ((s.trace ++ _) ++ _ : List TraceEntry) = _
    rw [List.append_assoc]
    congr 1
    unfold traceFrom pinsAt
    simp [later, sequenceStarted, withPins, Function.comp_def]

end Sys2Proof.Machine
end

