-- ==== Sys2Proof/Laws/Errors.lean ====
section
/-!
SUPPORT. The error record and the block: no operation of the capture engine, the radio or the TX engine reads it, so
each does the same whatever the record is (R232).
-/
namespace Sys2Proof.Machine

/-- The state with another error record. -/
def withErrs (e : Errors) (s : State) : State := { s with errs := e }

/-- The outcome with another error record in its next state. -/
def outErrs (e : Errors) : Out → Out
  | .next s => .next (withErrs e s)
  | .fault r => .fault r
  | .refused r => .refused r

theorem andThen_outErrs (e : Errors) (o : Out) {f : State → Out} (hf : ∀ s, f (withErrs e s) = outErrs e (f s)) :
    andThen (outErrs e o) f = outErrs e (andThen o f) := by
  cases o <;> simp [outErrs, andThen, hf]

/-! ### The capture engine -/

theorem armDeadline_withErrs (e : Errors) (s : State) : armDeadline (withErrs e s) = withErrs e (armDeadline s) := by
  unfold armDeadline
  rw [show adaptiveGap (withErrs e s) = adaptiveGap s from rfl]
  cases adaptiveGap s <;> rfl

theorem finish_withErrs (e : Errors) (r : EndReason) (s : State) :
    finish r (withErrs e s) = withErrs e (finish r s) := by
  unfold finish withErrs
  simp only
  split <;> rfl

theorem closeOrArm_withErrs (e : Errors) (s : State) : closeOrArm (withErrs e s) = withErrs e (closeOrArm s) := by
  unfold closeOrArm
  rw [finish_withErrs, armDeadline_withErrs]
  exact (apply_ite (withErrs e) _ _ _).symm

theorem storePulse_withErrs (e : Errors) (w : Word) (s : State) :
    storePulse w (withErrs e s) = outErrs e (storePulse w s) := by
  unfold storePulse setPulse withErrs
  simp only
  split <;> rfl

theorem startSeeking_withErrs (e : Errors) (s : State) : startSeeking (withErrs e s) = withErrs e (startSeeking s) := by
  unfold startSeeking withErrs
  simp only
  split <;> rfl

theorem seekCommit_withErrs (e : Errors) (s : State) : seekCommit (withErrs e s) = outErrs e (seekCommit s) := by
  unfold seekCommit
  rw [show glitch (withErrs e s) (seekWidth (withErrs e s)) = glitch s (seekWidth s) from rfl,
    show seekWidth (withErrs e s) = seekWidth s from rfl,
    show beginCapture (withErrs e s) = withErrs e (beginCapture s) from rfl, armDeadline_withErrs, storePulse_withErrs]
  split
  · rfl
  · exact andThen_outErrs e _ fun s => congrArg Host.Outcome.next (closeOrArm_withErrs e s)

theorem acceptPulse_withErrs (e : Errors) (s : State) : acceptPulse (withErrs e s) = outErrs e (acceptPulse s) := by
  unfold acceptPulse
  rw [show pulseWidth (withErrs e s) = pulseWidth s from rfl, storePulse_withErrs]
  exact andThen_outErrs e _ fun s =>
    congrArg Host.Outcome.next (closeOrArm_withErrs e { s with cap := { s.cap with lastEdge := s.now } })

theorem edgeRow_withErrs (e : Errors) (c : CapState) (l : Bool) {f : State → Out}
    (hf : ∀ s, f (withErrs e s) = outErrs e (f s)) (s : State) :
    edgeRow c l f (withErrs e s) = outErrs e (edgeRow c l f s) := by
  unfold edgeRow
  rw [show (edgeObserved (withErrs e s) && decide ((withErrs e s).cap.state = c) &&
      (longInterval (withErrs e s) == l)) =
    (edgeObserved s && decide (s.cap.state = c) && (longInterval s == l)) from rfl]
  split
  · exact hf (sampleEdge s)
  · rfl

/-! ### The radio and the TX engine -/

theorem radioStart_withErrs (e : Errors) (m : RadioMode) (o : Origin) (s : State) :
    radioStart m o (withErrs e s) = withErrs e (radioStart m o s) := by
  rw [radioStart_eq_sequenceStarted, radioStart_eq_sequenceStarted]
  rfl

theorem radioAdvance_withErrs (e : Errors) (s : State) : radioAdvance (withErrs e s) = withErrs e (radioAdvance s) := by
  unfold radioAdvance withErrs
  simp only
  split
  · split
    · split
      · rw [radioSecondStep_eq, radioSecondStep_eq]; rfl
      · unfold radioComplete radioDone
        simp only
        cases s.radio.origin <;> rfl
    · rfl
  · rfl

theorem beginPulse_withErrs (e : Errors) (s : State) : beginPulse (withErrs e s) = outErrs e (beginPulse s) := by
  unfold beginPulse withErrs
  simp only
  split <;> rfl

theorem txRelease_withErrs (e : Errors) (s : State) : txRelease (withErrs e s) = withErrs e (txRelease s) := by
  unfold txRelease
  split
  · rename_i h; rw [if_pos (show s.tx.prior = .tx from h)]; rfl
  · rename_i h
    rw [if_neg (show ¬ s.tx.prior = .tx from h)]
    exact radioStart_withErrs e _ _ { s with tx := { s.tx with phase := .release } }

theorem playPulses_withErrs (e : Errors) {f : State → Out} (hf : ∀ s, f (withErrs e s) = outErrs e (f s)) :
    ∀ (n : Nat) (s : State), playPulses f n (withErrs e s) = outErrs e (playPulses f n s) := by
  intro n
  induction n with
  | zero =>
    intro s
    simp only [playPulses]
    rw [beginPulse_withErrs]
    refine andThen_outErrs e _ fun s => ?_
    by_cases h : s.tx.wait = 0#32
    · rw [if_pos h, if_pos (show (withErrs e s).tx.wait = 0#32 from h)]; exact hf s
    · rw [if_neg h, if_neg (show ¬ (withErrs e s).tx.wait = 0#32 from h)]; rfl
  | succ n ih =>
    intro s
    simp only [playPulses]
    rw [beginPulse_withErrs]
    refine andThen_outErrs e _ fun s => ?_
    by_cases h : s.tx.wait = 0#32
    · rw [if_pos h, if_pos (show (withErrs e s).tx.wait = 0#32 from h)]
      exact ih { s with tx := { s.tx with idx := s.tx.idx + 1#16 } }
    · rw [if_neg h, if_neg (show ¬ (withErrs e s).tx.wait = 0#32 from h)]; rfl

theorem endTransmission_withErrs (e : Errors) :
    ∀ (n : Nat) (s : State), endTransmission n (withErrs e s) = outErrs e (endTransmission n s) := by
  intro n
  induction n with
  | zero => intro s; exact congrArg Host.Outcome.next (txRelease_withErrs e (drivePin .txData false s))
  | succ n ih =>
    intro s
    simp only [endTransmission]
    by_cases h : pauseTicks (drivePin .txData false s) = 0#32
    · rw [if_pos h, if_pos (show pauseTicks (drivePin .txData false (withErrs e s)) = 0#32 from h)]
      exact playPulses_withErrs e ih _
        (nextTransmission
          { drivePin .txData false s with
            tx := { (drivePin .txData false s).tx with phase := .gap, wait := pauseTicks (drivePin .txData false s) } })
    · rw [if_neg h, if_neg (show ¬ pauseTicks (drivePin .txData false (withErrs e s)) = 0#32 from h)]
      rfl

theorem playTransmission_withErrs (e : Errors) (s : State) :
    playTransmission (withErrs e s) = outErrs e (playTransmission s) :=
  playPulses_withErrs e (endTransmission_withErrs e _) _ s

theorem countDown_withErrs (e : Errors) {f : State → Out} (hf : ∀ s, f (withErrs e s) = outErrs e (f s)) (s : State) :
    countDown f (withErrs e s) = outErrs e (countDown f s) := by
  simp only [countDown]
  by_cases h : s.tx.wait - 1#32 = 0#32
  · rw [if_pos h, if_pos (show (withErrs e s).tx.wait - 1#32 = 0#32 from h)]
    exact hf { s with tx := { s.tx with wait := s.tx.wait - 1#32 } }
  · rw [if_neg h, if_neg (show ¬ (withErrs e s).tx.wait - 1#32 = 0#32 from h)]
    rfl

theorem advancePulse_withErrs (e : Errors) (s : State) : advancePulse (withErrs e s) = outErrs e (advancePulse s) := by
  unfold advancePulse
  by_cases h : s.tx.idx < s.buf.pulseCount
  · rw [if_pos h, if_pos (show (withErrs e s).tx.idx < (withErrs e s).buf.pulseCount from h)]
    exact playTransmission_withErrs e { s with tx := { s.tx with idx := s.tx.idx + 1#16 } }
  · rw [if_neg h, if_neg (show ¬ (withErrs e s).tx.idx < (withErrs e s).buf.pulseCount from h)]
    exact endTransmission_withErrs e _ s

/-- The TX engine's step does the same whatever the error record is. -/
theorem txAdvance_withErrs (e : Errors) (s : State) : txAdvance (withErrs e s) = outErrs e (txAdvance s) := by
  unfold txAdvance
  rw [show (withErrs e s).tx.phase = s.tx.phase from rfl, show (withErrs e s).radio.busy = s.radio.busy from rfl]
  cases s.tx.phase <;> simp only
  · rfl
  · split
    · rfl
    · exact playTransmission_withErrs e { s with tx := { s.tx with rep := 1#16, idx := 1#16 } }
  · exact countDown_withErrs e (advancePulse_withErrs e) s
  · exact countDown_withErrs e (fun s => playTransmission_withErrs e (nextTransmission s)) s
  · split <;> rfl

end Sys2Proof.Machine
end

