-- ==== Sys2Proof/Laws/PerInstr.lean ====
section
/-!
SUPPORT. Statements made of every operation, one lemma each: RoundTrip says that an operation well formed for capacity C
is what the decoder for capacity C reads from its encoding (R80, R99).
-/
namespace Sys2Proof.Laws.RoundTrip

/-- Decoding the encoding gives the operation back, with every operand, for every capacity it is well formed for. -/
def Statement (i : Instr) : Prop := ∀ capacity, i.wf capacity = true → decode capacity (encode i) = .ok i

/-! ### Shared parts -/

/-- Every register stands at an aligned offset below the window, and is the register at its offset (R82). -/
theorem reg_offset (r : Reg) :
    r.offset.extractLsb' 0 2 = 0#2 ∧ r.offset.getLsbD 13 = false ∧ regAt r.offset = some r := by
  cases r <;> decide

/-- A transaction to a register decodes to the register's operation. -/
theorem of_reg (we : Bool) (r : Reg) (data : Word) (capacity : Nat) :
    decode capacity (.bus { we := we, offset := r.offset, data := data }) =
      .ok (if we then r.writeInstr data else .rdReg r) := by
  obtain ⟨h0, h13, hr⟩ := reg_offset r
  simp only [decode, decodeBus]
  rw [if_pos h0, h13, hr]
  rfl

/-- A write to a register decodes to the register's operation. -/
theorem of_write (r : Reg) (data : Word) (capacity : Nat) :
    decode capacity (writeTxn r data) = .ok (r.writeInstr data) :=
  of_reg true r data capacity

theorem windowOffset_bit (i : Index) (k : Nat) :
    (windowOffset i).getLsbD k = if k < 2 then false else if k < 13 then i.getLsbD (k - 2) else decide (k = 13) := by
  show ((1#1 ++ i : BitVec (1 + 11)) ++ 0#2).getLsbD k = _
  rw [BitVec.getLsbD_append, BitVec.getLsbD_append]
  by_cases h : k < 2
  · simp [h]
  · by_cases h' : k < 13
    · have : k - 2 < 11 := by omega
      simp [h, h', this]
    · have h2 : ¬ k - 2 < 11 := by omega
      simp only [h, h', h2, if_false]
      by_cases h3 : k = 13
      · subst h3; rfl
      · simp only [h3, decide_false]
        exact BitVec.getLsbD_of_ge _ _ (by omega)

theorem windowOffset_low (i : Index) : (windowOffset i).extractLsb' 0 2 = 0#2 := by
  ext k hk
  rw [BitVec.getElem_extractLsb', windowOffset_bit, if_pos (by omega)]
  simp

theorem windowOffset_index (i : Index) : (windowOffset i).extractLsb' 2 11 = i := by
  ext k hk
  rw [BitVec.getElem_extractLsb', windowOffset_bit, if_neg (by omega), if_pos (by omega), Nat.add_sub_cancel_left,
    BitVec.getLsbD_eq_getElem hk]

theorem windowOffset_top (i : Index) : (windowOffset i).getLsbD 13 = true := by
  rw [windowOffset_bit]; rfl

/-- A transaction to a window word of the buffer decodes to the word's operation. -/
theorem of_window (we : Bool) (i : Index) (data : Word) {capacity : Nat} (h : i.toNat ≤ capacity) :
    decode capacity (.bus { we := we, offset := windowOffset i, data := data }) =
      .ok (if we then .wrPulse i data else .rdPulse i) := by
  simp only [decode, decodeBus]
  rw [if_pos (windowOffset_low i), if_pos (windowOffset_top i), windowOffset_index, if_pos h]

/-! ### The operations -/

theorem nop : Statement .nop := fun _ _ => rfl
theorem consume : Statement .consume := fun _ _ => rfl
theorem refreshConfig : Statement .refreshConfig := fun _ _ => rfl
theorem setMode (m : RadioMode) : Statement (.setMode m) := fun _ _ => by cases m <;> rfl
theorem rawSend : Statement .rawSend := fun _ _ => rfl
theorem updateSlicer (v : Slicer) : Statement (.updateSlicer v) := fun _ _ => by cases v <;> rfl
theorem scan : Statement .scan := fun _ _ => rfl
theorem wrCtrl (data : Word) : Statement (.wrCtrl data) := fun c _ => of_write .ctrl data c
theorem wrErr (data : Word) : Statement (.wrErr data) := fun c _ => of_write .err data c
theorem wrIntEn (data : Word) : Statement (.wrIntEn data) := fun c _ => of_write .intEn data c
theorem wrIntPend (data : Word) : Statement (.wrIntPend data) := fun c _ => of_write .intPend data c
theorem wrCmd (data : Word) : Statement (.wrCmd data) := fun c _ => of_write .cmd data c
theorem wrPulseCount (data : Word) : Statement (.wrPulseCount data) := fun c _ => of_write .pulseCount data c
theorem wrRepeats (data : Word) : Statement (.wrRepeats data) := fun c _ => of_write .repeats data c
theorem wrInterRepeatDelayMs (data : Word) : Statement (.wrInterRepeatDelayMs data) := fun c _ => of_write .interRepeatDelayMs data c
theorem wrCfgSampleRate (data : Word) : Statement (.wrCfgSampleRate data) := fun c _ => of_write .cfgSampleRate data c
theorem wrCfgMinRawPulses (data : Word) : Statement (.wrCfgMinRawPulses data) := fun c _ => of_write .cfgMinRawPulses data c
theorem wrCfgSeekTimeoutMs (data : Word) : Statement (.wrCfgSeekTimeoutMs data) := fun c _ => of_write .cfgSeekTimeoutMs data c
theorem wrCfgMinPreambleUs (data : Word) : Statement (.wrCfgMinPreambleUs data) := fun c _ => of_write .cfgMinPreambleUs data c
theorem wrCfgMinPulseLenUs (data : Word) : Statement (.wrCfgMinPulseLenUs data) := fun c _ => of_write .cfgMinPulseLenUs data c
theorem wrCfgSignalEndTimeoutUs (data : Word) : Statement (.wrCfgSignalEndTimeoutUs data) := fun c _ => of_write .cfgSignalEndTimeoutUs data c
theorem wrCfgFlags (data : Word) : Statement (.wrCfgFlags data) := fun c _ => of_write .cfgFlags data c
theorem wrPulse (i : Index) (data : Word) : Statement (.wrPulse i data) := fun _ h =>
  of_window true i data (by simpa [Instr.wf] using h)
theorem wrRoId (data : Word) : Statement (.wrRoId data) := fun c _ => of_write .id data c
theorem wrRoCaps (data : Word) : Statement (.wrRoCaps data) := fun c _ => of_write .caps data c
theorem wrRoSettleUs (data : Word) : Statement (.wrRoSettleUs data) := fun c _ => of_write .settleUs data c
theorem wrRoStatus (data : Word) : Statement (.wrRoStatus data) := fun c _ => of_write .status data c
theorem wrRoErrInfo (data : Word) : Statement (.wrRoErrInfo data) := fun c _ => of_write .errInfo data c
theorem wrRoErrData (data : Word) : Statement (.wrRoErrData data) := fun c _ => of_write .errData data c
theorem wrRoNowUs (data : Word) : Statement (.wrRoNowUs data) := fun c _ => of_write .nowUs data c
theorem wrRoCapturedAt (data : Word) : Statement (.wrRoCapturedAt data) := fun c _ => of_write .capturedAt data c
theorem wrRoSignalStrength (data : Word) : Statement (.wrRoSignalStrength data) := fun c _ => of_write .signalStrength data c
theorem wrRoActSampleRate (data : Word) : Statement (.wrRoActSampleRate data) := fun c _ => of_write .actSampleRate data c
theorem wrRoActMinRawPulses (data : Word) : Statement (.wrRoActMinRawPulses data) := fun c _ => of_write .actMinRawPulses data c
theorem wrRoActSeekTimeoutMs (data : Word) : Statement (.wrRoActSeekTimeoutMs data) := fun c _ => of_write .actSeekTimeoutMs data c
theorem wrRoActMinPreambleUs (data : Word) : Statement (.wrRoActMinPreambleUs data) := fun c _ => of_write .actMinPreambleUs data c
theorem wrRoActMinPulseLenUs (data : Word) : Statement (.wrRoActMinPulseLenUs data) := fun c _ => of_write .actMinPulseLenUs data c
theorem wrRoActSignalEndTimeoutUs (data : Word) : Statement (.wrRoActSignalEndTimeoutUs data) := fun c _ => of_write .actSignalEndTimeoutUs data c
theorem wrRoActFlags (data : Word) : Statement (.wrRoActFlags data) := fun c _ => of_write .actFlags data c
theorem rdReg (r : Reg) : Statement (.rdReg r) := fun c _ => of_reg false r 0#32 c
theorem rdPulse (i : Index) : Statement (.rdPulse i) := fun _ h =>
  of_window false i 0#32 (by simpa [Instr.wf] using h)
theorem evEdgeIdle : Statement .evEdgeIdle := fun _ _ => rfl
theorem evEdgeSeekingShort : Statement .evEdgeSeekingShort := fun _ _ => rfl
theorem evEdgeSeekingCommit : Statement .evEdgeSeekingCommit := fun _ _ => rfl
theorem evEdgeCapturingGlitch : Statement .evEdgeCapturingGlitch := fun _ _ => rfl
theorem evEdgeCapturingAccept : Statement .evEdgeCapturingAccept := fun _ _ => rfl
theorem evEdgeDone : Statement .evEdgeDone := fun _ _ => rfl
theorem evDeadlineSeeking : Statement .evDeadlineSeeking := fun _ _ => rfl
theorem evDeadlineCapturing : Statement .evDeadlineCapturing := fun _ _ => rfl
theorem evPollEnd : Statement .evPollEnd := fun _ _ => rfl
theorem evRadioStep : Statement .evRadioStep := fun _ _ => rfl
theorem evTxStep : Statement .evTxStep := fun _ _ => rfl

end Sys2Proof.Laws.RoundTrip
end

