-- ==== Sys2Proof/Laws/Words.lean ====
section
/-!
SUPPORT. The operations of the model in the words of Safety.lean, and the shape of what the long ones leave: the end of
a capture, the deadline, a commit, an accepted pulse, an accepted RAW_SEND, which words are commands, and the operation
of a transaction to a register or a window word.
-/
namespace Sys2Proof.Machine

/-! ### Commands -/

/-- A command word decodes to one of the seven commands (R92). -/
theorem decodeCmd_cases {w : Word} {i : Instr} (h : decodeCmd w = .ok i) :
    i = .nop ∨ i = .consume ∨ i = .refreshConfig ∨ (∃ m, i = .setMode m) ∨ i = .rawSend ∨
      (∃ v, i = .updateSlicer v) ∨ i = .scan := by
  unfold decodeCmd plainCommand at h
  repeat' split at h
  all_goals cases h
  all_goals simp

/-- RAW_SEND past its checks. -/
theorem execRawSend_eq_accept {s : State} (hf : fatalLocked s = false) (hb : s.radio.busy = false)
    (hx : s.tx.phase = .idle) (hu : s.radio.mode ≠ .unset) (hc : inCapture s = false) :
    execRawSend s = rawSendAccept s := by
  unfold execRawSend unlessFatal rawSendBody
  simp [hf, hb, hu, hc, txBusy, hx]

/-- An accepted RAW_SEND writes `tx_prior` and otherwise what the TX engine may write (R190, R191). -/
theorem rawSendAccept_frame {s t : State} (h : rawSendAccept s = .next t) :
    TxFrame { s with tx := { s.tx with prior := s.radio.mode } } t := by
  unfold rawSendAccept at h
  simp only at h
  split at h
  · cases next_inj h
    exact ⟨rfl, rfl, rfl, rfl, rfl, rfl, rfl, rfl, rfl, rfl, rfl, rfl, rfl, rfl, rfl, rfl, fun _ h => setPending_pending h⟩
  · split at h
    · exact startTrain_frame h
    · cases next_inj h
      refine ⟨?_, ?_, ?_, ?_, ?_, ?_, ?_, ?_, ?_, ?_, ?_, ?_, ?_, ?_, ?_, ?_, ?_⟩ <;> simp

/-! ### Captures -/

theorem finish_eq_captureEnded (r : EndReason) (s : State) : finish r s = captureEnded r s := by
  unfold finish captureEnded
  simp only
  split <;> rfl

theorem adaptiveGap_eq_gapDeadline (s : State) :
    (match adaptiveGap s with
      | some g => (s.now + BitVec.ofNat 32 g, DeadlineKind.adaptive)
      | none => (s.now + s.cfg.signalEndTimeoutUs, .silence)) = gapDeadline (storedPulses s) s := by
  unfold adaptiveGap gapDeadline
  cases hc : (s.build.hasAdaptiveGap && s.cfg.adaptiveGapEn)
  · rfl
  · cases hg : Config.gapPolicy (storedPulses s) s.cfg with
    | none => simp
    | some g =>
      by_cases hr : 1 ≤ g ∧ g < s.cfg.signalEndTimeoutUs.toNat
      · simp [hr]
      · simp only [if_true, hr, if_false]

theorem armDeadline_eq_deadlineArmed (s : State) : armDeadline s = deadlineArmed (storedPulses s) s := by
  unfold deadlineArmed
  rw [← adaptiveGap_eq_gapDeadline]
  unfold armDeadline
  cases adaptiveGap s <;> rfl

/-- After a store: the end of the capture, or the deadline for the train stored so far (R138, R141). -/
theorem closeOrArm_eq (s : State) :
    closeOrArm s =
      if s.buf.pulseCount.toNat = s.build.capacity then captureEnded .tooLong s
      else deadlineArmed (storedPulses s) s := by
  unfold closeOrArm
  rw [finish_eq_captureEnded, armDeadline_eq_deadlineArmed]

/-- The next states of a commit (R138): nothing stored, or the preamble interval as half-pulse 1. -/
theorem seekCommit_eq_next {s t : State} (h : seekCommit s = .next t) :
    t = armDeadline (beginCapture s) ∨
      t =
        closeOrArm
          { beginCapture s with
            buf := { (beginCapture s).buf with pulseCount := 1#16 }
            mem := s.mem.writePulse 1 (scaledWidth s.cfg.sampleRate (seekWidth s)) } := by
  unfold seekCommit at h
  split at h
  · cases next_inj h; exact .inl rfl
  · obtain ⟨u, hu, h⟩ := andThen_eq_next.1 h
    obtain ⟨-, rfl⟩ := storePulse_eq_next.1 hu
    cases next_inj h
    exact .inr rfl

/-- The next state of an accepted pulse (R141). -/
theorem acceptPulse_eq_next {s t : State} (h : acceptPulse s = .next t) :
    t =
      closeOrArm
        { s with
          buf := { s.buf with pulseCount := s.buf.pulseCount + 1#16 }
          mem := s.mem.writePulse (s.buf.pulseCount.toNat + 1) (scaledWidth s.cfg.sampleRate (pulseWidth s))
          cap := { s.cap with lastEdge := s.now } } := by
  unfold acceptPulse at h
  obtain ⟨u, hu, h⟩ := andThen_eq_next.1 h
  obtain ⟨-, rfl⟩ := storePulse_eq_next.1 hu
  cases next_inj h
  rfl

/-! ### Pending bits -/

/-- The radio's step only sets pending bits. -/
theorem radioAdvance_pending {s : State} {k : Nat} (h : s.ints.pending.getLsbD k = true) :
    (radioAdvance s).ints.pending.getLsbD k = true := by
  unfold radioAdvance
  split
  · split
    · split
      · unfold radioSecondStep; rw [drivePins_ints]; exact h
      · unfold radioComplete radioDone
        split
        · exact setPending_pending h
        · exact h
    · exact h
  · exact h

/-- The end of a capture only sets pending bits. -/
theorem finish_pending {r : EndReason} {s : State} {k : Nat} (h : s.ints.pending.getLsbD k = true) :
    (finish r s).ints.pending.getLsbD k = true := by
  rw [finish_ints]
  split
  · simp [h]
  · exact h

theorem closeOrArm_pending {s : State} {k : Nat} (h : s.ints.pending.getLsbD k = true) :
    (closeOrArm s).ints.pending.getLsbD k = true := by
  unfold closeOrArm
  split
  · exact finish_pending h
  · rw [armDeadline_ints]; exact h

/-! ### Transactions -/

/-- The offset of window word i as a number (R82). -/
theorem windowOffset_eq (i : Index) : windowOffset i = BitVec.ofNat 14 (0x2000 + 4 * i.toNat) := by
  have hi := i.isLt
  refine BitVec.eq_of_toNat_eq ?_
  unfold windowOffset
  rw [BitVec.toNat_append, BitVec.toNat_append, BitVec.toNat_ofNat, Nat.mod_eq_of_lt (by omega),
    ← Nat.shiftLeft_add_eq_or_of_lt (by simp), ← Nat.shiftLeft_add_eq_or_of_lt (by omega)]
  simp only [Nat.shiftLeft_eq, BitVec.toNat_ofNat]
  omega

/-- A write to a register runs the register's operation (R81). -/
theorem bus_hostWrite (r : Reg) (d : Word) (s : State) : bus (hostWrite r.offset d) s = exec (r.writeInstr d) s := by
  have := Laws.RoundTrip.of_reg true r d s.build.capacity
  simp only [decode] at this
  unfold bus hostWrite
  rw [this]; rfl

/-- A read of a register runs RD_REG (R81). -/
theorem bus_hostRead (r : Reg) (s : State) : bus (hostRead r.offset) s = exec (.rdReg r) s := by
  have := Laws.RoundTrip.of_reg false r 0#32 s.build.capacity
  simp only [decode] at this
  unfold bus hostRead
  rw [this]; rfl

/-- A write of a window word the buffer has runs WR_PULSE (R81). -/
theorem bus_writeWindow {i : Index} {s : State} (d : Word) (h : i.toNat ≤ s.build.capacity) :
    bus (hostWrite (windowOffset i) d) s = exec (.wrPulse i d) s := by
  have := Laws.RoundTrip.of_window true i d h
  simp only [decode] at this
  unfold bus hostWrite
  rw [this]; rfl

/-- A read of a window word the buffer has runs RD_PULSE (R81). -/
theorem bus_readWindow {i : Index} {s : State} (h : i.toNat ≤ s.build.capacity) :
    bus (hostRead (windowOffset i)) s = exec (.rdPulse i) s := by
  have := Laws.RoundTrip.of_window false i 0#32 h
  simp only [decode] at this
  unfold bus hostRead
  rw [this]; rfl

end Sys2Proof.Machine
end

