-- ==== Sys2Proof/Laws/Run.lean ====
section
/-!
SUPPORT. Whole ticks while a radio sequence or a transmit runs: nothing but the radio's step and the TX engine's step
touches the radio, the outputs or the TX engine (R118, R198), so ticks follow those of the radio and the TX engine
alone.
-/
namespace Sys2Proof.Machine

/-! ### What the rest of a tick leaves alone -/

/-- A radio sequence or a transmit runs. -/
def active (s : State) : Bool := s.radio.busy || txBusy s

/-- What the other operations leave of the radio and the TX engine, and, while a transmit runs, of what it reads. -/
structure Steady (s t : State) : Prop where
  build : t.build = s.build
  radio : t.radio = s.radio
  pins : t.pins = s.pins
  tx : t.tx = s.tx
  trace : t.trace = s.trace
  now : t.now = s.now
  env : t.env = s.env
  train : txBusy s = true → t.mem = s.mem ∧ t.buf = s.buf ∧ t.cfg = s.cfg

theorem Steady.refl (s : State) : Steady s s := ⟨rfl, rfl, rfl, rfl, rfl, rfl, rfl, fun _ => ⟨rfl, rfl, rfl⟩⟩

theorem Steady.trans {s t u : State} (h : Steady s t) (g : Steady t u) : Steady s u :=
  ⟨g.build.trans h.build, g.radio.trans h.radio, g.pins.trans h.pins, g.tx.trans h.tx, g.trace.trans h.trace,
    g.now.trans h.now, g.env.trans h.env, fun hb => by
      obtain ⟨h1, h2, h3⟩ := h.train hb
      obtain ⟨g1, g2, g3⟩ := g.train ((txBusy_congr h.tx).trans hb)
      exact ⟨g1.trans h1, g2.trans h2, g3.trans h3⟩⟩

theorem Steady.active {s t : State} (h : Steady s t) : active t = active s := by
  unfold Machine.active; rw [h.radio, txBusy_congr h.tx]

theorem active_cases {s : State} (h : active s = true) : s.radio.busy = true ∨ txBusy s = true := by
  simpa [active] using h

/-- While a transmit runs, the block is not quiescent and no capture is open (R58, R59). -/
theorem busy_closed {s : State} (h : BlockInv s) (hx : txBusy s = true) :
    quiescent s = false ∧ s.cap.state ≠ .seeking ∧ s.cap.state ≠ .capturing :=
  ⟨by simp [quiescent, hx], not_inCapture (h.tx.noCapture hx)⟩

/-- Every operation but the radio's and the TX engine's step leaves both alone while either is active. -/
theorem effect_steady {i : Instr} {s t : State} (he : Effect i s t) (h : BlockInv s) (ha : active s = true)
    (h1 : i ≠ .evRadioStep) (h2 : i ≠ .evTxStep) : Steady s t := by
  have hnot : s.radio.busy = false → txBusy s = false → False := fun hb hx => by simp [active, hb, hx] at ha
  have hq : ∀ {s : State}, BlockInv s → quiescent s = true → txBusy s = true → False := fun h hq hx => by
    rw [(busy_closed h hx).1] at hq; cases hq
  induction he with
  | command hw _ ih =>
    refine ih h ha ?_ ?_ hnot <;> rintro rfl <;> simpa using decodeCmd_cases hw
  | modeStarted _ _ hb hx => exact absurd hx fun hx => hnot hb hx
  | sent _ hb hx => exact absurd hx fun hx => hnot hb hx
  | refreshed _ hq' => exact ⟨rfl, rfl, rfl, rfl, rfl, rfl, rfl, fun hx => (hq h hq' hx).elim⟩
  | counted hq' => exact ⟨rfl, rfl, rfl, rfl, rfl, rfl, rfl, fun hx => (hq h hq' hx).elim⟩
  | repeated hq' => exact ⟨rfl, rfl, rfl, rfl, rfl, rfl, rfl, fun hx => (hq h hq' hx).elim⟩
  | delayed hq' => exact ⟨rfl, rfl, rfl, rfl, rfl, rfl, rfl, fun hx => (hq h hq' hx).elim⟩
  | stored hq' => exact ⟨rfl, rfl, rfl, rfl, rfl, rfl, rfl, fun hx => (hq h hq' hx).elim⟩
  | committed _ hs _ hc =>
    rcases seekCommit_eq_next hc with rfl | rfl <;>
      exact ⟨by simp, by simp, by simp, by simp, by simp, by simp, by simp, fun hx => absurd hs (busy_closed h hx).2.1⟩
  | accepted _ hs _ hc =>
    cases acceptPulse_eq_next hc
    exact ⟨by simp, by simp, by simp, by simp, by simp, by simp, by simp, fun hx => absurd hs (busy_closed h hx).2.2⟩
  | timedOut _ hs =>
    exact ⟨by simp, by simp, by simp, by simp, by simp, by simp, by simp, fun hx => absurd hs (busy_closed h hx).2.2⟩
  | seeking =>
    unfold startSeeking
    split <;> exact ⟨rfl, rfl, rfl, rfl, rfl, rfl, rfl, fun _ => ⟨rfl, rfl, rfl⟩⟩
  | radioStepped => exact absurd rfl h1
  | txStepped => exact absurd rfl h2
  | _ => exact ⟨rfl, rfl, rfl, rfl, rfl, rfl, rfl, fun _ => ⟨rfl, rfl, rfl⟩⟩

theorem decodeBus_ne_txStep {c : Nat} {h : BusTxn} {i : Instr} (hd : decodeBus c h = .ok i) : i ≠ .evTxStep := by
  intro hi
  subst hi
  unfold decodeBus at hd
  repeat' split at hd
  all_goals try cases hd
  all_goals rename_i r _ _
  all_goals cases r <;> cases hd

/-- One transaction while the radio or the TX engine is active. -/
theorem bus_steady {h : BusTxn} {s : State} (hs : BlockInv s) (ha : active s = true) :
    ∃ t, bus h s = .next t ∧ BlockInv t ∧ Steady s t := by
  obtain ⟨t, ht, hi⟩ := bus_inv (h := h) hs
  refine ⟨t, ht, hi, ?_⟩
  unfold bus at ht
  split at ht
  · rename_i hd
    exact effect_steady (exec_effect ht) hs ha (decodeBus_ne_radioStep hd) (decodeBus_ne_txStep hd)
  · cases next_inj ht
    unfold rejectTxn
    split <;> exact ⟨rfl, rfl, rfl, rfl, rfl, rfl, rfl, fun _ => ⟨rfl, rfl, rfl⟩⟩

theorem hostPhase_steady : ∀ (hs : List BusTxn) {s : State}, BlockInv s → active s = true →
    ∃ t, hostPhase hs s = .next t ∧ BlockInv t ∧ Steady s t := by
  intro hs
  induction hs with
  | nil => intro s h _; exact ⟨s, rfl, h, Steady.refl s⟩
  | cons h hs ih =>
    intro s hi ha
    obtain ⟨t, ht, hti, hst⟩ := bus_steady (h := h) hi ha
    obtain ⟨u, hu, hui, htu⟩ := ih hti (hst.active.trans ha)
    refine ⟨u, ?_, hui, hst.trans htu⟩
    rw [show hostPhase (h :: hs) s = andThen (bus h s) (hostPhase hs) from rfl, ht, andThen_next, hu]

/-- What the end of a tick leaves: Steady but for the time. -/
theorem restOfTick_steady (hs : List BusTxn) {s : State} (h : BlockInv s) (ha : active s = true) :
    ∃ t, restOfTick hs (.next s) = .next (endTick t) ∧ BlockInv t ∧ Steady s t := by
  obtain ⟨t, ht, hti, hst⟩ := hostPhase_steady hs h ha
  refine ⟨t, ?_, hti, hst⟩
  unfold restOfTick
  rw [andThen_next, ht, andThen_next]

/-- Phases A3, A4 and B while the radio or the TX engine is active. -/
theorem capturePhases_steady {s : State} (h : BlockInv s) (ha : active s = true) :
    ∃ t, andThen (deadlinePhase s) (fun s => andThen (pollPhase s) edgePhase) = .next t ∧ BlockInv t ∧ Steady s t := by
  have h3 : ∃ a, deadlinePhase s = .next a ∧ BlockInv a ∧ Steady s a := by
    rw [deadlinePhase_eq]
    split
    · rename_i hd
      split
      · rename_i hs
        exact ⟨_, rfl, seekAbandon_inv h hs, effect_steady (.abandoned hd hs) h ha (by simp) (by simp)⟩
      · rename_i hs
        exact ⟨_, rfl, captureTimeout_inv h hs, effect_steady (.timedOut hd hs) h ha (by simp) (by simp)⟩
      · exact ⟨s, rfl, h, Steady.refl s⟩
    · exact ⟨s, rfl, h, Steady.refl s⟩
  obtain ⟨a, ea, ia, sa⟩ := h3
  have h4 : ∃ b, pollPhase a = .next b ∧ BlockInv b ∧ Steady a b := by
    rw [pollPhase_eq]
    refine ⟨_, rfl, ?_⟩
    split
    · exact ⟨ia.of_eq rfl rfl rfl rfl rfl rfl rfl rfl rfl rfl,
        ⟨rfl, rfl, rfl, rfl, rfl, rfl, rfl, fun _ => ⟨rfl, rfl, rfl⟩⟩⟩
    · exact ⟨ia, Steady.refl a⟩
  obtain ⟨b, eb, ib, sb⟩ := h4
  have hab : active b = true := (sb.active.trans sa.active).trans ha
  have h5 : ∃ c, edgePhase b = .next c ∧ BlockInv c ∧ Steady b c := by
    rcases edgePhase_cases b with e | ⟨i, e, hw, hi, hx⟩
    · exact ⟨_, e, sampleEdge_inv ib, ⟨rfl, rfl, rfl, rfl, rfl, rfl, rfl, fun _ => ⟨rfl, rfl, rfl⟩⟩⟩
    · obtain ⟨c, hc, ic⟩ := exec_inv ib hw hi
      exact ⟨c, e.trans hc, ic, effect_steady (exec_effect hc) ib hab hi hx⟩
  obtain ⟨c, ec, ic, sc⟩ := h5
  refine ⟨c, ?_, ic, (sa.trans sb).trans sc⟩
  rw [ea, andThen_next, eb, andThen_next, ec]

/-! ### Like states -/

/-- Two states in which the radio and the TX engine do the same (R113, R195). -/
structure Like (a b : State) : Prop where
  build : b.build = a.build
  mem : b.mem = a.mem
  buf : b.buf = a.buf
  cfg : b.cfg = a.cfg
  radio : b.radio = a.radio
  pins : b.pins = a.pins
  tx : b.tx = a.tx
  trace : b.trace = a.trace
  now : b.now = a.now

theorem Like.refl (s : State) : Like s s := ⟨rfl, rfl, rfl, rfl, rfl, rfl, rfl, rfl, rfl⟩

theorem Like.trans {a b c : State} (h : Like a b) (g : Like b c) : Like a c :=
  ⟨g.build.trans h.build, g.mem.trans h.mem, g.buf.trans h.buf, g.cfg.trans h.cfg, g.radio.trans h.radio,
    g.pins.trans h.pins, g.tx.trans h.tx, g.trace.trans h.trace, g.now.trans h.now⟩

/-- The state with what a like state may have else: its interrupts and the groups the TX engine does not read. -/
def graft (b s : State) : State :=
  { s with cap := b.cap, edge := b.edge, poll := b.poll, cfgSh := b.cfgSh, errs := b.errs, ints := b.ints,
           reads := b.reads, env := b.env }

theorem Like.graft (b s : State) : Like s (graft b s) := ⟨rfl, rfl, rfl, rfl, rfl, rfl, rfl, rfl, rfl⟩

theorem Like.eq_graft {a b : State} (h : Like a b) : b = Machine.graft b a := by
  cases a; cases b
  obtain ⟨h1, h2, h3, h4, h5, h6, h7, h8, h9⟩ := h
  simp only at h1 h2 h3 h4 h5 h6 h7 h8 h9
  subst h1 h2 h3 h4 h5 h6 h7 h8 h9
  rfl

theorem Like.drivePin {a b : State} (h : Like a b) (p : Pin) (l : Bool) :
    Like (Machine.drivePin p l a) (Machine.drivePin p l b) :=
  ⟨h.build, h.mem, h.buf, h.cfg, h.radio, by rw [drivePin_pins, drivePin_pins, h.pins], h.tx,
    by rw [drivePin_trace, drivePin_trace, h.trace, h.now], h.now⟩

theorem Like.withTx {a b : State} (h : Like a b) (x : TxEngine) : Like { a with tx := x } { b with tx := x } :=
  ⟨h.build, h.mem, h.buf, h.cfg, h.radio, h.pins, rfl, h.trace, h.now⟩

theorem Like.setPending {a b : State} (h : Like a b) (k : Nat) :
    Like (Machine.setPending k a) (Machine.setPending k b) :=
  ⟨h.build, h.mem, h.buf, h.cfg, h.radio, h.pins, h.tx, h.trace, h.now⟩

theorem Like.radioStart {a b : State} (h : Like a b) (m : RadioMode) (o : Origin) :
    Like (Machine.radioStart m o a) (Machine.radioStart m o b) := by
  rw [radioStart_eq_sequenceStarted, radioStart_eq_sequenceStarted, h.eq_graft]
  exact ⟨rfl, rfl, rfl, rfl, rfl, rfl, rfl, rfl, rfl⟩

theorem Like.radioAdvance {a b : State} (h : Like a b) : Like (Machine.radioAdvance a) (Machine.radioAdvance b) := by
  rw [h.eq_graft]
  unfold Machine.radioAdvance Machine.graft
  simp only
  split
  · split
    · split
      · rw [radioSecondStep_eq, radioSecondStep_eq]; exact ⟨rfl, rfl, rfl, rfl, rfl, rfl, rfl, rfl, rfl⟩
      · unfold radioComplete radioDone
        simp only
        cases a.radio.origin <;> exact ⟨rfl, rfl, rfl, rfl, rfl, rfl, rfl, rfl, rfl⟩
    · exact ⟨rfl, rfl, rfl, rfl, rfl, rfl, rfl, rfl, rfl⟩
  · exact ⟨rfl, rfl, rfl, rfl, rfl, rfl, rfl, rfl, rfl⟩

/-- Like states have like next states under f. -/
def Follows (f : State → Out) : Prop :=
  ∀ (a b t : State), Like a b → f a = .next t → ∃ u, f b = .next u ∧ Like t u

theorem Like.txRelease {a b : State} (h : Like a b) : Like (Machine.txRelease a) (Machine.txRelease b) := by
  unfold Machine.txRelease
  rw [h.tx]
  split
  · unfold txFinish
    rw [h.tx]
    exact (h.withTx _).setPending 1
  · exact (h.withTx _).radioStart _ _

theorem beginPulse_follows : Follows beginPulse := by
  intro a b t h ht
  obtain ⟨hi, rfl⟩ := beginPulse_eq_next.1 ht
  refine ⟨_, beginPulse_eq_next.2 ⟨by rw [h.tx, h.build]; exact hi, rfl⟩, ?_⟩
  have hs : segmentTicks b = segmentTicks a := by unfold segmentTicks pulse; rw [h.tx, h.mem, h.cfg]
  rw [hs, h.tx]
  exact (h.withTx _).drivePin _ _

theorem playPulses_follows {e : State → Out} (he : Follows e) : ∀ n, Follows (playPulses e n) := by
  intro n
  induction n with
  | zero =>
    intro a b t h ht
    obtain ⟨u, hu, ht⟩ := andThen_eq_next.1 ht
    obtain ⟨v, hv, huv⟩ := beginPulse_follows a b u h hu
    simp only [playPulses, hv, andThen_next, huv.tx]
    split at ht
    · rename_i hw; rw [if_pos hw]; exact he u v t huv ht
    · rename_i hw; rw [if_neg hw]; cases next_inj ht; exact ⟨v, rfl, huv⟩
  | succ n ih =>
    intro a b t h ht
    obtain ⟨u, hu, ht⟩ := andThen_eq_next.1 ht
    obtain ⟨v, hv, huv⟩ := beginPulse_follows a b u h hu
    simp only [playPulses, hv, andThen_next, huv.tx]
    split at ht
    · rename_i hw; rw [if_pos hw]; exact ih _ _ t (huv.withTx _) ht
    · rename_i hw; rw [if_neg hw]; cases next_inj ht; exact ⟨v, rfl, huv⟩

theorem endTransmission_follows : ∀ n, Follows (endTransmission n) := by
  intro n
  induction n with
  | zero =>
    intro a b t h ht
    cases next_inj ht
    exact ⟨_, rfl, (h.drivePin _ _).txRelease⟩
  | succ n ih =>
    intro a b t h ht
    have hd := h.drivePin .txData false
    have hp : pauseTicks (drivePin .txData false b) = pauseTicks (drivePin .txData false a) := by
      unfold pauseTicks; rw [hd.buf]
    simp only [endTransmission] at ht ⊢
    rw [hp, hd.tx]
    split at ht
    · rename_i hw
      rw [if_pos hw]
      have hl : ∀ x : TxEngine, pulsesLeft (nextTransmission { drivePin .txData false b with tx := x }) =
          pulsesLeft (nextTransmission { drivePin .txData false a with tx := x }) := fun x => by
        unfold pulsesLeft nextTransmission; rw [hd.buf]
      rw [hl]
      exact playPulses_follows ih _ _ _ t ((hd.withTx _).withTx _) ht
    · rename_i hw
      rw [if_neg hw]
      cases next_inj ht
      exact ⟨_, rfl, hd.withTx _⟩

theorem playTransmission_follows : Follows playTransmission := by
  intro a b t h ht
  unfold playTransmission at ht ⊢
  rw [show repeatsLeft b = repeatsLeft a by unfold repeatsLeft; rw [h.buf, h.tx],
    show pulsesLeft b = pulsesLeft a by unfold pulsesLeft; rw [h.buf, h.tx]]
  exact playPulses_follows (endTransmission_follows _) _ a b t h ht

theorem advancePulse_follows : Follows advancePulse := by
  intro a b t h ht
  unfold advancePulse at ht ⊢
  have hc : (b.tx.idx < b.buf.pulseCount) = (a.tx.idx < a.buf.pulseCount) := by rw [h.tx, h.buf]
  simp only [hc]
  rw [h.tx]
  split at ht
  · rename_i hl; rw [if_pos hl]; exact playTransmission_follows _ _ t (h.withTx _) ht
  · rename_i hl
    rw [if_neg hl, show repeatsLeft b = repeatsLeft a by unfold repeatsLeft; rw [h.buf, h.tx]]
    exact endTransmission_follows _ a b t h ht

theorem countDown_follows {f : State → Out} (hf : Follows f) : Follows (countDown f) := by
  intro a b t h ht
  simp only [countDown] at ht ⊢
  rw [h.tx]
  split at ht
  · rename_i hw; rw [if_pos hw]; exact hf _ _ t (h.withTx _) ht
  · rename_i hw; rw [if_neg hw]; cases next_inj ht; exact ⟨_, rfl, h.withTx _⟩

/-- The TX engine does the same in like states (R195). -/
theorem txAdvance_follows : Follows txAdvance := by
  intro a b t h ht
  unfold txAdvance at ht ⊢
  rw [h.tx, h.radio]
  cases hp : a.tx.phase with
  | idle => rw [hp] at ht; cases next_inj ht; exact ⟨b, rfl, h⟩
  | acquire =>
    rw [hp] at ht
    simp only at ht ⊢
    split at ht
    · rename_i hb; rw [if_pos hb]; cases next_inj ht; exact ⟨b, rfl, h⟩
    · rename_i hb
      rw [if_neg hb]
      unfold startTrain at ht ⊢
      rw [h.tx]
      exact playTransmission_follows _ _ t (h.withTx _) ht
  | pulse => rw [hp] at ht; exact countDown_follows advancePulse_follows a b t h ht
  | gap =>
    rw [hp] at ht
    refine countDown_follows (f := advanceGap) ?_ a b t h ht
    intro a b t h ht
    unfold advanceGap nextTransmission at ht ⊢
    rw [h.tx]
    exact playTransmission_follows _ _ t (h.withTx _) ht
  | release =>
    rw [hp] at ht
    simp only at ht ⊢
    split at ht
    · rename_i hb; rw [if_pos hb]; cases next_inj ht; exact ⟨b, rfl, h⟩
    · rename_i hb
      rw [if_neg hb]
      cases next_inj ht
      refine ⟨_, rfl, ?_⟩
      unfold txFinish
      rw [h.tx]
      exact (h.withTx _).setPending 1

/-! ### The end of a transmit -/

/-- An idle TX engine has reported. -/
def Reported (t : State) : Prop := t.tx.phase = .idle → t.ints.pending.getLsbD 1 = true

theorem txRelease_reported (s : State) : Reported (txRelease s) := by
  unfold txRelease
  split
  · intro _; simp [txFinish, setPending]
  · intro h; simp at h

theorem playPulses_reported {e : State → Out} (he : ∀ s t, e s = .next t → Reported t) :
    ∀ (n : Nat) (s t : State), playPulses e n s = .next t → Reported t := by
  intro n
  induction n with
  | zero =>
    intro s t h
    obtain ⟨u, hu, h⟩ := andThen_eq_next.1 h
    split at h
    · exact he u t h
    · cases next_inj h
      obtain ⟨-, rfl⟩ := beginPulse_eq_next.1 hu
      intro hp; cases hp
  | succ n ih =>
    intro s t h
    obtain ⟨u, hu, h⟩ := andThen_eq_next.1 h
    split at h
    · exact ih _ t h
    · cases next_inj h
      obtain ⟨-, rfl⟩ := beginPulse_eq_next.1 hu
      intro hp; cases hp

theorem endTransmission_reported : ∀ (n : Nat) (s t : State), endTransmission n s = .next t → Reported t := by
  intro n
  induction n with
  | zero => intro s t h; cases next_inj h; exact txRelease_reported _
  | succ n ih =>
    intro s t h
    simp only [endTransmission] at h
    split at h
    · exact playPulses_reported ih _ _ t h
    · cases next_inj h; intro hp; cases hp

theorem playTransmission_reported {s t : State} (h : playTransmission s = .next t) : Reported t :=
  playPulses_reported (endTransmission_reported _) _ _ t h

/-- The step that ends a transmit sets TX_DONE (R196). -/
theorem txAdvance_reported {s t : State} (h : txAdvance s = .next t) (hs : txBusy s = true) : Reported t := by
  have hcount : ∀ (f : State → Out), (∀ s t, f s = .next t → Reported t) → s.tx.phase ≠ .idle →
      countDown f s = .next t → Reported t := by
    intro f hf hp h
    simp only [countDown] at h
    split at h
    · exact hf _ t h
    · cases next_inj h; intro hi; exact absurd hi hp
  unfold txAdvance at h
  split at h
  · rename_i hp; simp [txBusy, hp] at hs
  · rename_i hp
    split at h
    · cases next_inj h; intro hi; rw [hp] at hi; cases hi
    · exact playTransmission_reported h
  · rename_i hp
    refine hcount _ ?_ (by simp [hp]) h
    intro s t h
    unfold advancePulse at h
    split at h
    · exact playTransmission_reported h
    · exact endTransmission_reported _ _ t h
  · rename_i hp
    exact hcount advanceGap (fun s t h => playTransmission_reported h) (by simp [hp]) h
  · rename_i hp
    split at h
    · cases next_inj h; intro hi; rw [hp] at hi; cases hi
    · cases next_inj h; intro _; simp [txFinish, setPending]

/-! ### Runs of ticks -/

/-- Sampling the inputs of a tick keeps the invariant. -/
theorem sampleInputs_inv {s : State} (t : TickInput) (h : BlockInv s) : BlockInv (sampleInputs t s) :=
  h.of_eq rfl rfl rfl rfl rfl rfl rfl rfl rfl rfl

/-- A tick is phases A1 and A2, the capture engine's phases, and the rest of the tick (R56). -/
theorem tick_eq (t : TickInput) (u : State) :
    tick t u =
      andThen (throughTransmit t (.next u)) fun a =>
        andThen (andThen (deadlinePhase a) fun s => andThen (pollPhase s) edgePhase) fun b =>
          restOfTick t.host (.next b) := by
  simp only [tick, blockPhases, throughTransmit, throughRadio, andThen_next, andThen_assoc, restOfTick]

/-- Phases A1 and A2 of a tick follow a tick of the radio and the TX engine alone. -/
theorem throughTransmit_follows {w u w' : State} (t : TickInput) (h : BlockInv u) (hl : Like (endTick w) u)
    (hw : transmitTick (.next w) = .next w') :
    ∃ a, throughTransmit t (.next u) = .next a ∧ BlockInv a ∧ Like w' a ∧ (txBusy u = true → Reported a) := by
  have hl1 : Like (endTick w) (sampleInputs t u) := hl.trans ⟨rfl, rfl, rfl, rfl, rfl, rfl, rfl, rfl, rfl⟩
  have hi := radioAdvance_phaseInv (sampleInputs_inv t h).toPhaseInv
  rw [transmitTick_next] at hw
  obtain ⟨a, ha, hla⟩ := txAdvance_follows _ _ _ hl1.radioAdvance hw
  obtain ⟨b, hb, hbi⟩ := txAdvance_inv hi
  rw [hb] at ha
  cases next_inj ha
  have e : throughTransmit t (.next u) = .next a := by
    simp only [throughTransmit, throughRadio, andThen_next]
    rw [radioPhase_eq, andThen_next, txPhase_eq, hb]
  refine ⟨a, e, hbi, hla, fun hx => txAdvance_reported hb ?_⟩
  rw [txBusy_congr (radioAdvance_tx _)]
  exact hx

theorem Like.endTick {a b : State} (h : Like a b) : Like (Machine.endTick a) (Machine.endTick b) :=
  ⟨h.build, h.mem, h.buf, h.cfg, h.radio, h.pins, h.tx, h.trace, by rw [endTick_now, endTick_now, h.now]⟩

theorem Steady.like {s t : State} (h : Steady s t) (hx : txBusy s = true) : Like s t :=
  ⟨h.build, (h.train hx).1, (h.train hx).2.1, (h.train hx).2.2, h.radio, h.pins, h.tx, h.trace, h.now⟩

theorem active_of_busy {s : State} (h : txBusy s = true) : active s = true := by simp [active, h]

theorem endTick_active (s : State) : active (endTick s) = active s := rfl

/-- Ticks show of the radio and the TX engine what a run of a transmit's ticks has, whatever else happens in them (R118,
R198). -/
theorem ticks_follow {w : State} {n : Nat} {o' : Out} (hs : List BusTxn) (ts : Nat → TickInput) (hi : BlockInv w)
    (hrun : Run (.next w) n o') :
    ∀ k, k < n → ∃ v u, transmitTick^[k] (.next w) = .next v ∧ ticks ts k (restOfTick hs (.next w)) = .next u ∧
      BlockInv u ∧ Like (endTick v) u ∧ txBusy u = true := by
  intro k
  induction k with
  | zero =>
    intro hk
    obtain ⟨v, hv, hx⟩ := hrun.busy 0 hk
    cases next_inj hv
    obtain ⟨u, hu, hui, hst⟩ := restOfTick_steady hs hi (active_of_busy hx)
    exact ⟨w, endTick u, rfl, hu, endTick_inv hui, (hst.like hx).endTick, (txBusy_congr hst.tx).trans hx⟩
  | succ k ih =>
    intro hk
    obtain ⟨v, u, hv, hu, hui, hl, hx⟩ := ih (by omega)
    obtain ⟨v', hv', hx'⟩ := hrun.busy (k + 1) hk
    rw [Function.iterate_succ_apply', hv] at hv'
    obtain ⟨a, ha, hai, hla, -⟩ := throughTransmit_follows (ts k) hui hl hv'
    have hxa : txBusy a = true := (txBusy_congr hla.tx).trans hx'
    obtain ⟨b, hb, hbi, hsb⟩ := capturePhases_steady hai (active_of_busy hxa)
    have hxb : txBusy b = true := (txBusy_congr hsb.tx).trans hxa
    obtain ⟨c, hc, hci, hsc⟩ := restOfTick_steady (ts k).host hbi (active_of_busy hxb)
    refine ⟨v', endTick c, by rw [Function.iterate_succ_apply', hv, hv'], ?_, endTick_inv hci,
      (hla.trans ((hsb.like hxa).trans (hsc.like hxb))).endTick, (txBusy_congr hsc.tx).trans hxb⟩
    show andThen (ticks ts k (restOfTick hs (.next w))) (tick (ts k)) = _
    rw [hu, andThen_next, tick_eq, ha, andThen_next, hb, andThen_next, hc]

/-! ### A mode change -/

/-- What phase A1 of tick t + j shows of a mode change to m accepted at tick t in state s, before its end (R112, R113,
R117). -/
structure Settling (m : RadioMode) (s : State) (j : Nat) (u : State) : Prop where
  build : u.build = s.build
  idle : u.tx.phase = .idle
  busy : u.radio.busy = true
  mode : u.radio.mode = s.radio.mode
  target : u.radio.target = m
  origin : u.radio.origin = .cmd
  first :
    j < s.build.settleUs.toNat →
      u.radio.step = .first ∧ u.radio.wait.toNat = s.build.settleUs.toNat - j ∧
        u.trace = s.trace ++ traceFrom s.now (pinsAt 0 (firstPins m))
  second :
    s.build.settleUs.toNat ≤ j →
      u.radio.step = .second ∧ u.radio.wait.toNat = 2 * s.build.settleUs.toNat - j ∧
        u.trace =
          s.trace ++ traceFrom s.now (pinsAt 0 (firstPins m) ++ pinsAt s.build.settleUs.toNat (secondPins m))

theorem sequenceStarted_settling {m : RadioMode} {s : State} (hx : s.tx.phase = .idle) (hs : s.build.settleUs ≠ 0#32) :
    Settling m s 0 (sequenceStarted m .cmd s) := by
  refine ⟨rfl, hx, rfl, rfl, rfl, rfl, fun _ => ⟨rfl, by simp [sequenceStarted, withPins], ?_⟩, fun h => ?_⟩
  · show (s.trace ++ _ : List TraceEntry) = _
    congr 1
    simp [traceFrom, pinsAt, Function.comp_def]
  · exact absurd (BitVec.eq_of_toNat_eq (Nat.le_zero.1 h)) hs

theorem Settling.steady {m : RadioMode} {s u v : State} {j : Nat} (h : Settling m s j u) (g : Steady u v) :
    Settling m s j v := by
  obtain ⟨h1, h2, h3, h4, h5, h6, h7, h8⟩ := h
  rw [← g.build] at h1
  rw [← g.tx] at h2
  rw [← g.radio] at h3 h4 h5 h6 h7 h8
  rw [← g.trace] at h7 h8
  exact ⟨h1, h2, h3, h4, h5, h6, h7, h8⟩

theorem Settling.active {m : RadioMode} {s u : State} {j : Nat} (h : Settling m s j u) : active u = true := by
  simp [Machine.active, h.busy]

theorem toNat_sub_one {w : Word} (h : 1 ≤ w.toNat) : (w - 1#32).toNat = w.toNat - 1 := by
  have := w.isLt
  rw [BitVec.toNat_sub]; simp; omega

/-- Phase A1 of one more tick of the mode change, before its last (R113). -/
theorem Settling.advance {m : RadioMode} {s u : State} {j : Nat} (h : Settling m s j u)
    (hn : u.now = s.now + BitVec.ofNat 32 (j + 1)) (hj : j + 1 < 2 * s.build.settleUs.toNat) :
    Settling m s (j + 1) (radioAdvance u) := by
  by_cases hw : u.radio.wait = 1#32
  · have hw' : u.radio.wait.toNat = 1 := by rw [hw]; rfl
    have hlt : j < s.build.settleUs.toNat := by
      by_contra hc
      have := (h.second (by omega)).2.1
      omega
    obtain ⟨a1, a2, a3⟩ := h.first hlt
    have hj' : j + 1 = s.build.settleUs.toNat := by omega
    rw [radioAdvance_first h.busy hw a1]
    refine ⟨h.build, h.idle, h.busy, h.mode, h.target, h.origin, fun h => by omega, fun _ => ⟨rfl, ?_, ?_⟩⟩
    · show u.build.settleUs.toNat = _
      rw [h.build]; omega
    · show (u.trace ++ _ : List TraceEntry) = _
      rw [a3, List.append_assoc]
      congr 1
      unfold traceFrom pinsAt
      simp [h.target, hn, hj', Function.comp_def]
  · have hw' : u.radio.wait.toNat ≠ 1 := fun h => hw (BitVec.eq_of_toNat_eq h)
    rw [radioAdvance_waits h.busy hw]
    refine ⟨h.build, h.idle, h.busy, h.mode, h.target, h.origin, fun hj => ?_, fun hj => ?_⟩
    · obtain ⟨a1, a2, a3⟩ := h.first (by omega)
      exact ⟨a1, (toNat_sub_one (by omega)).trans (by omega), a3⟩
    · obtain ⟨a1, a2, a3⟩ := h.second (by
        by_contra hc
        have := (h.first (by omega)).2.1
        omega)
      exact ⟨a1, (toNat_sub_one (by omega)).trans (by omega), a3⟩

/-- Phase A1 of the last tick of the mode change (R113, R114). -/
theorem Settling.complete {m : RadioMode} {s u : State} {j : Nat} (h : Settling m s j u)
    (hj : j + 1 = 2 * s.build.settleUs.toNat) :
    (radioAdvance u).radio.busy = false ∧ (radioAdvance u).radio.mode = m ∧ (radioAdvance u).radio.step = .none ∧
      (radioAdvance u).ints.pending.getLsbD 2 = true ∧
      (radioAdvance u).trace =
        s.trace ++ traceFrom s.now (pinsAt 0 (firstPins m) ++ pinsAt s.build.settleUs.toNat (secondPins m)) := by
  obtain ⟨a1, a2, a3⟩ := h.second (by omega)
  have hw : u.radio.wait = 1#32 := BitVec.eq_of_toNat_eq (by rw [a2]; simp; omega)
  rw [radioAdvance_second h.busy hw a1]
  unfold radioComplete radioDone
  rw [h.origin]
  exact ⟨rfl, h.target, rfl, by simp [setPending], a3⟩

/-- Phase A1 of the next tick of the mode change. -/
theorem throughRadio_eq (t : TickInput) (u : State) :
    throughRadio t (.next u) = .next (radioAdvance (sampleInputs t u)) := by
  unfold throughRadio
  rw [andThen_next, radioPhase_eq]

/-- A tick of the mode change before its last: phase A1, and nothing of the rest of the tick (R118). -/
theorem Settling.tick {m : RadioMode} {s u : State} {j : Nat} (t : TickInput) (hi : BlockInv u)
    (h : Settling m s j u) (hn : u.now = s.now + BitVec.ofNat 32 (j + 1)) (hj : j + 1 < 2 * s.build.settleUs.toNat) :
    ∃ v, Machine.tick t u = .next v ∧ BlockInv v ∧ Settling m s (j + 1) v ∧
      v.now = s.now + BitVec.ofNat 32 (j + 1 + 1) := by
  have ha : Settling m s (j + 1) (radioAdvance (sampleInputs t u)) :=
    Settling.advance (u := sampleInputs t u) ⟨h.1, h.2, h.3, h.4, h.5, h.6, h.7, h.8⟩ hn hj
  obtain ⟨b, hb, hbi⟩ := txAdvance_inv (radioAdvance_phaseInv (sampleInputs_inv t hi).toPhaseInv)
  have hx : txAdvance (radioAdvance (sampleInputs t u)) = .next (radioAdvance (sampleInputs t u)) := by
    unfold txAdvance; rw [ha.idle]
  rw [hx] at hb
  rw [← next_inj hb] at hbi
  obtain ⟨c, hc, hci, hsc⟩ := capturePhases_steady hbi ha.active
  obtain ⟨d, hd, hdi, hsd⟩ := restOfTick_steady t.host hci (ha.steady hsc).active
  have hd' := (ha.steady hsc).steady hsd
  refine ⟨endTick d, ?_, endTick_inv hdi, ⟨hd'.1, hd'.2, hd'.3, hd'.4, hd'.5, hd'.6, hd'.7, hd'.8⟩, ?_⟩
  · have ht : throughTransmit t (.next u) = .next (radioAdvance (sampleInputs t u)) := by
      unfold throughTransmit
      rw [throughRadio_eq, andThen_next, txPhase_eq, hx]
    rw [tick_eq, ht, andThen_next, hc, andThen_next, hd]
  · show d.now + 1#32 = _
    rw [hsd.now, hsc.now, radioAdvance_now]
    show u.now + 1#32 = _
    rw [hn, BitVec.add_assoc, ← BitVec.ofNat_add]

end Sys2Proof.Machine
end

