-- ==== Sys2Proof/Tests/Slice0.lean ====
section
/-!
SUPPORT. Tests of the model, each one evaluation: the well-formedness checks, the decoding of words written out from the
encodings of 30_encoding.md, single operations and steps with the results that 95_test_vectors.md or a rule gives, and
for every statement with hypotheses a state and operands that meet them (theorems whose names begin witness_).
-/
namespace Sys2Proof.Tests
open Sys2Proof.Machine

/-! ### Helpers -/

/-- A part of the next state, if the operation has one. -/
def part {α : Type} (o : Out) (f : State → α) : Option α :=
  match o with
  | .next s => some (f s)
  | .fault _ => none
  | .refused _ => none

/-- ERR, ERR_INFO and ERR_DATA as the host reads them. -/
def errors (s : State) : Word × Word × Word := (readval s .err, readval s .errInfo, readval s .errData)

/-- B0 of 95_test_vectors.md section 0, at tick t with the line at a level. -/
def b0 (t : Word) (rx : Bool) : State :=
  { State.reset with
    radio := { State.reset.radio with mode := .rx }
    pins := { rxGndEn := true, rxVccEn := true, txVccEn := false, txData := false }
    edge := { rxPrev := false, rxPrevValid := true }
    now := t
    env := { State.reset.env with rxIn := rx } }

/-- B0 with CTRL.CAPTURE_HOLD, in which Q holds. -/
def held : State := { b0 0#32 false with cap := { State.reset.cap with hold := true } }

/-- B0 with an edge at tick t, in SEEKING since an edge at tick 0, with the active P, p. -/
def seeking (t p : Word) : State :=
  { b0 t true with
    cap := { State.reset.cap with state := .seeking, dlArmed := true, deadline := 5000#32, dlKind := .seek }
    cfg := { State.reset.cfg with minPreambleUs := p } }

/-- B0 with an edge at tick t, in CAPTURING since the last accepted edge at tick 500, with one pulse of 500 stored. -/
def capturing (t : Word) : State :=
  { b0 t true with
    mem := [(0x2004, 0xF4#8), (0x2005, 0x01#8)]
    buf := { State.reset.buf with pulseCount := 1#16 }
    cap :=
      { State.reset.cap with
        state := .capturing, lastEdge := 500#32, dlArmed := true, deadline := 5500#32, dlKind := .silence } }

/-- B0 in DONE with a delivered capture and an edge at tick t. -/
def done (t : Word) : State :=
  { b0 t true with
    cap := { State.reset.cap with state := .done, ready := true }
    ints := { State.reset.ints with pending := 1#4 } }

/-- The state with FATAL recorded (V-R4). -/
def fatal (s : State) : State :=
  { s with errs := { flags := 0x40#7, cause := 6#4, addr := 0x028#14, data := 0x303#32 } }

/-- TX mode, idle, with the train v1, v2, ... given as cells, n half-pulses, N transmissions, a pause of d ms. -/
def txReady (mem : Memory) (n repeats d : Half) : State :=
  { State.reset with
    mem := mem
    buf := { State.reset.buf with pulseCount := n, repeats := repeats, interRepeatDelayMs := d }
    radio := { State.reset.radio with mode := .tx }
    pins := { rxGndEn := false, rxVccEn := false, txVccEn := true, txData := false }
    now := 1000#32 }

/-- The cells of pulses[1..2] = 3, 2. -/
def smallTrain : Memory := [(0x2004, 3#8), (0x2008, 2#8)]

/-- txReady with the TX engine in a phase. -/
def playing (phase : TxPhase) (rep idx : Half) (wait : Word) (s : State) : State :=
  { s with tx := { phase := phase, prior := .tx, rep := rep, idx := idx, wait := wait } }

/-- A running radio sequence to a mode. -/
def sequencing (m : RadioMode) (step : RadioStep) (wait : Word) (o : Origin) (s : State) : State :=
  { s with radio := { s.radio with busy := true, target := m, step := step, wait := wait, origin := o } }

/-- A tick with no edge from a low line and the given transactions. -/
def quiet (host : List BusTxn) : TickInput := { rx := false, rssi := 0#16, host := host }

/-- The state with inputs placed. -/
def given (inputs : List Input) (s : State) : State := { s with env := { s.env with inputs := inputs } }

/-- The build of V-C5 and V-C5b: C half-pulses of capacity. -/
def small (capacity : Nat) : Build := { Build.reference with capacity := capacity }

/-! ### Well-formedness (R6, R61) -/

theorem test_wf_index_at_capacity :
    Instr.wf 1200 (.wrPulse 1200#11 0#32) = true ∧ Instr.wf 1200 (.rdPulse 1200#11) = true := by decide

theorem test_wf_write_above_capacity : Instr.wf 1200 (.wrPulse 1201#11 0#32) = false := by decide

theorem test_wf_read_above_capacity : Instr.wf 1200 (.rdPulse 1201#11) = false := by decide

theorem test_build_wf : Build.reference.wf = true ∧ (small 1).wf = true ∧ (small 2047).wf = true := by decide

theorem test_build_capacity_zero : (small 0).wf = false := by decide

theorem test_build_capacity_too_large : (small 2048).wf = false := by decide

theorem test_build_settle_zero : Build.wf { Build.reference with settleUs := 0#32 } = false := by decide

theorem test_build_settle_too_large : Build.wf { Build.reference with settleUs := 0x80000000#32 } = false := by decide

theorem test_build_base_misaligned : Build.wf { Build.reference with base := 0x2000#32 } = false := by decide

/-! ### Decoding, from words written out from R91 to R97 -/

theorem test_decode_commands :
    decodeCmd 0b00000000000000000000000000000000#32 = .ok .nop ∧
      decodeCmd 0b00000000000000000000000000000001#32 = .ok .consume ∧
      decodeCmd 0b00000000000000000000000000000010#32 = .ok .refreshConfig ∧
      decodeCmd 0b00000000000000000000000100000011#32 = .ok (.setMode .rx) ∧
      decodeCmd 0b00000000000000000000001000000011#32 = .ok (.setMode .tx) ∧
      decodeCmd 0b00000000000000000000000000000100#32 = .ok .rawSend ∧
      decodeCmd 0b00000000000000000000000100000101#32 = .ok (.updateSlicer .advanced) ∧
      decodeCmd 0b00000000000000000000000000000110#32 = .ok .scan := by decide

theorem test_decode_control_writes :
    decodeBus 1200 (busOf 0b100000000001100#15 7#32) = .ok (.wrCtrl 7#32) ∧
      decodeBus 1200 (busOf 0b100000000010100#15 7#32) = .ok (.wrErr 7#32) ∧
      decodeBus 1200 (busOf 0b100000000100000#15 7#32) = .ok (.wrIntEn 7#32) ∧
      decodeBus 1200 (busOf 0b100000000100100#15 7#32) = .ok (.wrIntPend 7#32) ∧
      decodeBus 1200 (busOf 0b100000000101000#15 7#32) = .ok (.wrCmd 7#32) ∧
      decodeBus 1200 (busOf 0b100000000111000#15 7#32) = .ok (.wrPulseCount 7#32) ∧
      decodeBus 1200 (busOf 0b100000000111100#15 7#32) = .ok (.wrRepeats 7#32) ∧
      decodeBus 1200 (busOf 0b100000001000000#15 7#32) = .ok (.wrInterRepeatDelayMs 7#32) := by decide

theorem test_decode_config_writes :
    decodeBus 1200 (busOf 0b100000010000000#15 7#32) = .ok (.wrCfgSampleRate 7#32) ∧
      decodeBus 1200 (busOf 0b100000010000100#15 7#32) = .ok (.wrCfgMinRawPulses 7#32) ∧
      decodeBus 1200 (busOf 0b100000010001000#15 7#32) = .ok (.wrCfgSeekTimeoutMs 7#32) ∧
      decodeBus 1200 (busOf 0b100000010001100#15 7#32) = .ok (.wrCfgMinPreambleUs 7#32) ∧
      decodeBus 1200 (busOf 0b100000010010000#15 7#32) = .ok (.wrCfgMinPulseLenUs 7#32) ∧
      decodeBus 1200 (busOf 0b100000010010100#15 7#32) = .ok (.wrCfgSignalEndTimeoutUs 7#32) ∧
      decodeBus 1200 (busOf 0b100000010011000#15 7#32) = .ok (.wrCfgFlags 7#32) := by decide

theorem test_decode_window :
    decodeBus 1200 (busOf 0b110000000000100#15 300#32) = .ok (.wrPulse 1#11 300#32) ∧
      decodeBus 1200 (busOf 0b111001011000000#15 300#32) = .ok (.wrPulse 1200#11 300#32) ∧
      decodeBus 1200 (busOf 0b010000000000100#15 300#32) = .ok (.rdPulse 1#11) ∧
      decodeBus 1200 (busOf 0b011001011000000#15 0#32) = .ok (.rdPulse 1200#11) := by decide

theorem test_decode_read_only_writes :
    decodeBus 1200 (busOf 0b100000000000000#15 7#32) = .ok (.wrRoId 7#32) ∧
      decodeBus 1200 (busOf 0b100000000000100#15 7#32) = .ok (.wrRoCaps 7#32) ∧
      decodeBus 1200 (busOf 0b100000000001000#15 7#32) = .ok (.wrRoSettleUs 7#32) ∧
      decodeBus 1200 (busOf 0b100000000010000#15 7#32) = .ok (.wrRoStatus 7#32) ∧
      decodeBus 1200 (busOf 0b100000000011000#15 7#32) = .ok (.wrRoErrInfo 7#32) ∧
      decodeBus 1200 (busOf 0b100000000011100#15 7#32) = .ok (.wrRoErrData 7#32) ∧
      decodeBus 1200 (busOf 0b100000000101100#15 7#32) = .ok (.wrRoNowUs 7#32) ∧
      decodeBus 1200 (busOf 0b100000000110000#15 7#32) = .ok (.wrRoCapturedAt 7#32) ∧
      decodeBus 1200 (busOf 0b100000000110100#15 7#32) = .ok (.wrRoSignalStrength 7#32) := by decide

theorem test_decode_active_config_writes :
    decodeBus 1200 (busOf 0b100000011000000#15 7#32) = .ok (.wrRoActSampleRate 7#32) ∧
      decodeBus 1200 (busOf 0b100000011000100#15 7#32) = .ok (.wrRoActMinRawPulses 7#32) ∧
      decodeBus 1200 (busOf 0b100000011001000#15 7#32) = .ok (.wrRoActSeekTimeoutMs 7#32) ∧
      decodeBus 1200 (busOf 0b100000011001100#15 7#32) = .ok (.wrRoActMinPreambleUs 7#32) ∧
      decodeBus 1200 (busOf 0b100000011010000#15 7#32) = .ok (.wrRoActMinPulseLenUs 7#32) ∧
      decodeBus 1200 (busOf 0b100000011010100#15 7#32) = .ok (.wrRoActSignalEndTimeoutUs 7#32) ∧
      decodeBus 1200 (busOf 0b100000011011000#15 7#32) = .ok (.wrRoActFlags 7#32) := by decide

theorem test_decode_reads :
    decodeBus 1200 (busOf 0b000000000000000#15 0#32) = .ok (.rdReg .id) ∧
      decodeBus 1200 (busOf 0b000000000010000#15 0#32) = .ok (.rdReg .status) ∧
      decodeBus 1200 (busOf 0b000000000101000#15 0#32) = .ok (.rdReg .cmd) ∧
      decodeBus 1200 (busOf 0b000000011011000#15 0#32) = .ok (.rdReg .actFlags) := by decide

theorem test_decode_events :
    decodeEvent 0b00000#5 false = .ok .evEdgeIdle ∧ decodeEvent 0b00001#5 false = .ok .evEdgeSeekingShort ∧
      decodeEvent 0b00001#5 true = .ok .evEdgeSeekingCommit ∧
      decodeEvent 0b00010#5 false = .ok .evEdgeCapturingGlitch ∧
      decodeEvent 0b00010#5 true = .ok .evEdgeCapturingAccept ∧ decodeEvent 0b00011#5 false = .ok .evEdgeDone ∧
      decodeEvent 0b00101#5 false = .ok .evDeadlineSeeking ∧
      decodeEvent 0b00110#5 false = .ok .evDeadlineCapturing ∧ decodeEvent 0b01001#5 false = .ok .evPollEnd ∧
      decodeEvent 0b01110#5 false = .ok .evRadioStep ∧ decodeEvent 0b10011#5 false = .ok .evTxStep := by decide

/-- The illegal words of V-K7. -/
theorem test_decode_illegal_commands :
    decodeCmd 0x00000007#32 = .error .cmdReservedOpcode ∧ decodeCmd 0x000000FF#32 = .error .cmdReservedOpcode ∧
      decodeCmd 0x00010000#32 = .error .cmdHighBits ∧ decodeCmd 0x00000101#32 = .error .cmdArgument ∧
      decodeCmd 0x00000403#32 = .error .cmdArgument ∧ decodeCmd 0x00000205#32 = .error .cmdArgument ∧
      decodeCmd 0x00000104#32 = .error .cmdArgument := by decide

/-- The rejected offsets of V-B4, V-E1 and V-E2, and the events that cannot occur (R96, R132). -/
theorem test_decode_rejects :
    decodeBus 1200 (hostRead 0x32C4#14) = .error .reservedOffset ∧
      decodeBus 1200 (hostRead 0x002#14) = .error .misaligned ∧
      decodeBus 1200 (hostWrite 0x00D#14 1#32) = .error .misaligned ∧
      decodeBus 1200 (hostRead 0x044#14) = .error .reservedOffset ∧
      decodeBus 1200 (hostRead 0x0DC#14) = .error .reservedOffset ∧
      decodeBus 1200 (hostRead 0x3FFC#14) = .error .reservedOffset ∧
      decodeEvent 0b00100#5 false = .error .noRowInState ∧
      decodeEvent 0b10100#5 false = .error .unusedEventCode := by decide

/-! ### Commands -/

/-- V-K8: after V-R4, a NOP records CMD_REJECTED. -/
theorem test_nop_under_fatal :
    part (exec .nop (fatal (b0 0#32 false))) errors = some (0x44#32, 0x00280002#32, 0#32) := by decide

/-- W2a at 17001. -/
theorem test_consume :
    part (exec .consume (done 17001#32)) (fun s => (s.cap.state, s.cap.ready, s.ints.pending)) =
      some (.idle, false, 1#4) := by decide

/-- V-K1. -/
theorem test_refresh_not_quiescent :
    part (exec .refreshConfig (b0 0#32 false)) errors = some (0x04#32, 0x00280002#32, 0x2#32) := by decide

/-- V-K4b. -/
theorem test_refresh_accepted :
    part (exec .refreshConfig
      { held with
        cfgSh :=
          { held.cfgSh with signalEndTimeoutUs := 0x7FFFFFFF#32, minRawPulses := 1200#16, sampleRate := 0xFFFF#16 } })
      (fun s => (readval s .actSignalEndTimeoutUs, readval s .actMinRawPulses, readval s .actSampleRate)) =
      some (0x7FFFFFFF#32, 1200#32, 0xFFFF#32) := by decide

/-- V-R1 at tick 0. -/
theorem test_set_mode_starts :
    part (exec (.setMode .rx) State.reset) (fun s => (readval s .status, s.trace)) =
      some (0x00000700#32, [⟨0#32, .txVccEn, false⟩, ⟨0#32, .txData, false⟩]) := by decide

/-- V-R4. -/
theorem test_set_mode_unset :
    part (exec (.setMode .unset) (b0 0#32 false)) errors = some (0x40#32, 0x00280006#32, 0x303#32) := by decide

/-- V-T9. -/
theorem test_raw_send_unset :
    part (exec .rawSend State.reset) errors = some (0x40#32, 0x00280006#32, 0x4#32) := by decide

/-- V-T1 at 1000: pulses[1] = 300. -/
theorem test_raw_send_starts :
    part (exec .rawSend (txReady [(0x2004, 0x2C#8), (0x2005, 0x01#8), (0x2008, 0xC8#8)] 2#16 2#16 1#16))
      (fun s => (s.trace, s.tx.phase, s.tx.wait)) =
      some ([⟨1000#32, .txData, true⟩], .pulse, 300#32) := by decide

/-- V-K5. -/
theorem test_update_slicer_advanced :
    part (exec (.updateSlicer .advanced) (b0 0#32 false)) errors = some (0x04#32, 0x00280002#32, 0x105#32) := by decide

/-- V-C10 at 100. -/
theorem test_scan_opens_window :
    part (exec .scan
      { b0 100#32 false with cfg := { State.reset.cfg with asyncMode := false, seekTimeoutMs := 2#16 } })
      (fun s => s.poll) = some { isOpen := true, endAt := 2100#32 } := by decide

/-! ### Writes -/

/-- V-K11. -/
theorem test_wr_ctrl : part (exec (.wrCtrl 1#32) (b0 0#32 false)) (fun s => readval s .ctrl) = some 1#32 := by decide

/-- V-K9. -/
theorem test_wr_err :
    part (exec (.wrErr 0x7F#32) { b0 0#32 false with errs := { State.reset.errs with flags := 0x7F#7 } })
      (fun s => readval s .err) = some 0x40#32 := by decide

/-- V-K10. -/
theorem test_wr_int_en :
    part (exec (.wrIntEn 1#32) (done 17000#32)) (fun s => (endTick s).ints.irq) = some true := by decide

/-- P1 at 25. -/
theorem test_wr_int_pend :
    part (exec (.wrIntPend 0x4#32) { b0 25#32 false with ints := { enable := 7#4, pending := 7#4, irq := true } })
      (fun s => s.ints.pending) = some 3#4 := by decide

/-- V-K7: an illegal word. -/
theorem test_wr_cmd_illegal :
    part (exec (.wrCmd 0x00000403#32) (b0 0#32 false)) errors = some (0x02#32, 0x00280001#32, 0x403#32) := by decide

/-- V-K8: the lock comes before the illegal check. -/
theorem test_wr_cmd_under_fatal :
    part (exec (.wrCmd 0x00000007#32) (fatal (b0 0#32 false))) errors =
      some (0x44#32, 0x00280002#32, 0x7#32) := by decide

/-- V-B3. -/
theorem test_wr_pulse_count_too_large :
    part (exec (.wrPulseCount 1201#32) held) errors = some (0x08#32, 0x00380003#32, 0x4B1#32) := by decide

/-- V-B3b. -/
theorem test_wr_pulse_count_low_half :
    part (exec (.wrPulseCount 0x00010002#32) held) (fun s => s.buf.pulseCount) = some 2#16 := by decide

/-- V-B8. -/
theorem test_wr_repeats_busy :
    part (exec (.wrRepeats 5#32) (playing .pulse 1#16 1#16 9#32 (txReady smallTrain 2#16 1#16 0#16))) errors =
      some (0x08#32, 0x003C0003#32, 0x5#32) := by decide

/-- R174. -/
theorem test_wr_inter_repeat_delay :
    part (exec (.wrInterRepeatDelayMs 10#32) held) (fun s => s.buf.interRepeatDelayMs) = some 10#16 := by decide

/-- V-K2: the write is accepted as it stands. -/
theorem test_wr_cfg_sample_rate :
    part (exec (.wrCfgSampleRate 0#32) held) (fun s => (s.cfgSh.sampleRate, s.cfg.sampleRate)) =
      some (0#16, 1#16) := by decide

/-- R219, in a build without the adaptive gap. -/
theorem test_wr_cfg_flags :
    part (exec (.wrCfgFlags 0x3#32) held) (fun s => readval s .cfgFlags) = some 1#32 := by decide

/-- V-B1. -/
theorem test_wr_pulse_rejected :
    part (exec (.wrPulse 1#11 300#32) (b0 0#32 false)) errors = some (0x08#32, 0x20040003#32, 0x12C#32) := by decide

/-- V-B7: the low half in little-endian bytes. -/
theorem test_wr_pulse_accepted :
    part (exec (.wrPulse 1#11 0x1ABCD#32) held) (fun s => (pulse s 1, s.mem)) =
      some (0xABCD#16, [(0x2004, 0xCD#8), (0x2005, 0xAB#8)]) := by decide

/-- V-E3. -/
theorem test_wr_read_only :
    part (exec (.wrRoNowUs 0#32) (b0 7#32 false)) (fun s => (errors s, s.now)) =
      some ((0x20#32, 0x002C0005#32, 0#32), 7#32) ∧
    part (exec (.wrRoActFlags 0#32) (b0 7#32 false)) errors = some (0x20#32, 0x00D80005#32, 0#32) := by decide

/-! ### Reads -/

/-- V-Z1. -/
theorem test_reads_after_reset :
    [Reg.id, .caps, .settleUs, .ctrl, .status, .err, .pulseCount, .cfgSampleRate, .actMinRawPulses, .cfgMinPreambleUs,
      .actSignalEndTimeoutUs, .cfgFlags].map (readval State.reset) =
      [0x52464C07#32, 0x000004B0#32, 0x0000000A#32, 0#32, 0x00000300#32, 0#32, 0#32, 1#32, 0x18#32, 0x64#32, 0x1388#32,
        1#32] := by decide

/-- V-E6. -/
theorem test_signal_strength_is_signed :
    readval { State.reset with buf := { State.reset.buf with signalStrength := 0xFFFD#16 } } .signalStrength =
      0xFFFFFFFD#32 := by decide

/-- W1 at 1000, through the bus. -/
theorem test_rd_pulse :
    part (bus (hostRead 0x2004#14) (capturing 1000#32)) (fun s => s.reads) =
      some [⟨1000#32, 0x2004#14, 0x1F4#32⟩] := by decide

/-- V-B4. -/
theorem test_rd_pulse_reserved :
    part (bus (hostRead 0x32C4#14) (b0 3#32 false)) (fun s => (errors s, s.reads)) =
      some ((0x20#32, 0x32C40005#32, 0#32), [⟨3#32, 0x32C4#14, 0#32⟩]) := by decide

/-- V-E1b. -/
theorem test_misaligned_write :
    part (bus (hostWrite 0x00D#14 1#32) (b0 0#32 false)) (fun s => (errors s, s.cap.hold)) =
      some ((0x20#32, 0x000D0005#32, 1#32), false) := by decide

/-! ### Events -/

/-- V-C1, at tick 25 as in V-R8. -/
theorem test_edge_idle :
    part (exec .evEdgeIdle (b0 25#32 true)) (fun s => (s.cap.state, s.cap.firstEdge, s.cap.deadline, s.cap.dlKind)) =
      some (.seeking, 25#32, 5025#32, .seek) := by decide

/-- V-C2 at 60. -/
theorem test_edge_seeking_short :
    part (exec .evEdgeSeekingShort (seeking 60#32 100#32)) (fun s => (s.cap.state, s.cap.firstEdge, s.cap.deadline)) =
      some (.seeking, 0#32, 5000#32) := by decide

/-- V-C2 at 150. -/
theorem test_edge_seeking_commit :
    part (exec .evEdgeSeekingCommit (seeking 150#32 100#32))
      (fun s => (s.cap.state, pulse s 1, s.buf.pulseCount, s.cap.deadline)) =
      some (.capturing, 150#16, 1#16, 5150#32) := by decide

/-- V-C4b at 150: the preamble interval is a glitch. -/
theorem test_edge_seeking_commit_glitch :
    part
      (exec .evEdgeSeekingCommit
        { seeking 150#32 100#32 with cfg := { State.reset.cfg with minPulseLenUs := 200#32 } })
      (fun s => (s.cap.state, s.buf.pulseCount, s.cap.lastEdge, s.cap.deadline)) =
      some (.capturing, 0#16, 150#32, 5150#32) := by decide

/-- V-C4 at 520. -/
theorem test_edge_capturing_glitch :
    part (exec .evEdgeCapturingGlitch { capturing 520#32 with cfg := { State.reset.cfg with minPulseLenUs := 50#32 } })
      (fun s => (s.cap.lastEdge, s.buf.pulseCount, s.cap.deadline, s.edge.rxPrev)) =
      some (500#32, 1#16, 5500#32, true) := by decide

/-- V-C4 at 900. -/
theorem test_edge_capturing_accept :
    part (exec .evEdgeCapturingAccept { capturing 900#32 with cfg := { State.reset.cfg with minPulseLenUs := 50#32 } })
      (fun s => (pulse s 1, pulse s 2, s.buf.pulseCount, s.cap.deadline)) =
      some (500#16, 400#16, 2#16, 5900#32) := by decide

/-- V-C7b at 70100 and R135: a width above 0xFFFF is stored as 0xFFFF. -/
theorem test_edge_capturing_clamps :
    part (exec .evEdgeCapturingAccept { capturing 70500#32 with cfg := { State.reset.cfg with sampleRate := 1#16 } })
      (fun s => pulse s 2) = some 0xFFFF#16 := by decide

/-- V-C9 at 17100. -/
theorem test_edge_done :
    part (exec .evEdgeDone (done 17100#32))
      (fun s => (readval s .err, readval s .errInfo, s.cap.state, s.ints.pending)) =
      some (1#32, 0#32, .done, 1#4) := by decide

/-- V-C3. -/
theorem test_deadline_seeking :
    part (exec .evDeadlineSeeking { seeking 5000#32 100#32 with env := State.reset.env })
      (fun s => (s.cap.state, s.cap.dlArmed, s.buf.endReason, s.ints.pending)) =
      some (.idle, false, .none, 0#4) := by decide

/-- W1 at 5500. -/
theorem test_deadline_capturing :
    part (exec .evDeadlineCapturing { capturing 5500#32 with edge := { rxPrev := false, rxPrevValid := true } })
      (fun s => (readval s .status, readval s .capturedAt, s.ints.pending)) =
      some (0x00004120#32, 0x157C#32, 0#4) := by decide

/-- V-C6. -/
theorem test_deadline_long_pulse :
    part (exec .evDeadlineCapturing
      { capturing 70500#32 with
        cap := { (capturing 70500#32).cap with deadline := 70500#32 }
        cfg := { State.reset.cfg with signalEndTimeoutUs := 70000#32 } })
      (fun s => s.buf.endReason) = some .reachedLongPulseTimeOut := by decide

/-- V-C10 at 2100. -/
theorem test_poll_end :
    part (exec .evPollEnd { b0 2100#32 false with poll := { isOpen := true, endAt := 2100#32 } })
      (fun s => s.poll.isOpen) = some false := by decide

/-- V-R7: with S = 1 each step of the sequence takes one tick. -/
theorem test_radio_step_second :
    part (exec .evRadioStep
      (sequencing .off .first 1#32 .cmd
        { State.resetOf { Build.reference with settleUs := 1#32 } with now := 6#32 }))
      (fun s => (s.radio.step, s.radio.wait, s.trace)) =
      some (.second, 1#32, [⟨6#32, .txVccEn, false⟩, ⟨6#32, .txData, false⟩]) := by decide

/-- V-R1 at 20. -/
theorem test_radio_step_completes :
    part (exec .evRadioStep (sequencing .rx .second 1#32 .cmd { b0 20#32 false with radio := State.reset.radio }))
      (fun s => (readval s .status, s.ints.pending)) = some (0x00004100#32, 4#4) := by decide

/-- V-T4 at 1300: the zero-length space joins the two marks. -/
theorem test_tx_step_zero_segment :
    part (exec .evTxStep
      (playing .pulse 1#16 1#16 1#32
        { txReady [(0x2004, 0x2C#8), (0x2005, 0x01#8), (0x200C, 0xC8#8)] 3#16 1#16 0#16 with now := 1300#32 }))
      (fun s => (s.trace, s.tx.idx, s.tx.wait)) =
      some ([⟨1300#32, .txData, false⟩, ⟨1300#32, .txData, true⟩], 3#16, 200#32) := by decide

/-- V-T5 at 1500: a zero pause starts the next transmission at once. -/
theorem test_tx_step_zero_pause :
    part (exec .evTxStep
      (playing .pulse 1#16 2#16 1#32 { txReady smallTrain 2#16 2#16 0#16 with now := 1500#32 }))
      (fun s => (s.trace, s.tx.rep, s.tx.idx, s.tx.wait)) =
      some ([⟨1500#32, .txData, false⟩, ⟨1500#32, .txData, true⟩], 2#16, 1#16, 3#32) := by decide

/-! ### Steps -/

/-- V-E5 and V-Z1: a read of NOW_US and one of STATUS in tick 0. -/
theorem test_step_reads :
    part (step (given [.tick (quiet [hostRead 0x02C#14, hostRead 0x010#14])] State.reset)) (fun s => (s.reads, s.now)) =
      some ([⟨0#32, 0x02C#14, 0#32⟩, ⟨0#32, 0x010#14, 0x00000300#32⟩], 1#32) := by decide

/-- V-Z2: no edge at tick 0. -/
theorem test_step_first_tick :
    part (step (given [.tick { rx := true, rssi := 0#16, host := [] }] State.reset)) (fun s => readval s .status) =
      some 0x00010300#32 := by decide

/-- V-C3b: at its tick the deadline goes before the edge. -/
theorem test_step_deadline_before_edge :
    part (step (given [.tick { rx := true, rssi := 0#16, host := [] }] (seeking 5000#32 100#32)))
      (fun s => (s.cap.state, s.cap.firstEdge, s.cap.deadline)) = some (.seeking, 5000#32, 10000#32) := by decide

/-- V-Z4 at one tick of a transmit: reset ends it and drops every output. -/
theorem test_step_reset :
    part (step (given [.reset] (playing .pulse 1#16 1#16 9#32 (txReady smallTrain 2#16 1#16 0#16))))
      (fun s => (s.pins, s.tx.phase, s.buf.repeats, s.now)) = some (Pins.allLow, .idle, 0#16, 0#32) := by decide

/-- The next step from reset runs the word placed by withFetchWord: SET_MODE RX. -/
theorem test_fetch_word :
    part (step (State.reset.withFetchWord 32 0x00000103)) (fun s => (s.radio.busy, s.radio.target)) =
      some (true, .rx) := by decide

/-! ### Witnesses: states that satisfy the invariants -/

/-- pulses[1..2] = 3, 2 transmitted twice with no pause, in TX mode. -/
def txSmall : State := txReady smallTrain 2#16 2#16 0#16

/-- An empty half-pulse transmitted once, in TX mode. -/
def txEmpty : State := txReady [] 1#16 1#16 0#16

/-- The same train in RX mode, with a delivered capture. -/
def rxSmall : State :=
  { done 1000#32 with mem := smallTrain, buf := { State.reset.buf with pulseCount := 2#16, repeats := 2#16 } }

theorem witness_inv_reset : BlockInv (State.reset) where
  buffer := ⟨by decide, by decide, by decide, by decide⟩
  config := ⟨by decide, by decide, by decide, by decide⟩
  capture := ⟨by decide, by decide, by decide, by decide, by decide⟩
  radio := ⟨by decide, by decide, by decide, by decide, fun h => absurd h (by decide), fun _ => rfl⟩
  tx :=
    ⟨by decide, by decide, by decide, by decide, by decide, by decide, by decide, by decide, by decide, by decide⟩
  waits := by decide

theorem witness_trace_reset : TraceInv State.reset := ⟨by decide, by decide⟩

theorem witness_inv_b0 : BlockInv (b0 0#32 false) where
  buffer := ⟨by decide, by decide, by decide, by decide⟩
  config := ⟨by decide, by decide, by decide, by decide⟩
  capture := ⟨by decide, by decide, by decide, by decide, by decide⟩
  radio := ⟨by decide, by decide, by decide, by decide, fun h => absurd h (by decide), fun _ => ⟨rfl, rfl, rfl, rfl⟩⟩
  tx :=
    ⟨by decide, by decide, by decide, by decide, by decide, by decide, by decide, by decide, by decide, by decide⟩
  waits := by decide

theorem witness_inv_tx : BlockInv (txSmall) where
  buffer := ⟨by decide, by decide, by decide, by decide⟩
  config := ⟨by decide, by decide, by decide, by decide⟩
  capture := ⟨by decide, by decide, by decide, by decide, by decide⟩
  radio := ⟨by decide, by decide, by decide, by decide, fun h => absurd h (by decide), fun _ => ⟨rfl, rfl, rfl⟩⟩
  tx :=
    ⟨by decide, by decide, by decide, by decide, by decide, by decide, by decide, by decide, by decide, by decide⟩
  waits := by decide

theorem witness_inv_tx_empty : BlockInv (txEmpty) where
  buffer := ⟨by decide, by decide, by decide, by decide⟩
  config := ⟨by decide, by decide, by decide, by decide⟩
  capture := ⟨by decide, by decide, by decide, by decide, by decide⟩
  radio := ⟨by decide, by decide, by decide, by decide, fun h => absurd h (by decide), fun _ => ⟨rfl, rfl, rfl⟩⟩
  tx :=
    ⟨by decide, by decide, by decide, by decide, by decide, by decide, by decide, by decide, by decide, by decide⟩
  waits := by decide

theorem witness_inv_rx : BlockInv (rxSmall) where
  buffer := ⟨by decide, by decide, by decide, by decide⟩
  config := ⟨by decide, by decide, by decide, by decide⟩
  capture := ⟨by decide, by decide, by decide, by decide, by decide⟩
  radio := ⟨by decide, by decide, by decide, by decide, fun h => absurd h (by decide), fun _ => ⟨rfl, rfl, rfl, rfl⟩⟩
  tx :=
    ⟨by decide, by decide, by decide, by decide, by decide, by decide, by decide, by decide, by decide, by decide⟩
  waits := by decide

theorem witness_inv_playing : BlockInv (playing .pulse 1#16 2#16 2#32 txSmall) where
  buffer := ⟨by decide, by decide, by decide, by decide⟩
  config := ⟨by decide, by decide, by decide, by decide⟩
  capture := ⟨by decide, by decide, by decide, by decide, by decide⟩
  radio := ⟨by decide, by decide, by decide, by decide, fun h => absurd h (by decide), fun _ => ⟨rfl, rfl, rfl⟩⟩
  tx :=
    ⟨by decide, by decide, by decide, by decide, by decide, by decide, by decide, by decide, by decide, by decide⟩
  waits := by decide

theorem inv_given {s : State} (h : BlockInv s) (inputs : List Input) : BlockInv (given inputs s) :=
  h.of_eq rfl rfl rfl rfl rfl rfl rfl rfl rfl rfl

/-! ### Witnesses of the statements' hypotheses -/

theorem witness_decode_of_encode :
    Instr.wf 2047 (.wrPulse 2047#11 5#32) = true ∧ Instr.wf 1 (.rdPulse 1#11) = true ∧
      Instr.wf 1 (.setMode .tx) = true := by decide

theorem witness_command_word :
    decodeCmd 0x00000303#32 = .ok (.setMode .unset) ∧
      decodeCmd 0x00000105#32 = .ok (.updateSlicer .advanced) := by decide

theorem witness_transaction :
    decodeBus 1200 (hostWrite 0x32C0#14 7#32) = .ok (.wrPulse 1200#11 7#32) ∧
      decodeBus 1200 { hostRead 0x0D8#14 with data := 7#32 } = .ok (.rdReg .actFlags) := by decide

/-- Each clause of the illegal words, and legal words beside them. -/
theorem witness_illegal_words :
    IllegalWord 0x00010000#32 ∧ IllegalWord 0x00000007#32 ∧ IllegalWord 0x000000FF#32 ∧ IllegalWord 0x00000101#32 ∧
      IllegalWord 0x00000403#32 ∧ IllegalWord 0x00000205#32 := by
  unfold IllegalWord
  exact ⟨by decide, by decide, by decide, by decide, by decide, by decide⟩

theorem witness_legal_words :
    ¬ IllegalWord 0x00000303#32 ∧ ¬ IllegalWord 0x00000105#32 ∧ ¬ IllegalWord 0x00000006#32 := by
  unfold IllegalWord
  exact ⟨by decide, by decide, by decide⟩

theorem witness_misaligned :
    (hostWrite 0x00D#14 1#32).offset.toNat % 4 ≠ 0 ∧ (hostWrite 0x00D#14 1#32).we = true ∧
      (hostRead 0x3FFF#14).offset.toNat % 4 ≠ 0 ∧ (hostRead 0x3FFF#14).we = false := by decide

/-- Both ends of each mapped range, for C = 1200. -/
theorem witness_mapped :
    State.reset.build.capacity = 1200 ∧ MappedOffset 1200 0x000 ∧ MappedOffset 1200 0x040 ∧ MappedOffset 1200 0x080 ∧
      MappedOffset 1200 0x098 ∧ MappedOffset 1200 0x0C0 ∧ MappedOffset 1200 0x0D8 ∧ MappedOffset 1200 0x2000 ∧
      MappedOffset 1200 0x32C0 := by
  refine ⟨rfl, ?_⟩
  unfold MappedOffset
  omega

/-- Both ends of each reserved range, for C = 1200. -/
theorem witness_reserved :
    ¬ MappedOffset 1200 0x044 ∧ ¬ MappedOffset 1200 0x07C ∧ ¬ MappedOffset 1200 0x09C ∧ ¬ MappedOffset 1200 0x0BC ∧
      ¬ MappedOffset 1200 0x0DC ∧ ¬ MappedOffset 1200 0x1FFC ∧ ¬ MappedOffset 1200 0x32C4 ∧
      ¬ MappedOffset 1200 0x3FFC := by
  unfold MappedOffset
  omega

theorem witness_aligned :
    (hostRead 0x32C0#14).offset.toNat % 4 = 0 ∧ (hostWrite 0x044#14 1#32).offset.toNat % 4 = 0 ∧
      (hostWrite 0x044#14 1#32).we = true ∧ (hostRead 0x32C4#14).we = false := by decide

theorem witness_step_runs :
    ∃ u, (given [.tick (quiet [hostRead 0x000#14])] State.reset).env.inputs = [.tick (quiet [hostRead 0x000#14])] ∧
      blockPhases (sampleInputs (quiet [hostRead 0x000#14])
        (takeInput (given [.tick (quiet [hostRead 0x000#14])] State.reset))) = .next u ∧
      decodeBus u.build.capacity (hostRead 0x000#14) = .ok (.rdReg .id) := ⟨_, rfl, rfl, by decide⟩

theorem witness_no_event :
    State.reset.radio.busy = false ∧ txBusy State.reset = false ∧ deadlineDue State.reset = false ∧
      pollDue State.reset = false ∧ edgeObserved State.reset = false := by decide

theorem witness_phases :
    ∃ a1 a2 a3 a4 a5 u, radioPhase (sampleInputs (quiet [hostRead 0x000#14]) State.reset) = .next a1 ∧
      txPhase a1 = .next a2 ∧ deadlinePhase a2 = .next a3 ∧ pollPhase a3 = .next a4 ∧ edgePhase a4 = .next a5 ∧
      hostPhase [hostRead 0x000#14] a5 = .next u := ⟨_, _, _, _, _, _, rfl, rfl, rfl, rfl, rfl, rfl⟩

theorem witness_keep_phases :
    ∃ a1 a2 a3 a4 a5, BlockInv State.reset ∧ radioPhase State.reset = .next a1 ∧ txPhase a1 = .next a2 ∧
      deadlinePhase a2 = .next a3 ∧ pollPhase a3 = .next a4 ∧ edgePhase a4 = .next a5 :=
  ⟨_, _, _, _, _, witness_inv_reset, rfl, rfl, rfl, rfl, rfl⟩

/-- Each event phase's condition holds somewhere, in each capture state that has a row. -/
theorem witness_events :
    (sequencing .off .first 2#32 .cmd State.reset).radio.busy = true ∧
      (playing .pulse 1#16 1#16 3#32 txSmall).tx.phase ≠ .idle ∧ deadlineDue (seeking 5000#32 100#32) = true ∧
      deadlineDue (capturing 5500#32) = true ∧
      pollDue { b0 7#32 false with poll := { isOpen := true, endAt := 7#32 } } = true ∧
      edgeObserved (b0 0#32 true) = true ∧ edgeObserved (seeking 99#32 100#32) = true ∧
      edgeObserved (capturing 900#32) = true ∧ edgeObserved (done 900#32) = true := by decide

theorem witness_reset_input :
    (given [.reset, .tick (quiet [])] txSmall).env.inputs = .reset :: [.tick (quiet [])] := rfl

theorem witness_window :
    (1200#11).toNat ≤ State.reset.build.capacity ∧ State.reset.build.capacity < (1201#11).toNat ∧
      (0#11).toNat ≤ State.reset.build.capacity := by decide

theorem witness_gated :
    quiescent held = true ∧ (1200#11).toNat ≤ held.build.capacity ∧ Memory.wf held.mem = true ∧
      quiescent (b0 0#32 false) = false := by decide

theorem witness_fatal :
    (fatal (b0 0#32 false)).errs.flags.getLsbD 6 = true ∧ (b0 0#32 false).errs.flags.getLsbD 6 = false := by decide

/-- An operation that records an error changes each part of the record (R231). -/
theorem witness_error :
    ∃ t, exec (.wrRoId 7#32) held = .next t ∧ t.errs.cause ≠ held.errs.cause ∧ t.errs.data ≠ held.errs.data ∧
      t.errs.flags.getLsbD 5 = true ∧ held.errs.flags.getLsbD 5 = false := ⟨_, rfl, by decide⟩

theorem witness_error_address : ∃ t, exec (.wrRoCaps 7#32) held = .next t ∧ t.errs.addr ≠ held.errs.addr :=
  ⟨_, rfl, by decide⟩

theorem witness_sticky :
    (∃ t, exec (.wrErr 0x7F#32) (fatal { held with errs := { held.errs with flags := 0x60#7 } }) = .next t ∧
      t.errs.flags.getLsbD 6 = true) ∧
    (∃ t, exec (.wrErr 0x20#32) { held with errs := { held.errs with flags := 0x60#7 } } = .next t ∧
      t.errs.flags.getLsbD 5 = false) ∧
    ∃ t, exec (.wrIntPend 1#32) (done 7#32) = .next t ∧ (done 7#32).ints.pending.getLsbD 0 = true ∧
      t.ints.pending.getLsbD 0 = false := ⟨⟨_, rfl, by decide⟩, ⟨_, rfl, by decide⟩, ⟨_, rfl, by decide⟩⟩

theorem witness_event_under_fatal : ∃ t, exec .evEdgeIdle (fatal (b0 7#32 true)) = .next t ∧ t.cap.state = .seeking :=
  ⟨_, rfl, by decide⟩

/-- The three branches of REFRESH_CONFIG. -/
theorem witness_refresh :
    held.errs.flags.getLsbD 6 = false ∧ quiescent held = true ∧ cfgValid held.build.capacity held.cfgSh = true ∧
      cfgValid held.build.capacity { held.cfgSh with sampleRate := 0#16 } = false ∧
      quiescent (b0 0#32 false) = false := by decide

theorem witness_set_mode :
    State.reset.errs.flags.getLsbD 6 = false ∧ RadioMode.rx ≠ .unset ∧ RadioMode.rx ≠ State.reset.radio.mode ∧
      (sequencing .rx .first 3#32 .cmd State.reset).radio.busy = true := by decide

/-- The three reasons to turn RAW_SEND away. -/
theorem witness_raw_send_rejected :
    State.reset.errs.flags.getLsbD 6 = false ∧ (sequencing .rx .first 3#32 .cmd State.reset).radio.busy = true ∧
      (playing .pulse 1#16 1#16 3#32 txSmall).tx.phase ≠ .idle ∧
      (State.reset.radio.busy = false ∧ State.reset.tx.phase = .idle ∧ State.reset.radio.mode = .unset) ∧
      ((capturing 900#32).radio.busy = false ∧ (capturing 900#32).tx.phase = .idle ∧
        (capturing 900#32).radio.mode ≠ .unset ∧ (capturing 900#32).cap.state = .capturing) ∧
      (seeking 90#32 100#32).cap.state = .seeking := by decide

/-- RAW_SEND past its checks: nothing to send, from RX, from TX with a first half-pulse, and with an empty one. -/
theorem witness_raw_send_accepted :
    (held.errs.flags.getLsbD 6 = false ∧ held.radio.busy = false ∧ held.tx.phase = .idle ∧ held.radio.mode ≠ .unset ∧
      held.cap.state ≠ .seeking ∧ held.cap.state ≠ .capturing ∧ held.buf.repeats = 0#16) ∧
      (rxSmall.errs.flags.getLsbD 6 = false ∧ rxSmall.radio.busy = false ∧ rxSmall.tx.phase = .idle ∧
        rxSmall.cap.state = .done ∧ rxSmall.buf.repeats ≠ 0#16 ∧ rxSmall.buf.pulseCount ≠ 0#16 ∧
        rxSmall.radio.mode = .rx) ∧
      (txSmall.buf.repeats ≠ 0#16 ∧ txSmall.buf.pulseCount ≠ 0#16 ∧ txSmall.radio.mode = .tx ∧
        1 ≤ txSmall.build.capacity ∧ halfPulseTicks 1 txSmall = 3) ∧
      txEmpty.radio.mode = .tx ∧ halfPulseTicks 1 txEmpty = 0 := by decide

theorem witness_scan :
    (b0 0#32 false).errs.flags.getLsbD 6 = false ∧
      (let c := { (b0 0#32 false).cfg with asyncMode := false, seekTimeoutMs := 1#16 }
       c.asyncMode = false ∧ 0 < c.seekTimeoutMs.toNat) := by decide

/-- The four cases of the radio's step. -/
theorem witness_radio_step :
    State.reset.radio.busy = false ∧
      ((sequencing .rx .first 2#32 .cmd State.reset).radio.busy = true ∧
        (sequencing .rx .first 2#32 .cmd State.reset).radio.wait ≠ 1#32) ∧
      ((sequencing .rx .first 1#32 .cmd State.reset).radio.wait = 1#32 ∧
        (sequencing .rx .first 1#32 .cmd State.reset).radio.step = .first) ∧
      ((sequencing .rx .second 1#32 .tx State.reset).radio.wait = 1#32 ∧
        (sequencing .rx .second 1#32 .tx State.reset).radio.step = .second) := by decide

theorem witness_mode_change :
    BlockInv State.reset ∧ State.reset.errs.flags.getLsbD 6 = false ∧ RadioMode.rx ≠ .unset ∧
      State.reset.radio.busy = false ∧ State.reset.tx.phase = .idle ∧ RadioMode.rx ≠ State.reset.radio.mode ∧
      State.reset.build.settleUs.toNat = 10 :=
  ⟨witness_inv_reset, by decide, by decide, by decide, by decide, by decide, by decide⟩

/-- An edge in IDLE, held and not. -/
theorem witness_idle_edge :
    (edgeObserved (b0 7#32 true) = true ∧ (b0 7#32 true).cap.state = .idle ∧ (b0 7#32 true).cap.hold = false) ∧
      edgeObserved { held with env := { held.env with rxIn := true } } = true ∧ held.cap.state = .idle ∧
      held.cap.hold = true := by decide

/-- The last interval that is too short, in SEEKING and in CAPTURING. -/
theorem witness_short :
    (edgeObserved (seeking 99#32 100#32) = true ∧ (seeking 99#32 100#32).cap.state = .seeking ∧
      ((seeking 99#32 100#32).now - (seeking 99#32 100#32).cap.firstEdge).toNat <
        (seeking 99#32 100#32).cfg.minPreambleUs.toNat) ∧
      let s := { capturing 549#32 with cfg := { State.reset.cfg with minPulseLenUs := 50#32 } }
      edgeObserved s = true ∧ s.cap.state = .capturing ∧
        (s.now - s.cap.lastEdge).toNat < s.cfg.minPulseLenUs.toNat := by decide

/-- The first interval that commits, stored and as a glitch, with room and with C = 1. -/
theorem witness_commit :
    (let s := seeking 100#32 100#32
     edgeObserved s = true ∧ s.cap.state = .seeking ∧ Memory.wf s.mem = true ∧ 1 ≤ s.build.capacity ∧
      s.cfg.minPreambleUs.toNat ≤ (s.now - s.cap.firstEdge).toNat ∧
      s.cfg.minPulseLenUs.toNat ≤ (s.now - s.cap.firstEdge).toNat) ∧
    (let s := { seeking 100#32 100#32 with cfg := { State.reset.cfg with minPulseLenUs := 101#32 } }
     edgeObserved s = true ∧ s.cap.state = .seeking ∧ s.cfg.minPreambleUs.toNat ≤ (s.now - s.cap.firstEdge).toNat ∧
      (s.now - s.cap.firstEdge).toNat < s.cfg.minPulseLenUs.toNat) ∧
    (let s := { seeking 100#32 100#32 with build := small 1 }
     edgeObserved s = true ∧ s.cap.state = .seeking ∧ s.build.capacity = 1) := by decide

/-- An accepted pulse with room, and one that fills the buffer. -/
theorem witness_accept :
    (let s := { capturing 550#32 with cfg := { State.reset.cfg with minPulseLenUs := 50#32 } }
     edgeObserved s = true ∧ s.cap.state = .capturing ∧ Memory.wf s.mem = true ∧
      s.buf.pulseCount.toNat < s.build.capacity ∧ s.build.capacity ≤ 2047 ∧
      s.cfg.minPulseLenUs.toNat ≤ (s.now - s.cap.lastEdge).toNat) ∧
    (let s := { capturing 900#32 with build := small 2 }
     edgeObserved s = true ∧ s.cap.state = .capturing ∧ s.buf.pulseCount.toNat + 1 = s.build.capacity) := by decide

theorem witness_done_edge : edgeObserved (done 900#32) = true ∧ (done 900#32).cap.state = .done := by decide

/-- The silence deadline, with the pending interval at and above the longest a word holds, and an adaptive one. -/
theorem witness_silence :
    ((capturing 5500#32).cap.dlArmed = true ∧ (capturing 5500#32).now = (capturing 5500#32).cap.deadline ∧
      (capturing 5500#32).cap.state = .capturing ∧ (capturing 5500#32).cap.dlKind ≠ .adaptive ∧
      ((capturing 66035#32).now - (capturing 66035#32).cap.lastEdge).toNat = 0xFFFF) ∧
    (let s := { capturing 66036#32 with cap := { (capturing 66036#32).cap with deadline := 66036#32 } }
     s.cap.dlArmed = true ∧ s.now = s.cap.deadline ∧ s.cap.state = .capturing ∧
      (s.now - s.cap.lastEdge).toNat / s.cfg.sampleRate.toNat > 0xFFFF) ∧
    (let s := { capturing 5500#32 with cap := { (capturing 5500#32).cap with dlKind := .adaptive } }
     s.cap.dlArmed = true ∧ s.now = s.cap.deadline ∧ s.cap.state = .capturing ∧ s.cap.dlKind = .adaptive) := by decide

theorem witness_seek_deadline :
    ((seeking 5000#32 100#32).cap.dlArmed = true ∧
      (seeking 5000#32 100#32).now = (seeking 5000#32 100#32).cap.deadline ∧
      (seeking 5000#32 100#32).cap.state = .seeking) ∧
    (let s := { b0 2100#32 false with poll := { isOpen := true, endAt := 2100#32 } }
     s.poll.isOpen = true ∧ s.now = s.poll.endAt) := by decide

/-- The TX engine's waits. -/
theorem witness_tx_waits :
    txSmall.tx.phase = .idle ∧
      (let s := sequencing .tx .first 3#32 .tx (playing .acquire 0#16 0#16 0#32 txSmall)
       s.tx.phase = .acquire ∧ s.radio.busy = true) ∧
      (let s := sequencing .rx .first 3#32 .tx (playing .release 2#16 2#16 0#32 txSmall)
       s.tx.phase = .release ∧ s.radio.busy = true) ∧
      ((playing .pulse 1#16 1#16 2#32 txSmall).tx.phase = .pulse ∧
        (playing .pulse 1#16 1#16 2#32 txSmall).tx.wait ≠ 1#32) ∧
      ((playing .release 2#16 2#16 0#32 txSmall).tx.phase = .release ∧
        (playing .release 2#16 2#16 0#32 txSmall).radio.busy = false) := by decide

/-- The TX engine's advances: each clause, and both of the kinds of the next segment. -/
theorem witness_tx_advances :
    (txSmall.buf.pulseCount.toNat ≤ txSmall.build.capacity ∧ 1 ≤ txSmall.buf.pulseCount.toNat) ∧
      ((playing .acquire 0#16 0#16 0#32 txSmall).tx.phase = .acquire ∧
        (playing .acquire 0#16 0#16 0#32 txSmall).radio.busy = false) ∧
      (let s := playing .pulse 1#16 1#16 1#32 txSmall
       s.tx.phase = .pulse ∧ s.tx.wait = 1#32 ∧ s.tx.idx.toNat < s.buf.pulseCount.toNat) ∧
      (let s := playing .gap 1#16 2#16 1#32 txSmall
       s.tx.phase = .gap ∧ s.tx.wait = 1#32 ∧ s.tx.rep.toNat < s.buf.repeats.toNat) ∧
      (let s := playing .pulse 1#16 2#16 1#32 txSmall
       s.tx.phase = .pulse ∧ s.tx.wait = 1#32 ∧ s.buf.pulseCount.toNat ≤ s.tx.idx.toNat ∧
        s.tx.rep.toNat < s.buf.repeats.toNat) ∧
      (let s := playing .pulse 2#16 2#16 1#32 txSmall
       s.tx.phase = .pulse ∧ s.tx.wait = 1#32 ∧ s.buf.pulseCount.toNat ≤ s.tx.idx.toNat ∧
        s.buf.repeats.toNat ≤ s.tx.rep.toNat ∧ s.tx.prior = .tx ∧
        { s.tx with prior := .rx }.prior ≠ .tx) := by decide

theorem witness_transmit_frame :
    (∃ t, exec .evTxStep (playing .pulse 1#16 1#16 1#32 txSmall) = .next t) ∧ ∃ t, exec .rawSend txSmall = .next t :=
  ⟨⟨_, rfl⟩, ⟨_, rfl⟩⟩

/-- The hypotheses of the waveform's statement: a train of 5 ticks twice in TX mode. -/
theorem witness_replay_tx :
    let s := txSmall
    BlockInv s ∧ s.errs.flags.getLsbD 6 = false ∧ s.radio.busy = false ∧ s.tx.phase = .idle ∧ s.radio.mode = .tx ∧
      s.cap.state ≠ .seeking ∧ s.cap.state ≠ .capturing ∧ s.buf.pulseCount ≠ 0#16 ∧ s.buf.repeats ≠ 0#16 ∧
      ((train 2 s).map fun v => v.toNat * 1).sum = 5 :=
  ⟨witness_inv_tx, by decide, by decide, by decide, by decide, by decide, by decide, by decide, by decide, by decide⟩

/-- The same train from RX, with a delivered capture. -/
theorem witness_replay_rx :
    let s := rxSmall
    BlockInv s ∧ s.errs.flags.getLsbD 6 = false ∧ s.radio.busy = false ∧ s.tx.phase = .idle ∧ s.radio.mode = .rx ∧
      s.cap.state = .done ∧ s.buf.pulseCount ≠ 0#16 ∧ s.buf.repeats ≠ 0#16 :=
  ⟨witness_inv_rx, by decide, by decide, by decide, by decide, by decide, by decide, by decide⟩

/-- A train of no ticks: the transmit ends in the step of RAW_SEND itself. -/
theorem witness_replay_empty :
    let s := txEmpty
    BlockInv s ∧ s.errs.flags.getLsbD 6 = false ∧ s.radio.busy = false ∧ s.tx.phase = .idle ∧ s.radio.mode = .tx ∧
      s.cap.state ≠ .seeking ∧ s.cap.state ≠ .capturing ∧ s.buf.pulseCount ≠ 0#16 ∧ s.buf.repeats ≠ 0#16 ∧
      ((train 1 s).map fun v => v.toNat * 1).sum = 0 :=
  ⟨witness_inv_tx_empty, by decide, by decide, by decide, by decide, by decide, by decide, by decide, by decide,
    by decide⟩

theorem witness_not_interruptible :
    BlockInv (playing .pulse 1#16 2#16 2#32 txSmall) ∧ (playing .pulse 1#16 2#16 2#32 txSmall).tx.phase ≠ .idle ∧
      (playing .pulse 1#16 2#16 2#32 txSmall).errs.flags.getLsbD 6 = false ∧
      ∃ t, exec .consume (playing .pulse 1#16 2#16 2#32 txSmall) = .next t :=
  ⟨witness_inv_playing, by decide, by decide, ⟨_, rfl⟩⟩

theorem witness_step :
    ∃ t, BlockInv (given [.tick (quiet [])] State.reset) ∧ TraceInv (given [.tick (quiet [])] State.reset) ∧
      step (given [.tick (quiet [])] State.reset) = .next t :=
  ⟨_, inv_given witness_inv_reset _, ⟨by decide, by decide⟩, rfl⟩

theorem witness_config_changes :
    ∃ t, exec .refreshConfig { held with cfgSh := { held.cfgSh with sampleRate := 2#16 } } = .next t ∧
      t.cfg ≠ held.cfg := ⟨_, rfl, by decide⟩

theorem witness_mode_changes :
    ∃ t, exec .evRadioStep (sequencing .off .second 1#32 .cmd State.reset) = .next t ∧ t.radio.mode ≠ .unset :=
  ⟨_, rfl, by decide⟩

theorem witness_ready_rises :
    ∃ t, exec .evDeadlineCapturing
        { capturing 5500#32 with cfg := { State.reset.cfg with minRawPulses := 1#16 } } = .next t ∧
      (capturing 5500#32).cap.ready = false ∧ t.cap.ready = true := ⟨_, rfl, by decide⟩

theorem witness_ready_falls :
    ∃ t, exec .consume (done 7#32) = .next t ∧ (done 7#32).cap.ready = true ∧ t.cap.ready = false := ⟨_, rfl, by decide⟩

/-- The three operations that write the buffer. -/
theorem witness_buffer :
    (∃ t, exec (.wrPulse 1200#11 7#32) held = .next t) ∧
      (∃ t, exec .evEdgeSeekingCommit (seeking 150#32 100#32) = .next t) ∧
      ∃ t, exec .evEdgeCapturingAccept (capturing 900#32) = .next t := ⟨⟨_, rfl⟩, ⟨_, rfl⟩, ⟨_, rfl⟩⟩

end Sys2Proof.Tests
end

/-!
The family of 10_state.md: what every operation and every phase of a tick keeps. Each rule over all operations is a case
analysis over Effect (Laws/Exec.lean), stated once per group of the state, and each statement is read off these cases.
-/
namespace Sys2Proof.Machine

/-! ### Phases and transactions as effects -/

theorem radioPhase_effect {s t : State} (h : radioPhase s = .next t) : Effect .evRadioStep s t := by
  rw [radioPhase_eq] at h
  cases next_inj h
  exact .radioStepped s

theorem txPhase_effect {s t : State} (h : txPhase s = .next t) : Effect .evTxStep s t :=
  .txStepped (by rwa [txPhase_eq] at h)

theorem deadlinePhase_effect {s t : State} (h : deadlinePhase s = .next t) :
    ∃ i, Effect i s t ∧ i ≠ .evRadioStep := by
  rw [deadlinePhase_eq] at h
  split at h
  · rename_i hd
    split at h <;> cases next_inj h
    · rename_i hs; exact ⟨_, .abandoned hd hs, by simp⟩
    · rename_i hs; exact ⟨_, .timedOut hd hs, by simp⟩
    · exact ⟨.nop, .same .., by simp⟩
  · cases next_inj h; exact ⟨.nop, .same .., by simp⟩

theorem pollPhase_effect {s t : State} (h : pollPhase s = .next t) : Effect .evPollEnd s t := by
  rw [pollPhase_eq] at h
  exact execEvPollEnd_effect h

theorem edgePhase_effect {s t : State} (h : edgePhase s = .next t) : ∃ i, Effect i s t ∧ i ≠ .evRadioStep := by
  rcases edgePhase_cases s with e | ⟨i, e, -, hi, -⟩
  · rw [e] at h
    cases next_inj h
    exact ⟨.evEdgeIdle, .sampled (.inl rfl), by simp⟩
  · exact ⟨i, exec_effect (e.symm.trans h), hi⟩

/-- A transaction is an operation other than the radio's step, or is recorded as outside the map (R81). -/
theorem bus_cases {h : BusTxn} {s t : State} (ht : bus h s = .next t) :
    (∃ i, Effect i s t ∧ i ≠ .evRadioStep) ∨ t = rejectTxn h s := by
  unfold bus at ht
  split at ht
  · rename_i hd; exact .inl ⟨_, exec_effect ht, decodeBus_ne_radioStep hd⟩
  · exact .inr (next_inj ht).symm

/-- The phases A1 to B, each on what the one before it leaves (R56). -/
theorem blockPhases_eq_next {s t : State} :
    blockPhases s = .next t ↔
      ∃ a1, radioPhase s = .next a1 ∧ ∃ a2, txPhase a1 = .next a2 ∧ ∃ a3, deadlinePhase a2 = .next a3 ∧
        ∃ a4, pollPhase a3 = .next a4 ∧ edgePhase a4 = .next t := by
  simp only [blockPhases, andThen_eq_next]

/-- A tick is the block's phases, the transactions and the end of the tick (R56). -/
theorem tick_eq_next {i : TickInput} {s t : State} :
    tick i s = .next t ↔
      ∃ a, blockPhases (sampleInputs i s) = .next a ∧ ∃ u, hostPhase i.host a = .next u ∧ endTick u = t := by
  simp only [tick, andThen_eq_next, Host.Outcome.next.injEq]

/-- A bus transaction followed by the rest of the tick's (R69). -/
theorem hostPhase_cons_eq_next {h : BusTxn} {hs : List BusTxn} {s t : State} :
    hostPhase (h :: hs) s = .next t ↔ ∃ u, bus h s = .next u ∧ hostPhase hs u = .next t :=
  andThen_eq_next

/-- What is known of the answer of an outcome holds of the state the outcome is. -/
theorem of_answer {o : Out} {P : State → Prop} {t : State} (h : ∃ u, o = .next u ∧ P u) (ht : o = .next t) : P t := by
  obtain ⟨u, hu, hp⟩ := h
  exact next_inj (hu.symm.trans ht) ▸ hp

/-! ### The invariant of the block (R59) -/

/-- The reset configuration is valid for every capacity (R37, R39). -/
theorem resetConfig_valid (capacity : Nat) : cfgValid capacity (TimingConfig.reset capacity) = true := by
  have hcount : min 24 capacity % 2 ^ 16 ≤ capacity := (Nat.mod_le _ _).trans (Nat.min_le_right _ _)
  simpa [cfgValid, TimingConfig.reset] using hcount

/-- The reset state of a build in range has the invariant (R262). -/
theorem resetOf_inv {b : Build} (h : b.wf = true) : BlockInv (State.resetOf b) where
  buffer := ⟨h, rfl, rfl, Nat.zero_le _⟩
  config :=
    ⟨resetConfig_valid _, by simp [State.resetOf, TimingConfig.reset], by simp [State.resetOf, TimingConfig.reset], rfl⟩
  capture := CaptureInv.of_closed (by simp [State.resetOf]) rfl rfl
  radio := ⟨rfl, by simp [State.resetOf], by simp [State.resetOf], by simp [State.resetOf], by simp [State.resetOf],
    fun _ => rfl⟩
  tx := TxInv.of_idle rfl (by simp [State.resetOf])
  waits := by simp [State.resetOf]

theorem platformReset_inv {s : State} (h : BlockInv s) : BlockInv (platformReset s) :=
  (resetOf_inv h.buffer.build).of_eq rfl rfl rfl rfl rfl rfl rfl rfl rfl rfl

theorem takeInput_inv {s : State} (h : BlockInv s) : BlockInv (takeInput s) :=
  h.of_eq rfl rfl rfl rfl rfl rfl rfl rfl rfl rfl

/-- The transactions of a tick answer next and keep the invariant (R69, R81). -/
theorem hostPhase_inv (hs : List BusTxn) {s : State} (h : BlockInv s) : ∃ t, hostPhase hs s = .next t ∧ BlockInv t := by
  induction hs generalizing s with
  | nil => exact ⟨s, rfl, h⟩
  | cons x hs ih =>
    obtain ⟨u, hu, hui⟩ := bus_inv (h := x) h
    obtain ⟨t, ht, hti⟩ := ih hui
    exact ⟨t, hostPhase_cons_eq_next.2 ⟨u, hu, ht⟩, hti⟩

/-- A tick answers next and keeps the invariant (R56, R59). -/
theorem tick_inv (i : TickInput) {s : State} (h : BlockInv s) : ∃ t, tick i s = .next t ∧ BlockInv t := by
  obtain ⟨a, ha, hai⟩ := blockPhases_inv (sampleInputs_inv i h)
  obtain ⟨u, hu, hui⟩ := hostPhase_inv i.host hai
  exact ⟨endTick u, tick_eq_next.2 ⟨a, ha, u, hu, rfl⟩, endTick_inv hui⟩

/-- A step answers next and keeps the invariant, whatever its input (R59, R61). -/
theorem step_inv {s : State} (h : BlockInv s) : ∃ t, step s = .next t ∧ BlockInv t := by
  unfold step runInput
  split
  · exact tick_inv _ (takeInput_inv h)
  · exact ⟨_, rfl, platformReset_inv (takeInput_inv h)⟩

/-- Settles O53: a tick keeps the invariant phase by phase, and a reset has that of the reset state. -/
theorem stepKeepsInvariant : Obligations.StepKeepsInvariant := fun _ _ h ht => of_answer (step_inv h) ht

/-- Settles O55: the radio's step keeps the invariant of a phase, the TX engine's step restores that of the end of a
tick, and every other operation keeps the latter. -/
theorem phasesKeepInvariant : Obligations.PhasesKeepInvariant := by
  intro s a1 a2 a3 a4 a5 h hradio htx hdeadline hpoll hedge
  rw [radioPhase_eq] at hradio
  have h1 : PhaseInv a1 := next_inj hradio ▸ radioAdvance_phaseInv h.toPhaseInv
  rw [txPhase_eq] at htx
  have h2 : BlockInv a2 := of_answer (txAdvance_inv h1) htx
  obtain ⟨i, hi, hne⟩ := deadlinePhase_effect hdeadline
  have h3 : BlockInv a3 := effect_inv hi hne h2
  have h4 : BlockInv a4 := effect_inv (pollPhase_effect hpoll) (by simp) h3
  obtain ⟨j, hj, hne⟩ := edgePhase_effect hedge
  exact ⟨h1, h2, h3, h4, effect_inv hj hne h4⟩

end Sys2Proof.Machine

/-! Who writes the radio, the outputs, the trace and the TX engine. -/
namespace Sys2Proof.Machine

/-! ### The radio under every operation -/

/-- The radio, the outputs, the trace and the TX engine are as they were. -/
structure RadioFrame (s t : State) : Prop where
  radio : t.radio = s.radio
  pins : t.pins = s.pins
  trace : t.trace = s.trace
  tx : t.tx = s.tx

/-- Only SET_MODE, RAW_SEND, the radio's step and the TX engine's step write the radio, the outputs, the trace or the TX
engine (R118, R198). -/
theorem effect_radio_cases {i : Instr} {s t : State} (he : Effect i s t) :
    RadioFrame s t ∨ (eventRow i = false ∧ ((∃ m, t = radioStart m .cmd s) ∨ rawSendAccept s = .next t)) ∨
      (i = .evRadioStep ∧ t = radioAdvance s) ∨ (i = .evTxStep ∧ txAdvance s = .next t) := by
  induction he with
  | command hw _ ih =>
    rcases ih with h | ⟨-, h⟩ | ⟨rfl, -⟩ | ⟨rfl, -⟩
    · exact .inl h
    · exact .inr (.inl ⟨rfl, h⟩)
    · simpa using decodeCmd_cases hw
    · simpa using decodeCmd_cases hw
  | @modeStarted m => exact .inr (.inl ⟨rfl, .inl ⟨m, rfl⟩⟩)
  | sent _ _ _ _ _ h => exact .inr (.inl ⟨rfl, .inr h⟩)
  | radioStepped => exact .inr (.inr (.inl ⟨rfl, rfl⟩))
  | txStepped h => exact .inr (.inr (.inr ⟨rfl, h⟩))
  | seeking => exact .inl (by constructor <;> simp)
  | committed _ _ _ h =>
    left
    rcases seekCommit_eq_next h with rfl | rfl <;> constructor <;> simp
  | accepted _ _ _ h =>
    left
    cases acceptPulse_eq_next h
    constructor <;> simp
  | timedOut => exact .inl (by constructor <;> simp)
  | _ => exact .inl ⟨rfl, rfl, rfl, rfl⟩

/-! ### The output trace (R43, R116) -/

theorem TraceInv.rawSendAccept {s t : State} (ht : rawSendAccept s = .next t) (h : TraceInv s) : TraceInv t := by
  unfold Machine.rawSendAccept at ht
  simp only at ht
  split at ht
  · cases next_inj ht; exact h.of_eq rfl rfl
  · split at ht
    · exact TraceInv.playTransmission ht (h.of_eq rfl rfl)
    · cases next_inj ht
      exact TraceInv.radioStart (s := { s with tx := { s.tx with phase := .acquire, prior := s.radio.mode } })
        (h.of_eq rfl rfl) _ _

/-- Every operation keeps the trace safe; only the radio's step needs to know how far its sequence has come. -/
theorem effect_traceInv {i : Instr} {s t : State} (he : Effect i s t) (hr : RadioInv s) (h : TraceInv s) :
    TraceInv t := by
  rcases effect_radio_cases he with hf | ⟨-, ⟨m, rfl⟩ | hsend⟩ | ⟨-, rfl⟩ | ⟨-, htx⟩
  · exact h.of_eq hf.trace hf.pins
  · exact h.radioStart m .cmd
  · exact TraceInv.rawSendAccept hsend h
  · exact h.radioAdvance hr
  · exact TraceInv.txAdvance htx h

theorem blockPhases_traceInv {s t : State} (ht : blockPhases s = .next t) (hi : BlockInv s) (h : TraceInv s) :
    TraceInv t := by
  obtain ⟨a1, hradio, a2, htx, a3, hdeadline, a4, hpoll, hedge⟩ := blockPhases_eq_next.1 ht
  obtain ⟨i1, i2, i3, i4, -⟩ := phasesKeepInvariant s a1 a2 a3 a4 t hi hradio htx hdeadline hpoll hedge
  obtain ⟨i, hdeadline, -⟩ := deadlinePhase_effect hdeadline
  obtain ⟨j, hedge, -⟩ := edgePhase_effect hedge
  have h1 := effect_traceInv (radioPhase_effect hradio) hi.radio h
  have h2 := effect_traceInv (txPhase_effect htx) i1.radio h1
  have h3 := effect_traceInv hdeadline i2.radio h2
  have h4 := effect_traceInv (pollPhase_effect hpoll) i3.radio h3
  exact effect_traceInv hedge i4.radio h4

theorem bus_traceInv {x : BusTxn} {s t : State} (ht : bus x s = .next t) (hi : BlockInv s) (h : TraceInv s) :
    TraceInv t := by
  rcases bus_cases ht with ⟨i, he, -⟩ | rfl
  · exact effect_traceInv he hi.radio h
  · exact h.of_eq (by simp) (by simp)

theorem hostPhase_traceInv {hs : List BusTxn} {s t : State} (ht : hostPhase hs s = .next t) (hi : BlockInv s)
    (h : TraceInv s) : TraceInv t := by
  induction hs generalizing s with
  | nil => exact next_inj ht ▸ h
  | cons x hs ih =>
    obtain ⟨u, hu, ht⟩ := hostPhase_cons_eq_next.1 ht
    exact ih ht (of_answer (bus_inv hi) hu) (bus_traceInv hu hi h)

theorem platformReset_traceInv (s : State) : TraceInv (platformReset s) := ⟨rfl, rfl⟩

/-- Settles O56: each phase and each transaction of a tick keeps the trace safe, given the invariant of the phase before
it; a reset begins a new trace. -/
theorem traceNeverPowersBoth : Obligations.TraceNeverPowersBoth := by
  intro s t hi h ht
  unfold step runInput at ht
  split at ht
  · rename_i i _
    obtain ⟨a, ha, u, hu, rfl⟩ := tick_eq_next.1 ht
    have hsampled : BlockInv (sampleInputs i (takeInput s)) := sampled_inv i hi
    have hta : TraceInv a := blockPhases_traceInv ha hsampled (h.of_eq rfl rfl)
    exact (hostPhase_traceInv hu (of_answer (blockPhases_inv hsampled) ha) hta).of_eq rfl rfl
  · exact next_inj ht ▸ platformReset_traceInv _

/-! ### The radio mode (R40, R114) -/

/-- The radio's step changes the mode only where it completes a sequence. -/
theorem radioAdvance_mode_cases (s : State) :
    (radioAdvance s).radio.mode = s.radio.mode ∨
      s.radio.busy = true ∧ s.radio.step ≠ .first ∧ radioAdvance s = radioComplete s := by
  unfold radioAdvance
  split
  · rename_i hb
    split
    · split
      · exact .inl (by simp)
      · rename_i hs; exact .inr ⟨hb, hs, rfl⟩
    · exact .inl rfl
  · exact .inl rfl

/-- Settles O58: of the operations that write the radio, only the completing step of the sequencer writes the mode, and
none of them is an event of the capture engine. -/
theorem radioModeChangesOnlyAtSequenceEnd : Obligations.RadioModeChangesOnlyAtSequenceEnd := by
  refine ⟨fun i s t h hne => ?_, fun i hi s t h => ?_⟩
  · rcases effect_radio_cases (exec_effect h) with hf | ⟨-, ⟨m, rfl⟩ | hsend⟩ | ⟨rfl, rfl⟩ | ⟨-, htx⟩
    · exact absurd (congrArg Radio.mode hf.radio) hne
    · simp at hne
    · exact absurd (rawSendAccept_frame hsend).mode hne
    · rcases radioAdvance_mode_cases s with hm | ⟨hb, hs, e⟩
      · exact absurd hm hne
      · exact ⟨rfl, hb, hs, by simp [e], by simp [e]⟩
    · exact absurd (txAdvance_frame htx).mode hne
  · have hrow : eventRow i = true ∧ i ≠ .evRadioStep ∧ i ≠ .evTxStep := by
      clear h; revert i; decide
    obtain ⟨hevent, hradio, htx⟩ := hrow
    rcases effect_radio_cases (exec_effect h) with hf | ⟨hhost, -⟩ | ⟨hr, -⟩ | ⟨hx, -⟩
    · exact ⟨hf.radio, hf.pins, hf.trace, hf.tx⟩
    · rw [hevent] at hhost; cases hhost
    · exact absurd hr hradio
    · exact absurd hx htx

end Sys2Proof.Machine

/-! The sticky bits, `ready` and the buffer's bytes: for each, the operations that change it, and how. -/
namespace Sys2Proof.Machine

/-! ### The sticky bits (R46, R232, R236) -/

/-- Every bit set in x is set in y. -/
def Sticks {n : Nat} (x y : BitVec n) : Prop := ∀ k, x.getLsbD k = true → y.getLsbD k = true

theorem Sticks.refl {n : Nat} (x : BitVec n) : Sticks x x := fun _ h => h

theorem Sticks.of_eq {n : Nat} {x y : BitVec n} (h : y = x) : Sticks x y := h ▸ .refl x

theorem Sticks.or {n : Nat} (x z : BitVec n) : Sticks x (x ||| z) := fun k h => by simp [h]

/-- An operation keeps every ERR bit, or is WR_ERR with its clear of bits 5 to 0 (R216). -/
theorem effect_errs_cases {i : Instr} {s t : State} (he : Effect i s t) :
    Sticks s.errs.flags t.errs.flags ∨
      ∃ d, i = .wrErr d ∧ t.errs.flags = clearOnes s.errs.flags (0#1 ++ d.extractLsb' 0 6) := by
  induction he with
  | errCleared d => exact .inr ⟨d, rfl, rfl⟩
  | command hw _ ih =>
    rcases ih with h | ⟨d, rfl, -⟩
    · exact .inl h
    · simpa using decodeCmd_cases hw
  | error => exact .inl (.or _ _)
  | dropped => exact .inl (.or _ _)
  | modeStarted => exact .inl (.of_eq (by simp))
  | sent _ _ _ _ _ h => exact .inl (.of_eq (congrArg Errors.flags (rawSendAccept_frame h).errs))
  | seeking => exact .inl (.of_eq (by simp))
  | committed _ _ _ h =>
    rcases seekCommit_eq_next h with rfl | rfl <;> exact .inl (.of_eq (by simp))
  | accepted _ _ _ h =>
    cases acceptPulse_eq_next h
    exact .inl (.of_eq (by simp))
  | timedOut => exact .inl (.of_eq (by simp))
  | radioStepped => exact .inl (.of_eq (by simp))
  | txStepped h => exact .inl (.of_eq (congrArg Errors.flags (txAdvance_frame h).errs))
  | _ => exact .inl (.refl _)

/-- An operation keeps every pending bit, or is WR_INT_PEND with its clear (R218). -/
theorem effect_pending_cases {i : Instr} {s t : State} (he : Effect i s t) :
    Sticks s.ints.pending t.ints.pending ∨
      ∃ d, i = .wrIntPend d ∧ t.ints.pending = clearOnes s.ints.pending (d.extractLsb' 0 4) := by
  induction he with
  | acknowledged d => exact .inr ⟨d, rfl, rfl⟩
  | command hw _ ih =>
    rcases ih with h | ⟨d, rfl, -⟩
    · exact .inl h
    · simpa using decodeCmd_cases hw
  | error => exact .inl (.or _ _)
  | modeStarted => exact .inl (.of_eq (by simp))
  | sent _ _ _ _ _ h => exact .inl (rawSendAccept_frame h).pending
  | seeking => exact .inl (.of_eq (by simp))
  | committed _ _ _ h =>
    rcases seekCommit_eq_next h with rfl | rfl
    · exact .inl (.of_eq (by simp))
    · exact .inl fun k hk => closeOrArm_pending hk
  | accepted _ _ _ h =>
    cases acceptPulse_eq_next h
    exact .inl fun k hk => closeOrArm_pending hk
  | timedOut => exact .inl fun k hk => finish_pending hk
  | radioStepped => exact .inl fun k hk => radioAdvance_pending hk
  | txStepped h => exact .inl (txAdvance_frame h).pending
  | _ => exact .inl (.refl _)

/-- A bit that a write-1-to-clear drops has a 1 written in its place (R83). -/
theorem written_of_clearOnes {n k : Nat} {old written : BitVec n} (h : old.getLsbD k = true)
    (hc : (clearOnes old written).getLsbD k = false) : written.getLsbD k = true := by
  have hk : k < n := BitVec.lt_of_getLsbD h
  simpa [clearOnes, h, hk] using hc

/-- The clear mask of WR_ERR holds data[5:0] (R216). -/
theorem errMask_bit {d : Word} {k : Nat} (h : (0#1 ++ d.extractLsb' 0 6 : BitVec 7).getLsbD k = true) :
    k < 6 ∧ d.getLsbD k = true := by
  rw [BitVec.getLsbD_append] at h
  split at h
  · rename_i hk
    exact ⟨hk, by simpa [hk] using h⟩
  · simp at h

/-- Settles O29: every operation but the two register writes keeps all bits, and each of these drops only a bit with a 1
written in its place. -/
theorem stickyBitsFallOnlyToTheirWrite : Obligations.StickyBitsFallOnlyToTheirWrite := by
  refine fun i s t h => ⟨fun k hs ht => ?_, fun k hs ht => ?_⟩
  · rcases effect_errs_cases (exec_effect h) with hstick | ⟨d, rfl, hc⟩
    · rw [hstick k hs] at ht; cases ht
    · obtain ⟨hk, hd⟩ := errMask_bit (written_of_clearOnes hs (hc ▸ ht))
      exact ⟨hk, d, rfl, hd⟩
  · rcases effect_pending_cases (exec_effect h) with hstick | ⟨d, rfl, hc⟩
    · rw [hstick k hs] at ht; cases ht
    · have hd := written_of_clearOnes hs (hc ▸ ht)
      simp only [BitVec.getLsbD_extractLsb', Nat.zero_add, Bool.and_eq_true] at hd
      exact ⟨d, rfl, hd.2⟩

/-! ### ready (R23) -/

/-- A command word is its two fields below zero high bits (R91). -/
theorem cmdWord_fields {w : Word} (h : w.extractLsb' 16 16 = 0#16) : cmdWord (cmdArg w) (cmdOpcode w) = w := by
  unfold cmdWord cmdArg cmdOpcode
  rw [← h, BitVec.extractLsb'_append_extractLsb'_eq_extractLsb' (by rfl),
    BitVec.extractLsb'_append_extractLsb'_eq_extractLsb' (by rfl)]
  exact BitVec.extractLsb'_eq_self

/-- A field with zero high bits is its low bits, zero extended. -/
theorem zero_append_low {m n : Nat} {x : BitVec (n + m)} (h : x.extractLsb' m n = 0#n) :
    0#n ++ x.extractLsb' 0 m = x := by
  rw [← h, BitVec.extractLsb'_append_extractLsb'_eq_extractLsb' (by simp)]
  exact BitVec.extractLsb'_eq_self

/-- A command without an operand decodes only where ARG is 0 (R94). -/
theorem plainCommand_eq_ok {w : Word} {i j : Instr} (h : plainCommand w i = .ok j) : cmdArg w = 0#8 ∧ i = j := by
  unfold plainCommand at h
  split at h
  · rename_i harg; cases h; exact ⟨harg, rfl⟩
  · cases h

theorem RadioMode.code_ofCode (c : BitVec 2) : (RadioMode.ofCode c).code = c := by
  revert c; decide

theorem Slicer.code_ofCode (c : BitVec 1) : (Slicer.ofCode c).code = c := by
  revert c; decide

/-- A legal command word is the word of the command it decodes to (R92 to R94). -/
theorem encode_of_decodeCmd {w : Word} {i : Instr} (h : decodeCmd w = .ok i) : encode i = .cmd w := by
  unfold decodeCmd at h
  split at h
  case isFalse => cases h
  case isTrue hhigh =>
    have hplain : ∀ {j : Instr} {op : BitVec 8}, (cmdOpcode w).toNat = op.toNat → plainCommand w j = .ok i →
        i = j ∧ cmdWord 0#8 op = w := by
      intro j op hop h
      obtain ⟨harg, rfl⟩ := plainCommand_eq_ok h
      rw [← cmdWord_fields hhigh, harg, BitVec.eq_of_toNat_eq hop]
      exact ⟨rfl, rfl⟩
    split at h
    case h_1 hop => obtain ⟨rfl, hw⟩ := hplain (op := 0x00#8) hop h; exact congrArg Encoded.cmd hw
    case h_2 hop => obtain ⟨rfl, hw⟩ := hplain (op := 0x01#8) hop h; exact congrArg Encoded.cmd hw
    case h_3 hop => obtain ⟨rfl, hw⟩ := hplain (op := 0x02#8) hop h; exact congrArg Encoded.cmd hw
    case h_5 hop => obtain ⟨rfl, hw⟩ := hplain (op := 0x04#8) hop h; exact congrArg Encoded.cmd hw
    case h_7 hop => obtain ⟨rfl, hw⟩ := hplain (op := 0x06#8) hop h; exact congrArg Encoded.cmd hw
    case h_4 hop =>
      split at h <;> cases h
      rename_i harg
      refine congrArg Encoded.cmd ?_
      have hop : cmdOpcode w = 0x03#8 := BitVec.eq_of_toNat_eq hop
      have hfield : (0#6 ++ (cmdArg w).extractLsb' 0 2 : BitVec 8) = cmdArg w := zero_append_low harg
      rw [setModeWord, RadioMode.code_ofCode, hfield, ← hop, cmdWord_fields hhigh]
    case h_6 hop =>
      split at h <;> cases h
      rename_i harg
      refine congrArg Encoded.cmd ?_
      have hop : cmdOpcode w = 0x05#8 := BitVec.eq_of_toNat_eq hop
      have hfield : (0#7 ++ (cmdArg w).extractLsb' 0 1 : BitVec 8) = cmdArg w := zero_append_low harg
      rw [updateSlicerWord, Slicer.code_ofCode, hfield, ← hop, cmdWord_fields hhigh]
    case h_8 => cases h

/-- The end of a capture raises `ready` only on a train that is long enough, and never lowers it (R146). -/
theorem finish_ready_cases (r : EndReason) (s : State) :
    (finish r s).cap.ready = s.cap.ready ∨
      (finish r s).cap.ready = true ∧ s.cfg.minRawPulses.toNat ≤ (finish r s).buf.pulseCount.toNat ∧
        (finish r s).cap.state = .done := by
  rw [finish_cap, finish_buf]
  split
  · rename_i hlong; exact .inr ⟨rfl, hlong, rfl⟩
  · exact .inl rfl

theorem closeOrArm_ready_cases (s : State) :
    (closeOrArm s).cap.ready = s.cap.ready ∨
      (closeOrArm s).cap.ready = true ∧ s.cfg.minRawPulses.toNat ≤ (closeOrArm s).buf.pulseCount.toNat ∧
        (closeOrArm s).cap.state = .done := by
  unfold closeOrArm
  split
  · exact finish_ready_cases _ s
  · exact .inl (by simp)

/-- `ready` under every operation: as it was, lowered by CONSUME, or raised where a capture ends (R23). -/
theorem effect_ready_cases {i : Instr} {s t : State} (he : Effect i s t) :
    t.cap.ready = s.cap.ready ∨
      (t.cap.ready = false ∧ (i = .consume ∨ i = .wrCmd 0x00000001#32)) ∨
      (t.cap.ready = true ∧ (i = .evEdgeSeekingCommit ∨ i = .evEdgeCapturingAccept ∨ i = .evDeadlineCapturing) ∧
        s.cfg.minRawPulses.toNat ≤ t.buf.pulseCount.toNat ∧ t.cap.state = .done) := by
  induction he with
  | consumed => exact .inr (.inl ⟨rfl, .inl rfl⟩)
  | command hw _ ih =>
    rcases ih with h | ⟨h, rfl | rfl⟩ | ⟨-, rfl | rfl | rfl, -⟩
    · exact .inl h
    · cases encode_of_decodeCmd hw
      exact .inr (.inl ⟨h, .inr rfl⟩)
    all_goals simpa using decodeCmd_cases hw
  | committed _ _ _ h =>
    rcases seekCommit_eq_next h with rfl | rfl
    · exact .inl (by simp [beginCapture])
    · exact (closeOrArm_ready_cases _).imp_right fun ⟨hr, hlong, hd⟩ => .inr ⟨hr, .inl rfl, hlong, hd⟩
  | accepted _ _ _ h =>
    cases acceptPulse_eq_next h
    exact (closeOrArm_ready_cases _).imp_right fun ⟨hr, hlong, hd⟩ => .inr ⟨hr, .inr (.inl rfl), hlong, hd⟩
  | timedOut =>
    exact (finish_ready_cases _ _).imp_right fun ⟨hr, hlong, hd⟩ => .inr ⟨hr, .inr (.inr rfl), hlong, hd⟩
  | modeStarted => exact .inl (by simp)
  | sent _ _ _ _ _ h => exact .inl (congrArg Capture.ready (rawSendAccept_frame h).cap)
  | seeking => left; unfold startSeeking; split <;> rfl
  | radioStepped => exact .inl (by simp)
  | txStepped h => exact .inl (congrArg Capture.ready (txAdvance_frame h).cap)
  | _ => exact .inl rfl

/-- Settles O59: the two ways `ready` changes are the end of a long enough capture and CONSUME, under its own name or
through its one command word. -/
theorem readyRisesOnlyWithEnoughPulses : Obligations.ReadyRisesOnlyWithEnoughPulses := by
  intro i s t h
  rcases effect_ready_cases (exec_effect h) with e | ⟨hlow, hi⟩ | ⟨hhigh, hi⟩
  · exact ⟨fun h0 h1 => Bool.noConfusion (h1.symm.trans (e.trans h0)),
      fun h1 h0 => Bool.noConfusion (h1.symm.trans (e.symm.trans h0))⟩
  · exact ⟨fun _ h1 => Bool.noConfusion (h1.symm.trans hlow), fun _ _ => hi⟩
  · exact ⟨fun _ _ => hi, fun _ h0 => Bool.noConfusion (hhigh.symm.trans h0)⟩

/-! ### The buffer's bytes (R26, R178) -/

/-- The word of the buffer that an operation may write, if any. -/
def writtenWord (s : State) : Instr → Option Nat
  | .wrPulse k _ => some k.toNat
  | .evEdgeSeekingCommit => some 1
  | .evEdgeCapturingAccept => some (s.buf.pulseCount.toNat + 1)
  | _ => none

/-- An operation leaves the buffer's bytes as they were, or writes its one word. -/
theorem effect_mem_cases {i : Instr} {s t : State} (he : Effect i s t) :
    t.mem = s.mem ∨ ∃ k v, writtenWord s i = some k ∧ t.mem = s.mem.writePulse k v := by
  induction he with
  | stored => exact .inr ⟨_, _, rfl, rfl⟩
  | committed _ _ _ h =>
    rcases seekCommit_eq_next h with rfl | rfl
    · exact .inl (by simp)
    · exact .inr ⟨_, _, rfl, closeOrArm_mem _⟩
  | accepted _ _ _ h =>
    cases acceptPulse_eq_next h
    exact .inr ⟨_, _, rfl, closeOrArm_mem _⟩
  | command hw _ ih =>
    rcases ih with h | ⟨k, v, hk, -⟩
    · exact .inl h
    · rcases decodeCmd_cases hw with rfl | rfl | rfl | ⟨m, rfl⟩ | rfl | ⟨v, rfl⟩ | rfl <;> cases hk
  | modeStarted => exact .inl (by simp)
  | sent _ _ _ _ _ h => exact .inl (rawSendAccept_frame h).mem
  | seeking => exact .inl (by simp)
  | timedOut => exact .inl (by simp)
  | radioStepped => exact .inl (by simp)
  | txStepped h => exact .inl (txAdvance_frame h).mem
  | _ => exact .inl rfl

/-- Settles O60: an operation writes at most its own word, and only WR_PULSE can have word 0 as its own. -/
theorem bufferBytesFrame : Obligations.BufferBytesFrame := by
  intro i s t h
  rcases effect_mem_cases (exec_effect h) with e | ⟨k, v, hk, e⟩
  · exact ⟨fun a _ => by rw [e], fun _ => by simp only [pulse, e]⟩
  refine ⟨fun a ha => ?_, fun hi => ?_⟩
  · have hother : a ≠ pulseAddr k ∧ a ≠ pulseAddr k + 1 := by
      cases i <;> cases hk <;> exact ha
    rw [e, memory_read_writePulse_other v hother.1 hother.2]
  · have hzero : 0 ≠ k := by
      rintro rfl
      cases i with
      | wrPulse j d =>
        have hj : j = 0#11 := BitVec.eq_of_toNat_eq (Option.some.inj hk)
        exact hi d (hj ▸ rfl)
      | _ => cases hk
    simp only [pulse, e, memory_readPulse_writePulse_other v hzero]

end Sys2Proof.Machine

/-! The tick: the operation a transaction decodes to, the order of the phases, the time and the interrupt output. -/
namespace Sys2Proof.Machine

/-! ### The decoded operation (R56, R69, R81) -/

theorem bus_of_decodeBus {h : BusTxn} {s : State} {i : Instr} (hd : decodeBus s.build.capacity h = .ok i) :
    bus h s = exec i s := by
  unfold bus; rw [hd]

theorem hostPhase_cons_of_decodeBus {h : BusTxn} {s : State} {i : Instr} (hs : List BusTxn)
    (hd : decodeBus s.build.capacity h = .ok i) : hostPhase (h :: hs) s = andThen (exec i s) (hostPhase hs) :=
  congrArg (andThen · (hostPhase hs)) (bus_of_decodeBus hd)

/-- A step with a placed tick runs that tick (R53). -/
theorem step_of_placed_tick {s : State} {i : TickInput} {rest : List Input} (h : s.env.inputs = .tick i :: rest) :
    step s = tick i (takeInput s) := by
  unfold step nextInput; rw [h]; rfl

/-- Where no event occurs, the block's phases only take the detector's sample (R95, R131). -/
theorem blockPhases_of_no_event {s : State} (hradio : s.radio.busy = false) (htx : txBusy s = false)
    (hdeadline : deadlineDue s = false) (hpoll : pollDue s = false) (hedge : edgeObserved s = false) :
    blockPhases s = .next (sampleEdge s) := by
  have h1 : radioPhase s = .next s := if_neg (by simp [hradio])
  have h2 : txPhase s = .next s := if_neg (by simp [htx])
  have h3 : deadlinePhase s = .next s := if_neg (by simp [hdeadline])
  have h4 : pollPhase s = .next s := if_neg (by simp [hpoll])
  have h5 : edgePhase s = .next (sampleEdge s) := if_neg (by simp [hedge])
  exact blockPhases_eq_next.2 ⟨s, h1, s, h2, s, h3, s, h4, h5⟩

/-- Settles O8: a step is the tick it is given, and the phase of the host runs what each transaction decodes to. -/
theorem stepRunsDecodedInstruction : Obligations.StepRunsDecodedInstruction := by
  refine ⟨fun s u t rest h i hin hhost hblock hd => ?_, fun s => blockPhases_of_no_event,
    fun s h hs i hd => hostPhase_cons_of_decodeBus hs hd⟩
  have hone : hostPhase [h] u = exec i u := by
    rw [hostPhase_cons_of_decodeBus [] hd]
    cases exec i u <;> rfl
  rw [step_of_placed_tick hin, tick, hblock, andThen_next, hhost, hone]

/-! ### Time and the interrupt output (R49, R50) -/

/-- No operation advances the time: only the end of a tick does (R50). -/
theorem effect_now {i : Instr} {s t : State} (he : Effect i s t) : t.now = s.now := by
  induction he with
  | command _ _ ih => exact ih
  | modeStarted => simp
  | sent _ _ _ _ _ h => exact (rawSendAccept_frame h).now
  | seeking => simp
  | committed _ _ _ h => rcases seekCommit_eq_next h with rfl | rfl <;> simp
  | accepted _ _ _ h => cases acceptPulse_eq_next h; simp
  | timedOut => simp
  | radioStepped => simp
  | txStepped h => exact (txAdvance_frame h).now
  | _ => rfl

theorem hostPhase_now {hs : List BusTxn} {s t : State} (ht : hostPhase hs s = .next t) : t.now = s.now := by
  induction hs generalizing s with
  | nil => cases next_inj ht; rfl
  | cons x hs ih =>
    obtain ⟨u, hu, ht⟩ := hostPhase_cons_eq_next.1 ht
    refine (ih ht).trans ?_
    rcases bus_cases hu with ⟨i, he, -⟩ | rfl
    · exact effect_now he
    · simp

/-- `irq` is the OR of the enabled pending bits (R49). -/
theorem irqLevel_eq_any (s : State) :
    irqLevel s = (List.range 4).any fun k => s.ints.pending.getLsbD k && s.ints.enable.getLsbD k := by
  rw [Bool.eq_iff_iff]
  simp only [irqLevel, decide_eq_true_iff, List.any_eq_true, List.mem_range]
  constructor
  · intro hne
    by_contra hnone
    refine hne (BitVec.eq_of_getLsbD_eq fun k hk => ?_)
    rw [BitVec.getLsbD_and]
    simpa using fun h => hnone ⟨k, hk, h⟩
  · rintro ⟨k, -, hk⟩ hzero
    rw [← BitVec.getLsbD_and, hzero] at hk
    simp at hk

/-- Settles O9: the tick is its phases in order, none of which advances the time, and its end. -/
theorem tickRunsPhasesInOrder : Obligations.TickRunsPhasesInOrder := by
  intro t s a1 a2 a3 a4 a5 u hradio htx hdeadline hpoll hedge hhost
  obtain ⟨i, hi, -⟩ := deadlinePhase_effect hdeadline
  obtain ⟨j, hj, -⟩ := edgePhase_effect hedge
  have hnow : u.now = s.now :=
    calc u.now = a5.now := hostPhase_now hhost
      _ = a4.now := effect_now hj
      _ = a3.now := effect_now (pollPhase_effect hpoll)
      _ = a2.now := effect_now hi
      _ = a1.now := effect_now (txPhase_effect htx)
      _ = (sampleInputs t s).now := effect_now (radioPhase_effect hradio)
      _ = s.now := rfl
  have hblock := blockPhases_eq_next.2 ⟨a1, hradio, a2, htx, a3, hdeadline, a4, hpoll, hedge⟩
  refine ⟨hnow, tick_eq_next.2 ⟨a5, hblock, u, hhost, ?_⟩⟩
  rw [endTick, irqLevel_eq_any]

end Sys2Proof.Machine

/-!
The family of 20_memory.md: no step stops (R61), the regions of the register space (R63, R66), and the writer of the
active configuration (R75).
-/
namespace Sys2Proof.Machine

/-! ### No step stops (R61, R247) -/

/-- Settles O54: each phase and each transaction of a tick answers next and hands the invariant on (step_inv). -/
theorem stepNeverStops : Obligations.StepNeverStops := fun _ h => (step_inv h).imp fun _ => And.left

/-! ### Offsets (R63, R66, R82) -/

theorem offset_aligned_iff (o : Offset) : o.extractLsb' 0 2 = 0#2 ↔ o.toNat % 4 = 0 := by
  simp [← BitVec.toNat_inj]

theorem offset_inWindow_iff (o : Offset) : o.getLsbD 13 = true ↔ 0x2000 ≤ o.toNat := by
  have ho := o.isLt
  rw [BitVec.getLsbD, Nat.testBit_eq_decide_div_mod_eq, decide_eq_true_iff]
  omega

theorem offset_index_toNat (o : Offset) : (o.extractLsb' 2 11).toNat = o.toNat / 4 % 2048 := by
  simp [Nat.shiftRight_eq_div_pow]

/-- The register map: three runs of words (R82). -/
theorem registerOffsets :
    Reg.all.map (·.offset.toNat) =
      (List.range 17).map (4 * ·) ++ (List.range 7).map (0x080 + 4 * ·) ++ (List.range 7).map (0x0C0 + 4 * ·) := by
  decide

theorem regAt_isSome_iff (o : Offset) : (regAt o).isSome = true ↔ o.toNat ∈ Reg.all.map (·.offset.toNat) := by
  simp [regAt, List.find?_isSome, BitVec.toNat_inj]

/-- The mapped offsets below the window are those of the registers (R66, R82). -/
theorem regAt_isSome_iff_mapped {o : Offset} (capacity : Nat) (ha : o.toNat % 4 = 0) (hw : o.toNat < 0x2000) :
    (regAt o).isSome = true ↔ MappedOffset capacity o.toNat := by
  rw [regAt_isSome_iff, registerOffsets]
  simp only [List.mem_append, List.mem_map, List.mem_range, MappedOffset]
  constructor
  · rintro ((⟨k, hk, e⟩ | ⟨k, hk, e⟩) | ⟨k, hk, e⟩) <;> omega
  · rintro (h | h | h | h)
    · exact .inl (.inl ⟨o.toNat / 4, by omega, by omega⟩)
    · exact .inl (.inr ⟨(o.toNat - 0x080) / 4, by omega, by omega⟩)
    · exact .inr ⟨(o.toNat - 0x0C0) / 4, by omega, by omega⟩
    · omega

/-- The transactions that have an operation are those to a mapped, aligned offset (R63, R66, R81). -/
theorem decodeBus_isOk_iff (capacity : Nat) (h : BusTxn) :
    (∃ i, decodeBus capacity h = .ok i) ↔ h.offset.toNat % 4 = 0 ∧ MappedOffset capacity h.offset.toNat := by
  have ho := h.offset.isLt
  unfold decodeBus
  split
  case isFalse ha => simp [← offset_aligned_iff, ha]
  case isTrue ha =>
    rw [offset_aligned_iff] at ha
    split
    case isTrue hw =>
      rw [offset_inWindow_iff] at hw
      rw [offset_index_toNat]
      have hmap : MappedOffset capacity h.offset.toNat ↔ h.offset.toNat / 4 % 2048 ≤ capacity := by
        unfold MappedOffset; omega
      split
      · rename_i hi; exact iff_of_true ⟨_, rfl⟩ ⟨ha, hmap.2 hi⟩
      · rename_i hi; exact iff_of_false (by simp) fun hm => hi (hmap.1 hm.2)
    case isFalse hw =>
      rw [offset_inWindow_iff, Nat.not_le] at hw
      rw [← regAt_isSome_iff_mapped capacity ha hw]
      split
      · rename_i hr; simp [ha, hr]
      · rename_i hr; simp [hr]

/-! ### Transactions without an operation (R63, R66) -/

theorem rejectTxn_of_write {h : BusTxn} (s : State) (hw : h.we = true) :
    rejectTxn h s = recorded 5 h.offset h.data s :=
  if_pos hw

theorem rejectTxn_of_read {h : BusTxn} (s : State) (hr : h.we = false) :
    rejectTxn h s = answered (recorded 5 h.offset 0#32 s) h.offset 0#32 :=
  if_neg (by simp [hr])

/-- A transaction to an offset that is misaligned or not mapped only records BUS_ERR, and returns 0 if it is a read. -/
theorem bus_of_noOperation {h : BusTxn} {s : State}
    (hno : ¬ (h.offset.toNat % 4 = 0 ∧ MappedOffset s.build.capacity h.offset.toNat)) :
    (h.we = true → bus h s = .next (recorded 5 h.offset h.data s)) ∧
      (h.we = false → bus h s = .next (answered (recorded 5 h.offset 0#32 s) h.offset 0#32)) := by
  rw [← decodeBus_isOk_iff] at hno
  have hreject : bus h s = .next (rejectTxn h s) := by
    unfold bus
    split
    · rename_i hd; exact absurd ⟨_, hd⟩ hno
    · rfl
  exact ⟨fun hw => by rw [hreject, rejectTxn_of_write s hw], fun hr => by rw [hreject, rejectTxn_of_read s hr]⟩

/-- Settles O7: an aligned offset decodes exactly where it is mapped, and what is decoded is well formed. -/
theorem reservedOffsetIsBusErr : Obligations.ReservedOffsetIsBusErr := by
  refine fun h s ha => ⟨fun hm => ?_, fun hm => bus_of_noOperation fun hop => hm hop.2⟩
  obtain ⟨i, hd⟩ := (decodeBus_isOk_iff _ h).2 ⟨ha, hm⟩
  exact ⟨i, bus_of_decodeBus hd, decodeBus_wf hd⟩

/-- Settles O6: a misaligned offset decodes to no operation, wherever it lies. -/
theorem misalignedAccessIsBusErr : Obligations.MisalignedAccessIsBusErr :=
  fun _ _ ha => bus_of_noOperation fun hop => ha hop.1

/-! ### The build and the active configuration (R54, R75) -/

/-- The build and the active configuration are as they were. -/
structure ConfigFrame (s t : State) : Prop where
  build : t.build = s.build
  cfg : t.cfg = s.cfg

/-- Only REFRESH_CONFIG, under its own name or through its one command word, writes the active configuration: the whole
shadow, while Q holds and the shadow is valid (R75, R212). No operation writes the build (R54). -/
theorem effect_config_cases {i : Instr} {s t : State} (he : Effect i s t) :
    ConfigFrame s t ∨
      (i = .refreshConfig ∨ i = .wrCmd 0x00000002#32) ∧ quiescent s = true ∧
        cfgValid s.build.capacity s.cfgSh = true ∧ t = { s with cfg := s.cfgSh } := by
  induction he with
  | refreshed _ hq hv => exact .inr ⟨.inl rfl, hq, hv, rfl⟩
  | command hw _ ih =>
    rcases ih with h | ⟨rfl | rfl, hrest⟩
    · exact .inl h
    · cases encode_of_decodeCmd hw
      exact .inr ⟨.inr rfl, hrest⟩
    · simpa using decodeCmd_cases hw
  | modeStarted => exact .inl (by constructor <;> simp)
  | sent _ _ _ _ _ h => exact .inl ⟨(rawSendAccept_frame h).build, (rawSendAccept_frame h).cfg⟩
  | seeking => exact .inl (by constructor <;> simp)
  | committed _ _ _ h =>
    left
    rcases seekCommit_eq_next h with rfl | rfl <;> constructor <;> simp
  | accepted _ _ _ h =>
    left
    cases acceptPulse_eq_next h
    constructor <;> simp
  | timedOut => exact .inl (by constructor <;> simp)
  | radioStepped => exact .inl (by constructor <;> simp)
  | txStepped h => exact .inl ⟨(txAdvance_frame h).build, (txAdvance_frame h).cfg⟩
  | _ => exact .inl ⟨rfl, rfl⟩

/-- Settles O57: of all operations only the accepted REFRESH_CONFIG leaves the frame of the configuration. -/
theorem configChangesOnlyByRefresh : Obligations.ConfigChangesOnlyByRefresh := by
  intro i s t h
  rcases effect_config_cases (exec_effect h) with hf | ⟨hi, hq, hv, rfl⟩
  · exact ⟨hf.build, fun hne => absurd hf.cfg hne⟩
  · exact ⟨rfl, fun _ => ⟨hi, hq, hv, rfl⟩⟩

end Sys2Proof.Machine

/-!
The family of 30_encoding.md: the decoders and the encoding as inverses of each other (R80 to R82, R91 to R99), the row
of each event (R96, R102, R132), and the fields of the registers (R84 to R90).
-/
namespace Sys2Proof.Machine

/-! ### The encoding of an operation (R91 to R98) -/

/-- Settles O1: a write is decoded by its register, a window access by its index, and every other operation is one
fixed word or selector. -/
theorem decodeOfEncode : Obligations.DecodeOfEncode := by
  intro i capacity h
  cases i with
  | setMode m => exact Laws.RoundTrip.setMode m capacity h
  | updateSlicer v => exact Laws.RoundTrip.updateSlicer v capacity h
  | wrPulse k d => exact Laws.RoundTrip.wrPulse k d capacity h
  | rdPulse k => exact Laws.RoundTrip.rdPulse k capacity h
  | rdReg r => exact Laws.RoundTrip.rdReg r capacity h
  | wrCtrl d | wrErr d | wrIntEn d | wrIntPend d | wrCmd d | wrPulseCount d | wrRepeats d | wrInterRepeatDelayMs d
  | wrCfgSampleRate d | wrCfgMinRawPulses d | wrCfgSeekTimeoutMs d | wrCfgMinPreambleUs d | wrCfgMinPulseLenUs d
  | wrCfgSignalEndTimeoutUs d | wrCfgFlags d | wrRoId d | wrRoCaps d | wrRoSettleUs d | wrRoStatus d | wrRoErrInfo d
  | wrRoErrData d | wrRoNowUs d | wrRoCapturedAt d | wrRoSignalStrength d | wrRoActSampleRate d
  | wrRoActMinRawPulses d | wrRoActSeekTimeoutMs d | wrRoActMinPreambleUs d | wrRoActMinPulseLenUs d
  | wrRoActSignalEndTimeoutUs d | wrRoActFlags d => exact Laws.RoundTrip.of_write _ d capacity
  | nop | consume | refreshConfig | rawSend | scan | evEdgeIdle | evEdgeSeekingShort | evEdgeSeekingCommit
  | evEdgeCapturingGlitch | evEdgeCapturingAccept | evEdgeDone | evDeadlineSeeking | evDeadlineCapturing | evPollEnd
  | evRadioStep | evTxStep => rfl

/-- Settles O2: the fields of a legal word are those of the command it decodes to. -/
theorem commandWordIsItsEncoding : Obligations.CommandWordIsItsEncoding := fun _ _ => encode_of_decodeCmd

theorem regAt_offset {o : Offset} {r : Reg} (h : regAt o = some r) : r.offset = o := by
  simpa using List.find?_some h

/-- An aligned offset in the window is the offset of the word its index names (R82, R98). -/
theorem windowOffset_of_fields {o : Offset} (ha : o.extractLsb' 0 2 = 0#2) (hw : o.getLsbD 13 = true) :
    windowOffset (o.extractLsb' 2 11) = o := by
  have ho := o.isLt
  rw [offset_aligned_iff] at ha
  rw [offset_inWindow_iff] at hw
  refine BitVec.eq_of_toNat_eq ?_
  rw [windowOffset_eq, offset_index_toNat, BitVec.toNat_ofNat]
  omega

theorem encode_writeInstr (r : Reg) (d : Word) : encode (r.writeInstr d) = writeTxn r d := by
  cases r <;> rfl

/-- A transaction that decodes is one to a window word or one to a register (R81). -/
theorem decodeBus_cases {c : Nat} {h : BusTxn} {i : Instr} (hd : decodeBus c h = .ok i) :
    (∃ k, h.offset = windowOffset k ∧ i = if h.we then .wrPulse k h.data else .rdPulse k) ∨
      ∃ r : Reg, h.offset = r.offset ∧ i = if h.we then r.writeInstr h.data else .rdReg r := by
  unfold decodeBus at hd
  split at hd
  case isFalse => cases hd
  case isTrue ha =>
    split at hd
    case isTrue hw =>
      split at hd <;> cases hd
      exact .inl ⟨_, (windowOffset_of_fields ha hw).symm, rfl⟩
    case isFalse =>
      split at hd <;> cases hd
      rename_i r hr
      exact .inr ⟨r, (regAt_offset hr).symm, rfl⟩

/-- Settles O3: a transaction to a window word or to a register is that of the operation it decodes to. -/
theorem transactionIsItsEncoding : Obligations.TransactionIsItsEncoding := by
  refine fun capacity h i hd => ⟨decodeBus_wf hd, ?_⟩
  obtain ⟨we, offset, data⟩ := h
  rcases decodeBus_cases hd with ⟨k, rfl, rfl⟩ | ⟨r, rfl, rfl⟩
  · cases we <;> rfl
  · cases we with
    | false => rfl
    | true => exact encode_writeInstr r data

/-- Settles O5: the six words are closed terms, which the decoders evaluate. -/
theorem sampleWordsDecode : Obligations.SampleWordsDecode := by
  unfold Obligations.SampleWordsDecode
  decide

/-! ### Illegal command words (R94) -/

theorem cmdOpcode_toNat (w : Word) : (cmdOpcode w).toNat = w.toNat % 256 := by simp [cmdOpcode]

theorem cmdArg_toNat (w : Word) : (cmdArg w).toNat = w.toNat / 256 % 256 := by
  simp [cmdArg, Nat.shiftRight_eq_div_pow]

/-- The bits of a word from k up are 0 exactly if its value is below 2 ^ k. -/
theorem highField_eq_zero_iff {n k m : Nat} (w : BitVec n) (h : n = k + m) :
    w.extractLsb' k m = 0#m ↔ w.toNat / 2 ^ k = 0 := by
  have hw : w.toNat / 2 ^ k < 2 ^ m := Nat.div_lt_of_lt_mul (by rw [← Nat.pow_add, ← h]; exact w.isLt)
  rw [← BitVec.toNat_inj, BitVec.extractLsb'_toNat, Nat.shiftRight_eq_div_pow, Nat.mod_eq_of_lt hw]
  rfl

/-- A decoder with one condition accepts exactly where the condition holds. -/
theorem ite_isOk_iff {p : Prop} [Decidable p] (i : Instr) (e : DecodeError) :
    (∃ j, (if p then .ok i else .error e : Except DecodeError Instr) = .ok j) ↔ p := by
  split <;> simp_all

theorem plainCommand_isOk_iff (w : Word) (i : Instr) : (∃ j, plainCommand w i = .ok j) ↔ (cmdArg w).toNat = 0 := by
  unfold plainCommand
  rw [ite_isOk_iff, ← BitVec.toNat_inj]
  rfl

/-- The legal words: high bits 0, and for each opcode the ARG bits outside its operand 0 (R92, R93, R94). -/
theorem decodeCmd_isOk_iff (w : Word) :
    (∃ i, decodeCmd w = .ok i) ↔
      w.toNat / 2 ^ 16 = 0 ∧
        (w.toNat % 256 ∈ [0x00, 0x01, 0x02, 0x04, 0x06] ∧ w.toNat / 256 % 256 = 0 ∨
          w.toNat % 256 = 0x03 ∧ w.toNat / 256 % 256 / 4 = 0 ∨
          w.toNat % 256 = 0x05 ∧ w.toNat / 256 % 256 / 2 = 0) := by
  rw [← cmdArg_toNat, ← cmdOpcode_toNat, ← highField_eq_zero_iff w (m := 16) rfl]
  unfold decodeCmd
  split
  case isFalse hhigh => simp [hhigh]
  case isTrue hhigh =>
    rw [and_iff_right hhigh]
    split
    case h_4 hop | h_6 hop => rw [ite_isOk_iff, highField_eq_zero_iff _ rfl, hop]; simp
    case h_8 => simp_all
    case h_1 hop | h_2 hop | h_3 hop | h_5 hop | h_7 hop => rw [plainCommand_isOk_iff, hop]; simp

theorem illegalWord_iff (w : Word) : IllegalWord w ↔ ∀ i, decodeCmd w ≠ .ok i := by
  rw [← not_exists, decodeCmd_isOk_iff]
  simp only [IllegalWord, List.mem_cons, List.not_mem_nil, or_false]
  omega

/-- An error of a command is R231's record with the offset of CMD (R230). -/
theorem rejectCmd_eq_recorded (c : ErrCause) (w : Word) (s : State) :
    rejectCmd c w s = recorded c.code 0x028#14 w s := rfl

/-- Without FATAL a command runs (R220). -/
theorem unlessFatal_of_not_fatal {s : State} (w : Word) (run : State → Out) (hf : s.errs.flags.getLsbD 6 = false) :
    unlessFatal w run s = run s :=
  if_neg (by rw [fatalLocked, hf]; decide)

theorem runCommand_of_illegalWord {w : Word} (s : State) (h : IllegalWord w) :
    runCommand w s = .next (recorded 1 0x028#14 w s) := by
  have hno := (illegalWord_iff w).1 h
  unfold runCommand
  split
  case h_8 => exact congrArg _ (rejectCmd_eq_recorded .illegalCmd w s)
  all_goals rename_i hd; exact absurd hd (hno _)

/-- SET_MODE with mode 3 is a legal word (R93). -/
theorem decodeCmd_setMode_unset : decodeCmd 0x00000303#32 = .ok (.setMode .unset) := by decide

theorem execSetMode_unset {s : State} (hf : s.errs.flags.getLsbD 6 = false) :
    execSetMode .unset s = .next (recorded 6 0x028#14 0x00000303#32 s) :=
  unlessFatal_of_not_fatal _ _ hf

/-- Settles O4: the legal words are those with no clause of R94, and past the FATAL lock the rest is the case on what
the word decodes to. -/
theorem illegalWordsRecordIllegalCmd : Obligations.IllegalWordsRecordIllegalCmd := by
  have hexec : ∀ (w : Word) (s : State), s.errs.flags.getLsbD 6 = false → exec (.wrCmd w) s = runCommand w s :=
    fun w _ => unlessFatal_of_not_fatal w (runCommand w)
  refine ⟨illegalWord_iff, fun w s hw hf => ?_, decodeCmd_setMode_unset, fun s hf => ?_⟩
  · rw [hexec w s hf, runCommand_of_illegalWord s hw]
  · rw [hexec _ s hf, runCommand, decodeCmd_setMode_unset]
    exact execSetMode_unset hf

/-! ### The rows of the events (R96, R102, R132) -/

theorem runEvent_of_decodeEvent {code : BitVec 3} {s : State} {i : Instr}
    (h : decodeEvent (code ++ s.cap.state.code) (longInterval s) = .ok i) : runEvent code s = exec i s := by
  unfold runEvent eventSelector
  rw [h]

theorem runEvent_radio (s : State) : runEvent 3#3 s = exec .evRadioStep s :=
  runEvent_of_decodeEvent (by cases s.cap.state <;> rfl)

theorem runEvent_tx (s : State) : runEvent 4#3 s = exec .evTxStep s :=
  runEvent_of_decodeEvent (by cases s.cap.state <;> rfl)

theorem runEvent_pollEnd (s : State) : runEvent 2#3 s = exec .evPollEnd s :=
  runEvent_of_decodeEvent (by cases s.cap.state <;> rfl)

theorem runEvent_deadline (s : State) :
    runEvent 1#3 s =
      match s.cap.state with
      | .seeking => exec .evDeadlineSeeking s
      | .capturing => exec .evDeadlineCapturing s
      | .idle => .next s
      | .done => .next s := by
  unfold runEvent eventSelector
  cases s.cap.state <;> rfl

/-- An edge runs the row of the capture state, in SEEKING and CAPTURING the one its width selects (R132, R134, R139). -/
theorem runEvent_edge (s : State) :
    runEvent 0#3 s =
      match s.cap.state with
      | .idle => exec .evEdgeIdle s
      | .seeking =>
        if seekWidth s < s.cfg.minPreambleUs then exec .evEdgeSeekingShort s else exec .evEdgeSeekingCommit s
      | .capturing =>
        if pulseWidth s < s.cfg.minPulseLenUs then exec .evEdgeCapturingGlitch s else exec .evEdgeCapturingAccept s
      | .done => exec .evEdgeDone s := by
  cases hs : s.cap.state with
  | idle => exact runEvent_of_decodeEvent (by rw [hs]; rfl)
  | done => exact runEvent_of_decodeEvent (by rw [hs]; rfl)
  | seeking =>
    have hlong : longInterval s = !decide (seekWidth s < s.cfg.minPreambleUs) := by rw [longInterval, hs]
    by_cases hw : seekWidth s < s.cfg.minPreambleUs
    · exact (runEvent_of_decodeEvent (by rw [hs, hlong, decide_eq_true hw]; rfl)).trans (if_pos hw).symm
    · exact (runEvent_of_decodeEvent (by rw [hs, hlong, decide_eq_false hw]; rfl)).trans (if_neg hw).symm
  | capturing =>
    have hlong : longInterval s = !decide (pulseWidth s < s.cfg.minPulseLenUs) := by rw [longInterval, hs]; rfl
    by_cases hw : pulseWidth s < s.cfg.minPulseLenUs
    · exact (runEvent_of_decodeEvent (by rw [hs, hlong, decide_eq_true hw]; rfl)).trans (if_pos hw).symm
    · exact (runEvent_of_decodeEvent (by rw [hs, hlong, decide_eq_false hw]; rfl)).trans (if_neg hw).symm

/-- Settles O10: each phase tests its event's condition, and the event's selector decodes to the row. -/
theorem eventPhasesRunTheirRows : Obligations.EventPhasesRunTheirRows := by
  intro s
  unfold radioPhase txPhase deadlinePhase pollPhase edgePhase
  rw [runEvent_radio, runEvent_tx, runEvent_deadline, runEvent_pollEnd, runEvent_edge]
  refine ⟨rfl, ?_, ?_, ?_, ?_⟩
  · exact if_congr (by simp [txBusy]) rfl rfl
  · exact if_congr (by simp [deadlineDue]) rfl rfl
  · exact if_congr (by simp [pollDue]) rfl rfl
  · exact if_congr (by simp [edgeObserved, and_assoc]) rfl rfl

/-! ### The fields of the registers (R84 to R90) -/

theorem bit_getLsbD (b : Bool) (k : Nat) : (bit b).getLsbD k = (decide (k = 0) && b) := BitVec.getLsbD_ofBool b k

theorem bit_getLsbD_zero {k : Nat} (b : Bool) (h : k = 0) : (bit b).getLsbD k = b := by
  rw [bit_getLsbD, decide_eq_true h, Bool.true_and]

/-- Zeros above a field add no bit to it. -/
theorem zero_append_getLsbD {m n : Nat} (x : BitVec n) (k : Nat) : (0#m ++ x).getLsbD k = x.getLsbD k := by
  rw [BitVec.getLsbD_append]
  split
  · rfl
  · rw [BitVec.getLsbD_zero, BitVec.getLsbD_of_ge]; omega

theorem capsWord_fields (s : State) :
    (capsWord s).extractLsb' 0 16 = BitVec.ofNat 16 s.build.capacity ∧
      (capsWord s).getLsbD 16 = s.build.hasRssi ∧ (capsWord s).getLsbD 17 = false ∧
      (capsWord s).getLsbD 18 = s.build.hasAdaptiveGap ∧ (capsWord s).extractLsb' 19 13 = 0#13 := by
  unfold capsWord
  simp (disch := decide) only [BitVec.getLsbD_append, if_pos, if_neg, bit_getLsbD_zero,
    BitVec.extractLsb'_append_eq_of_add_le, BitVec.extractLsb'_append_eq_of_le, BitVec.extractLsb'_eq_self, true_and]
  exact ⟨rfl, rfl⟩

/-- Settles O17: ID and SETTLE_US are their words, and CAPS is made of its fields. -/
theorem identificationRegisters : Obligations.IdentificationRegisters := by
  intro s
  obtain ⟨hcapacity, hrssi, hslicer, hgap, hreserved⟩ := capsWord_fields s
  exact ⟨rfl, hcapacity, hrssi, hslicer, hgap, hreserved, rfl⟩

theorem statusWord_capState (s : State) : (statusWord s).extractLsb' 0 2 = s.cap.state.code := by
  unfold statusWord
  simp (disch := decide) only [BitVec.extractLsb'_append_eq_of_add_le, BitVec.extractLsb'_eq_self]

theorem statusWord_endReason (s : State) : (statusWord s).extractLsb' 4 3 = s.buf.endReason.code := by
  unfold statusWord
  simp (disch := decide) only [BitVec.extractLsb'_append_eq_of_add_le, BitVec.extractLsb'_append_eq_of_le]
  exact BitVec.extractLsb'_eq_self

theorem statusWord_radioMode (s : State) : (statusWord s).extractLsb' 8 2 = s.radio.mode.code := by
  unfold statusWord
  simp (disch := decide) only [BitVec.extractLsb'_append_eq_of_add_le, BitVec.extractLsb'_append_eq_of_le]
  exact BitVec.extractLsb'_eq_self

/-- The one-bit fields of STATUS (R86). -/
theorem statusWord_bits (s : State) :
    (statusWord s).getLsbD 2 = s.cap.ready ∧ (statusWord s).getLsbD 10 = s.radio.busy ∧
      (statusWord s).getLsbD 11 = txBusy s ∧ (statusWord s).getLsbD 12 = s.poll.isOpen ∧
      (statusWord s).getLsbD 13 = s.cap.slicer ∧ (statusWord s).getLsbD 14 = armed s ∧
      (statusWord s).getLsbD 15 = fatalLocked s ∧ (statusWord s).getLsbD 16 = s.edge.rxPrev := by
  unfold statusWord
  simp (disch := decide) only [BitVec.getLsbD_append, if_pos, if_neg, bit_getLsbD_zero, and_self]

theorem statusWord_reserved (s : State) :
    (statusWord s).getLsbD 3 = false ∧ (statusWord s).getLsbD 7 = false ∧
      (statusWord s).extractLsb' 17 15 = 0#15 := by
  unfold statusWord
  simp (disch := decide) only [BitVec.getLsbD_append, if_pos, if_neg, BitVec.extractLsb'_append_eq_of_le]
  exact ⟨rfl, rfl, rfl⟩

/-- `armed` (R57). -/
theorem armed_iff (s : State) :
    armed s = true ↔
      s.radio.mode = .rx ∧ s.radio.busy = false ∧
        (s.cfg.asyncMode = true ∨ s.poll.isOpen = true ∨ s.cap.state = .seeking ∨ s.cap.state = .capturing) := by
  simp [armed, inCapture, and_assoc, or_assoc]

/-- Settles O15: STATUS is made of its fields, and an enumeration's code is the number R86 gives its value. -/
theorem statusFields : Obligations.StatusFields := by
  intro s
  obtain ⟨hready, hbusy, htx, hpoll, hslicer, harmed, hfatal, hlevel⟩ := statusWord_bits s
  obtain ⟨h3, h7, h17⟩ := statusWord_reserved s
  refine ⟨?_, hready, h3, ?_, h7, ?_, hbusy, htx, hpoll, hslicer, fun h => hslicer.trans h.config.slicer, ?_, hfatal,
    hlevel, h17⟩
  · rw [readval, statusWord_capState]; cases s.cap.state <;> rfl
  · rw [readval, statusWord_endReason]; cases s.buf.endReason <;> rfl
  · rw [readval, statusWord_radioMode]; cases s.radio.mode <;> rfl
  · rw [readval, harmed, armed_iff]

theorem errInfoWord_fields (s : State) :
    (errInfoWord s).extractLsb' 0 4 = s.errs.cause ∧ (errInfoWord s).extractLsb' 4 12 = 0#12 ∧
      (errInfoWord s).extractLsb' 16 14 = s.errs.addr ∧ (errInfoWord s).extractLsb' 30 2 = 0#2 := by
  unfold errInfoWord
  simp (disch := decide) only [BitVec.extractLsb'_append_eq_of_add_le, BitVec.extractLsb'_append_eq_of_le,
    BitVec.extractLsb'_eq_self, true_and]
  exact ⟨rfl, BitVec.extractLsb'_eq_self, rfl⟩

/-- A write-1-to-clear register drops a bit exactly where a 1 is written (R83). -/
theorem clearOnes_bit {n : Nat} (old written : BitVec n) (k : Nat) :
    (clearOnes old written).getLsbD k = (old.getLsbD k && !written.getLsbD k) := by
  by_cases hk : k < n
  · simp [clearOnes, hk]
  · simp [clearOnes, BitVec.getLsbD_of_ge old k (by omega)]

/-- Settles O16: ERR is the flags below zeros, ERR_INFO is made of its fields, and WR_ERR clears by data[5:0] below a
zero in the place of bit 6. -/
theorem errorRegisters : Obligations.ErrorRegisters := by
  refine ⟨fun s => ?_, fun d s => ⟨bus_hostWrite .err d s, _, rfl, fun k => ?_⟩⟩
  · obtain ⟨hcause, h4, haddr, h30⟩ := errInfoWord_fields s
    exact ⟨zero_append_getLsbD s.errs.flags, hcause, h4, haddr, h30, rfl⟩
  · rw [clearOnes_bit, zero_append_getLsbD, BitVec.getLsbD_extractLsb', Nat.zero_add]

/-- The two flags of CFG_FLAGS and ACT_FLAGS, and zeros above them (R88). -/
theorem flagsWord_bit (c : TimingConfig) (k : Nat) :
    (flagsWord c).getLsbD k = (decide (k = 0) && c.asyncMode || decide (k = 1) && c.adaptiveGapEn) := by
  unfold flagsWord
  rw [BitVec.getLsbD_append, zero_append_getLsbD, bit_getLsbD, bit_getLsbD]
  match k with
  | 0 => simp
  | 1 => simp
  | k + 2 => simp

/-- Settles O18: a narrow field is extended by zeros, SIGNAL_STRENGTH by its sign, and every other register is its word
or its bits below zeros. -/
theorem dataRegisterFields : Obligations.DataRegisterFields := by
  intro s
  have hhalf : ∀ x : Half, (x.zeroExtend 32).toNat = x.toNat := fun x => BitVec.toNat_setWidth_of_le (by decide)
  refine ⟨fun k => ?_, zero_append_getLsbD s.ints.enable, zero_append_getLsbD s.ints.pending, rfl, rfl,
    BitVec.toInt_signExtend_of_le (by decide), hhalf _, hhalf _, hhalf _, ?_⟩
  · rw [readval, zero_append_getLsbD, bit_getLsbD]
  · simp only [List.forall_mem_cons, List.not_mem_nil, false_imp_iff, implies_true, and_true]
    exact ⟨⟨hhalf _, hhalf _, hhalf _, rfl, rfl, rfl, flagsWord_bit _⟩,
      ⟨hhalf _, hhalf _, hhalf _, rfl, rfl, rfl, flagsWord_bit _⟩⟩

end Sys2Proof.Machine

/-!
The family of 40_radio.md: how a sequence starts (R110 to R112), the sequencer's step (R113, R114), and how long a mode
change takes (R117).
-/
namespace Sys2Proof.Machine

/-! ### The start of a sequence (R110 to R112) -/

/-- While a sequence runs the capture engine observes no edge (R57, R112). -/
theorem armed_of_radioBusy {s : State} (hb : s.radio.busy = true) : armed s = false := by simp [armed, hb]

/-- SET_MODE of a mode that can be a target: the checks left after those for FATAL and UNSET (R110). -/
theorem execSetMode_of_ne_unset {m : RadioMode} {s : State} (hf : s.errs.flags.getLsbD 6 = false) (hm : m ≠ .unset) :
    execSetMode m s =
      .next
        (if s.radio.busy = true ∨ s.tx.phase ≠ .idle then recorded 2 0x028#14 (setModeWord m) s
        else if m = s.radio.mode then s
        else sequenceStarted m .cmd s) := by
  rw [execSetMode, unlessFatal_of_not_fatal _ _ hf, setModeBody, if_neg hm, radioStart_eq_sequenceStarted]
  exact congrArg _ (if_congr (by simp [txBusy]) rfl rfl)

/-- Settles O34: the words and the start of a sequence are the model's, and past the FATAL lock SET_MODE of UNSET is the
FATAL record and of any other mode execSetMode_of_ne_unset. -/
theorem setModeStartsSequence : Obligations.SetModeStartsSequence := by
  refine ⟨by decide, by decide, by decide, decodeCmd_setMode_unset,
    fun m o s _ => radioStart_eq_sequenceStarted m o s, fun s hb => ?_, fun m s hf => ?_⟩
  · have harmed := armed_of_radioBusy hb
    exact ⟨harmed, by rw [edgeObserved, harmed, Bool.and_false]⟩
  · cases m with
    | unset => exact execSetMode_unset hf
    | off | rx | tx => exact execSetMode_of_ne_unset hf (by decide)

/-! ### The sequencer's step (R113, R114) -/

/-- Settles O39: the branches of radioAdvance, with the end of a sequence by its origin. -/
theorem radioStepCases : Obligations.RadioStepCases := by
  refine ⟨by decide, fun s => ⟨fun hb => ?_, fun hb hw => ?_, fun hb hw hs => ?_, fun hb hw hs => ?_⟩⟩
  · exact congrArg _ (radioAdvance_still hb)
  · exact congrArg _ (radioAdvance_waits hb hw)
  · exact congrArg _ (radioAdvance_first hb hw hs)
  · refine congrArg _ ((radioAdvance_second hb hw hs).trans ?_)
    unfold radioComplete radioDone
    cases s.radio.origin <;> rfl

/-! ### The length of a mode change (R117) -/

/-- A mode change does not read what sampling a tick's inputs or ending a tick writes. -/
theorem Settling.sampleInputs {m : RadioMode} {s u : State} {j : Nat} (t : TickInput) (h : Settling m s j u) :
    Settling m s j (Machine.sampleInputs t u) :=
  ⟨h.build, h.idle, h.busy, h.mode, h.target, h.origin, h.first, h.second⟩

theorem Settling.endTick {m : RadioMode} {s u : State} {j : Nat} (h : Settling m s j u) :
    Settling m s j (Machine.endTick u) :=
  ⟨h.build, h.idle, h.busy, h.mode, h.target, h.origin, h.first, h.second⟩

/-- An accepted SET_MODE starts the sequence (R110). -/
theorem execSetMode_accepted {m : RadioMode} {s : State} (hf : s.errs.flags.getLsbD 6 = false) (hm : m ≠ .unset)
    (hb : s.radio.busy = false) (hx : s.tx.phase = .idle) (hne : m ≠ s.radio.mode) :
    exec (.setMode m) s = .next (sequenceStarted m .cmd s) := by
  rw [exec, execSetMode_of_ne_unset hf hm, if_neg (by simp [hb, hx]), if_neg hne]

/-- At the end of tick t + k the mode change still runs, whatever the transactions and the inputs are (R117, R118): the
invariant of the ticks before the last. -/
theorem ticks_settling {m : RadioMode} {s : State} (hs : List BusTxn) (ts : Nat → TickInput) (hi : BlockInv s)
    (hm : m ≠ .unset) (hx : s.tx.phase = .idle) :
    ∀ k, k < 2 * s.build.settleUs.toNat →
      ∃ u, ticks ts k (restOfTick hs (.next (sequenceStarted m .cmd s))) = .next u ∧ BlockInv u ∧ Settling m s k u ∧
        u.now = s.now + BitVec.ofNat 32 (k + 1) := by
  intro k
  induction k with
  | zero =>
    intro _
    have hstart : Settling m s 0 (sequenceStarted m .cmd s) :=
      sequenceStarted_settling hx (settle_ne_zero hi.buffer.build)
    have hinv : BlockInv (sequenceStarted m .cmd s) := radioStart_eq_sequenceStarted m .cmd s ▸ radioStart_inv hi hm hx
    obtain ⟨u, hu, hui, hst⟩ := restOfTick_steady hs hinv hstart.active
    exact ⟨endTick u, hu, endTick_inv hui, (hstart.steady hst).endTick, congrArg (· + 1#32) hst.now⟩
  | succ k ih =>
    intro hk
    obtain ⟨u, hu, hui, hset, hnow⟩ := ih (by omega)
    obtain ⟨v, hv, hvi, hvset, hvnow⟩ := hset.tick (ts k) hui hnow hk
    exact ⟨v, by rw [ticks, hu, andThen_next, hv], hvi, hvset, hvnow⟩

/-- Settles O40: ticks_settling up to the end of tick t + k, and then phase A1 of the next tick, which goes on with the
sequence (Settling.advance) or, in the last, ends it (Settling.complete). -/
theorem modeChangeTakesTwoSettles : Obligations.ModeChangeTakesTwoSettles := by
  intro m s hs ts hi hf hm hb hx hne S after
  have hexec := execSetMode_accepted hf hm hb hx hne
  refine ⟨hexec, fun k hk => ?_⟩
  obtain ⟨u, hu, -, hset, hnow⟩ := ticks_settling hs ts hi hm hx k hk
  have hafter : after k = .next u := by rw [← hu, ← hexec]
  refine ⟨⟨u, hafter, hset.busy, hset.mode⟩, radioAdvance (sampleInputs (ts k) u), ?_, ?_, ?_⟩
  · rw [hafter, throughRadio_eq]
  · rw [radioAdvance_now]; exact hnow
  · have hsampled := hset.sampleInputs (ts k)
    rcases Nat.lt_or_eq_of_le (Nat.succ_le_of_lt hk) with hlt | hlast
    · have h := hsampled.advance hnow hlt
      refine ⟨fun hS => ?_, fun hS => ?_, fun hS _ => ?_, fun hS => absurd hS hlt.ne⟩
      · obtain ⟨hstep, -, htrace⟩ := h.first hS
        exact ⟨h.busy, h.mode, hstep, htrace⟩
      · exact (h.second hS).2.2
      · exact ⟨h.busy, h.mode, (h.second hS).1⟩
    · obtain ⟨hbusy, hmode, hstep, hpending, htrace⟩ := hsampled.complete hlast
      exact ⟨fun hS => by omega, fun _ => htrace, fun _ hS => absurd hlast hS.ne,
        fun _ => ⟨hbusy, hmode, hstep, hpending⟩⟩

end Sys2Proof.Machine

/-!
The family of 41_capture.md: what an observed edge does in each capture state (R133 to R141), and the ends of the
deadline and of the poll window (R143 to R147).
-/
namespace Sys2Proof.Machine

/-! ### The rows under their conditions (R96, R102) -/

/-- An edge row whose condition holds runs its rule on the sampled state (R131). -/
theorem edgeRow_of_observed {c : CapState} {long : Bool} {run : State → Out} {s : State} (ho : edgeObserved s = true)
    (hc : s.cap.state = c) (hl : longInterval s = long) : edgeRow c long run s = run (sampleEdge s) := by
  simp [edgeRow, ho, hc, hl]

/-- A deadline row whose condition holds runs its rule (R143). -/
theorem deadlineRow_of_due {c : CapState} {run : State → State} {s : State} (ha : s.cap.dlArmed = true)
    (hd : s.now = s.cap.deadline) (hc : s.cap.state = c) : deadlineRow c run s = run s :=
  if_pos (by simp [deadlineDue, ha, hd, hc])

/-- The width test of an edge in SEEKING (R134). -/
theorem longInterval_seeking {s : State} (hc : s.cap.state = .seeking) :
    longInterval s = decide (s.cfg.minPreambleUs.toNat ≤ (seekWidth s).toNat) := by
  simp only [longInterval, hc, BitVec.lt_def, ← decide_not, Nat.not_lt]

/-- The width test of an edge in CAPTURING (R139). -/
theorem longInterval_capturing {s : State} (hc : s.cap.state = .capturing) :
    longInterval s = decide (s.cfg.minPulseLenUs.toNat ≤ (pulseWidth s).toNat) := by
  simp only [longInterval, hc, glitch, BitVec.lt_def, ← decide_not, Nat.not_lt]

/-! ### The stored train (R135, R142) -/

/-- The train after a store: the words before it, and the stored one. -/
theorem train_succ_of_writePulse {s t : State} {n : Nat} {v : Half} (hwf : Memory.wf s.mem = true)
    (hm : t.mem = s.mem.writePulse (n + 1) v) : train (n + 1) t = train n s ++ [v] := by
  have hlast : pulse t (n + 1) = v := by rw [pulse, hm, memory_readPulse_writePulse_same _ _ hwf]
  have hbefore : ∀ k ∈ List.range n, pulse t (k + 1) = pulse s (k + 1) := fun k hk => by
    have hlt := List.mem_range.1 hk
    rw [pulse, hm, memory_readPulse_writePulse_other _ (by omega), pulse]
  rw [train, List.range_succ, List.map_append, List.map_congr_left hbefore, List.map_singleton, hlast, train]

/-- After the store of half-pulse n + 1: the end of the capture, or the deadline for the train so far (R138, R141). -/
theorem closeOrArm_of_stored {s t : State} {n : Nat} {v : Half} (hwf : Memory.wf s.mem = true)
    (hm : t.mem = s.mem.writePulse (n + 1) v) (hn : t.buf.pulseCount.toNat = n + 1) :
    closeOrArm t =
      if n + 1 = t.build.capacity then captureEnded .tooLong t else deadlineArmed (train n s ++ [v]) t := by
  have htrain : storedPulses t = train n s ++ [v] := by
    rw [← train_succ_of_writePulse hwf hm, ← hn]; rfl
  rw [closeOrArm_eq, htrain, hn]

/-! ### The commit (R138) -/

/-- A preamble interval that is a glitch is not stored (D7). -/
theorem seekCommit_of_glitch {s : State} (h : (seekWidth s).toNat < s.cfg.minPulseLenUs.toNat) :
    seekCommit s = .next (deadlineArmed [] (beginCapture s)) := by
  rw [seekCommit, if_pos (by simpa [glitch, BitVec.lt_def] using h), armDeadline_eq_deadlineArmed]
  rfl

/-- A preamble interval that is no glitch is stored as half-pulse 1. -/
theorem seekCommit_of_not_glitch {s : State} (hcap : 1 ≤ s.build.capacity)
    (h : s.cfg.minPulseLenUs.toNat ≤ (seekWidth s).toNat) :
    seekCommit s =
      .next
        (closeOrArm
          { beginCapture s with
            buf := { (beginCapture s).buf with pulseCount := 1#16 }
            mem := s.mem.writePulse 1 (storedWidth (seekWidth s) s) }) := by
  have hstore := (storePulse_eq_next (w := seekWidth s) (s := beginCapture s)).2 ⟨hcap, rfl⟩
  rw [seekCommit, if_neg (by simpa [glitch, BitVec.lt_def] using h), hstore]
  rfl

/-- Settles O43: the commit runs on the sampled state, and a stored preamble is a train of one half-pulse. -/
theorem preambleCommit : Obligations.PreambleCommit := by
  refine ⟨rfl, fun s ho hc hwf hcap hlong => ?_⟩
  have hrow : exec .evEdgeSeekingCommit s = seekCommit (sampleEdge s) :=
    edgeRow_of_observed ho hc ((longInterval_seeking hc).trans (decide_eq_true hlong))
  refine ⟨fun hw => hrow.trans (seekCommit_of_glitch hw), fun hw => ?_⟩
  refine ⟨s.mem.writePulse 1 (storedWidth (seekWidth s) s), fun a h0 h1 => memory_read_writePulse_other _ h0 h1,
    memory_readPulse_writePulse_same _ _ hwf, ?_⟩
  rw [hrow, seekCommit_of_not_glitch (s := sampleEdge s) hcap hw, closeOrArm_of_stored (s := s) (n := 0) hwf rfl rfl]
  exact congrArg _ (if_congr eq_comm rfl rfl)

/-! ### Accepted and ignored intervals (R134, R139, R141) -/

/-- An accepted pulse is stored at the next index, where the buffer has one. -/
theorem acceptPulse_of_room {s : State} (hroom : s.buf.pulseCount.toNat < s.build.capacity) :
    acceptPulse s =
      .next
        (closeOrArm
          { s with
            mem := s.mem.writePulse (s.buf.pulseCount.toNat + 1) (storedWidth (pulseWidth s) s)
            cap := { s.cap with lastEdge := s.now }
            buf := { s.buf with pulseCount := BitVec.ofNat 16 (s.buf.pulseCount.toNat + 1) } }) := by
  have hstore := (storePulse_eq_next (w := pulseWidth s) (s := s)).2 ⟨hroom, rfl⟩
  have hcount : s.buf.pulseCount + 1#16 = BitVec.ofNat 16 (s.buf.pulseCount.toNat + 1) := by
    rw [BitVec.ofNat_add, BitVec.ofNat_toNat, BitVec.setWidth_eq]
  rw [acceptPulse, hstore, andThen_next, hcount]
  rfl

/-- Settles O44: the accepted pulse runs on the sampled state, and the train after it is the one before with the stored
width at its end. -/
theorem acceptedPulse : Obligations.AcceptedPulse := by
  refine ⟨rfl, fun s ho hc hwf hroom hcap hlong => ?_⟩
  have hrow : exec .evEdgeCapturingAccept s = acceptPulse (sampleEdge s) :=
    edgeRow_of_observed ho hc ((longInterval_capturing hc).trans (decide_eq_true hlong))
  have hcount : (BitVec.ofNat 16 (s.buf.pulseCount.toNat + 1)).toNat = s.buf.pulseCount.toNat + 1 :=
    (BitVec.toNat_ofNat _ 16).trans (Nat.mod_eq_of_lt (by omega))
  refine ⟨s.mem.writePulse (s.buf.pulseCount.toNat + 1) (storedWidth (pulseWidth s) s),
    fun a h0 h1 => memory_read_writePulse_other _ h0 h1, memory_readPulse_writePulse_same _ _ hwf, ?_⟩
  intro u
  rw [hrow, acceptPulse_of_room (s := sampleEdge s) hroom, closeOrArm_of_stored (s := s) hwf rfl hcount]
  rfl

/-- Settles O42: below its threshold the row of the short interval runs, whose rule changes nothing. -/
theorem shortIntervalsAreIgnored : Obligations.ShortIntervalsAreIgnored := by
  refine ⟨rfl, rfl, fun s ho => ⟨fun hc hw => ?_, fun hc hw => ?_⟩⟩
  · exact edgeRow_of_observed ho hc ((longInterval_seeking hc).trans (decide_eq_false (Nat.not_le.2 hw)))
  · exact edgeRow_of_observed ho hc ((longInterval_capturing hc).trans (decide_eq_false (Nat.not_le.2 hw)))

/-! ### Edges outside a capture (R133, R140) -/

/-- Settles O41: IDLE has one edge row, and its rule reads `hold` first. -/
theorem idleEdgeStartsSeeking : Obligations.IdleEdgeStartsSeeking := by
  refine ⟨fun _ => rfl, fun s ho hc => ?_⟩
  exact edgeRow_of_observed (run := fun u => .next (startSeeking u)) ho hc (by rw [longInterval, hc])

/-- Settles O45: DONE has one edge row, and its rule sets the one flag. -/
theorem doneEdgeIsDropped : Obligations.DoneEdgeIsDropped := by
  refine ⟨fun _ => rfl, fun s ho hc => ?_⟩
  exact edgeRow_of_observed (run := fun u => .next (dropEdge u)) ho hc (by rw [longInterval, hc])

/-! ### Deadline and poll window (R143 to R147) -/

/-- Settles O46: the row runs the timeout, which ends the capture with its reason. -/
theorem silenceDeadlineEndsCapture : Obligations.SilenceDeadlineEndsCapture := by
  refine ⟨fun _ => rfl, fun s ha hd hc => ?_⟩
  have hrow : exec .evDeadlineCapturing s = .next (captureTimeout s) := congrArg _ (deadlineRow_of_due ha hd hc)
  rw [hrow, captureTimeout, finish_eq_captureEnded]
  rfl

/-- Settles O47: both rows run their rule where they are due. -/
theorem seekDeadlineAndPollEnd : Obligations.SeekDeadlineAndPollEnd := by
  refine ⟨fun _ => rfl, by decide, fun s => ⟨fun ha hd hc => ?_, fun hopen hend => ?_⟩⟩
  · exact congrArg _ (deadlineRow_of_due ha hd hc)
  · exact congrArg _ (if_pos (by simp [pollDue, hopen, hend]))

end Sys2Proof.Machine

/-!
The family of 42_buffer.md: a read of a window word (R170), the writes that Q gates (R171 to R174), and the release of a
capture (R175).
-/
namespace Sys2Proof.Machine

/-! ### A window word read (R170) -/

theorem toNat_windowOffset (i : Index) : (windowOffset i).toNat = 0x2000 + 4 * i.toNat := by
  have hi := i.isLt
  rw [windowOffset_eq, BitVec.toNat_ofNat]
  omega

/-- The offset of a window word is mapped exactly where the buffer has the word (R66, R82). -/
theorem mappedOffset_windowOffset_iff (capacity : Nat) (i : Index) :
    MappedOffset capacity (windowOffset i).toNat ↔ i.toNat ≤ capacity := by
  rw [toNat_windowOffset, MappedOffset]
  omega

/-- RD_PULSE of a word the buffer has returns the word above zeros (R170). -/
theorem execRdPulse_of_le {i : Index} {s : State} (hi : i.toNat ≤ s.build.capacity) :
    execRdPulse i s = .next (answered s (windowOffset i) (BitVec.ofNat 32 (pulse s i.toNat).toNat)) := by
  rw [execRdPulse, if_pos hi, BitVec.ofNat_toNat]
  rfl

/-- Settles O19: a window offset runs RD_PULSE where the buffer has the word, and above C it is not mapped. -/
theorem pulseReadReturnsWord : Obligations.PulseReadReturnsWord := by
  intro i s
  rw [← windowOffset_eq]
  refine ⟨fun hi => ⟨bus_readWindow hi, execRdPulse_of_le hi⟩, fun hi => ?_⟩
  have hunmapped : ¬ MappedOffset s.build.capacity (windowOffset i).toNat :=
    fun hm => absurd ((mappedOffset_windowOffset_iff _ i).1 hm) (Nat.not_le.2 hi)
  exact (bus_of_noOperation (h := hostRead (windowOffset i)) fun hop => hunmapped hop.2).2 rfl

/-! ### The gated writes (R171 to R174) -/

/-- data[15:0] as the remainder of the data. -/
theorem lowHalf_eq_ofNat_mod (d : Word) : lowHalf d = BitVec.ofNat 16 (d.toNat % 2 ^ 16) :=
  BitVec.eq_of_toNat_eq (by simp [lowHalf])

theorem toNat_lowHalf (d : Word) : (lowHalf d).toNat = d.toNat % 2 ^ 16 := by simp [lowHalf]

/-- A gated write with a test of its value runs where Q holds and the test passes, and elsewhere is R231's record of
WRITE_REJECTED. -/
theorem gatedWrite_decide (o : Offset) (d : Word) (p : Prop) [Decidable p] (run : State → Out) (s : State) :
    gatedWrite o d (decide p) run s = if quiescent s = true ∧ p then run s else .next (recorded 3 o d s) :=
  if_congr (by rw [Bool.and_eq_true, decide_eq_true_iff]) rfl rfl

/-- A gated write that takes every value asks for Q alone. -/
theorem gatedWrite_true (o : Offset) (d : Word) (run : State → Out) (s : State) :
    gatedWrite o d true run s = if quiescent s = true then run s else .next (recorded 3 o d s) :=
  if_congr (by rw [Bool.and_true]) rfl rfl

/-- Settles O24: the write of the word runs where Q holds, and its two bytes are those of R62. -/
theorem pulseWriteIsGated : Obligations.PulseWriteIsGated := by
  intro i d s
  rw [← windowOffset_eq, ← lowHalf_eq_ofNat_mod]
  have hexec : exec (.wrPulse i d) s =
      if quiescent s = true then setPulse i.toNat (lowHalf d) s else .next (recorded 3 (windowOffset i) d s) :=
    gatedWrite_true ..
  refine ⟨bus_writeWindow d, fun hq hi hwf => ?_, fun hq => ?_⟩
  · refine ⟨{ s with mem := s.mem.writePulse i.toNat (lowHalf d) }, ?_, rfl,
      memory_readPulse_writePulse_same _ _ hwf, fun a h0 h1 => memory_read_writePulse_other _ h0 h1⟩
    rw [hexec, if_pos hq]
    exact setPulse_eq_next.2 ⟨hi, rfl⟩
  · rw [hexec, if_neg (by simp [hq])]

/-- Settles O25: each register's write is gated by Q, that of PULSE_COUNT also by the capacity. -/
theorem parameterWritesAreGated : Obligations.ParameterWritesAreGated := by
  intro d s
  rw [← lowHalf_eq_ofNat_mod, ← toNat_lowHalf]
  refine ⟨bus_hostWrite .pulseCount d s, bus_hostWrite .repeats d s, bus_hostWrite .interRepeatDelayMs d s, ?_, ?_, ?_⟩
  · rw [exec, execWrPulseCount, gatedWrite_decide]
    rfl
  · rw [exec, execWrRepeats, gatedWrite_true]
    rfl
  · rw [exec, execWrInterRepeatDelayMs, gatedWrite_true]
    rfl

/-! ### The release of a capture (R175) -/

/-- Under FATAL a command is R231's record of CMD_REJECTED with its word (R220). -/
theorem unlessFatal_of_fatal {s : State} (w : Word) (run : State → Out) (hf : s.errs.flags.getLsbD 6 = true) :
    unlessFatal w run s = .next (recorded 2 0x028#14 w s) :=
  if_pos hf

/-- Settles O32: past the FATAL lock CONSUME is its body, which reads `ready` first. -/
theorem consumeReleasesCapture : Obligations.ConsumeReleasesCapture := by
  refine ⟨by decide, fun s => ⟨fun hf => ?_, fun hf => ?_⟩⟩
  · rw [exec, execConsume, unlessFatal_of_not_fatal _ _ hf]
    rfl
  · rw [exec, execConsume, unlessFatal_of_fatal _ _ hf]
    rfl

end Sys2Proof.Machine

/-!
The family of 43_replay.md: the checks and the acceptance of RAW_SEND (R190 to R193), the TX engine's step (R194 to
R196), what a transmit leaves alone, its waveform (R197), and that nothing interrupts it (R198).
-/
namespace Sys2Proof.Machine

/-! ### RAW_SEND (R190 to R193) -/

theorem inCapture_eq_false {s : State} (h₁ : s.cap.state ≠ .seeking) (h₂ : s.cap.state ≠ .capturing) :
    inCapture s = false := by
  simp [inCapture, h₁, h₂]

/-- A running sequence or transmit is what RAW_SEND and SET_MODE test first (R190, R110). -/
theorem radioOrTxBusy_iff (s : State) :
    (s.radio.busy || txBusy s) = true ↔ s.radio.busy = true ∨ s.tx.phase ≠ .idle := by
  simp [txBusy]

theorem not_radioOrTxBusy {s : State} (hb : s.radio.busy = false) (hx : s.tx.phase = .idle) :
    ¬ (s.radio.busy || txBusy s) = true := by
  simp [hb, hx, txBusy]

theorem execRawSend_of_busy {s : State} (hf : s.errs.flags.getLsbD 6 = false)
    (h : s.radio.busy = true ∨ s.tx.phase ≠ .idle) :
    exec .rawSend s = .next (recorded 2 0x028#14 0x00000004#32 s) := by
  rw [exec, execRawSend, unlessFatal_of_not_fatal _ _ hf, rawSendBody, if_pos ((radioOrTxBusy_iff s).2 h)]
  rfl

/-- Settles O35: each rejection is one branch of the checks, the branches before it closed by its hypotheses. -/
theorem rawSendRejections : Obligations.RawSendRejections := by
  intro s hf
  have hexec : exec .rawSend s = rawSendBody s := unlessFatal_of_not_fatal _ _ hf
  refine ⟨execRawSend_of_busy hf, fun hb hx hm => ?_, fun hb hx hm hc => ?_⟩
  · rw [hexec, rawSendBody, if_neg (not_radioOrTxBusy hb hx), if_pos hm]
    rfl
  · have hcap : inCapture s = true := by simpa [inCapture] using hc
    rw [hexec, rawSendBody, if_neg (not_radioOrTxBusy hb hx), if_neg hm, if_pos hcap]
    rfl

/-- From OFF or RX an accepted RAW_SEND starts the radio's sequence to TX (R192). -/
theorem rawSendAccept_of_not_tx {s : State} (hN : s.buf.repeats ≠ 0#16) (hn : s.buf.pulseCount ≠ 0#16)
    (hm : s.radio.mode ≠ .tx) :
    rawSendAccept s =
      .next (sequenceStarted .tx .tx { s with tx := { s.tx with prior := s.radio.mode, phase := .acquire } }) := by
  rw [rawSendAccept, if_neg (by simp [hN, hn]), if_neg hm, radioStart_eq_sequenceStarted]

/-- From TX an accepted RAW_SEND starts the train (R193). -/
theorem rawSendAccept_of_tx {s : State} (hN : s.buf.repeats ≠ 0#16) (hn : s.buf.pulseCount ≠ 0#16)
    (hm : s.radio.mode = .tx) : rawSendAccept s = startTrain { s with tx := { s.tx with prior := .tx } } := by
  rw [rawSendAccept, if_neg (by simp [hN, hn]), if_pos hm, hm]

theorem one_le_toNat {w : Half} (h : w ≠ 0#16) : 1 ≤ w.toNat :=
  Nat.one_le_iff_ne_zero.2 (BitVec.toNat_ne.1 h)

/-- The train begins with half-pulse 1 of transmission 1; an empty one ends in the same step (R193, R194). -/
theorem startTrain_eq {s : State} (hn : 1 ≤ s.buf.pulseCount.toNat) (hcap : 1 ≤ s.build.capacity) :
    startTrain s =
      if halfPulseTicks 1 s = 0 then txAdvance (lastTick (halfPulseBegun 1 1 s)) else .next (halfPulseBegun 1 1 s) :=
  playTransmission_eq rfl rfl rfl (by decide) hn hcap

/-- Settles O36: past the checks, the three branches of the acceptance. -/
theorem rawSendStartsTransmit : Obligations.RawSendStartsTransmit := by
  intro s hf hb hx hu hs hc
  have hexec : exec .rawSend s = rawSendAccept s := execRawSend_eq_accept hf hb hx hu (inCapture_eq_false hs hc)
  rw [hexec]
  refine ⟨fun hempty => ?_, rawSendAccept_of_not_tx, fun hN hn hm hcap => ?_⟩
  · rw [rawSendAccept, if_pos hempty]
    rfl
  · exact (rawSendAccept_of_tx hN hn hm).trans (startTrain_eq (one_le_toNat hn) hcap)

/-! ### The TX engine's step (R194 to R196) -/

/-- With no sequence running, the acquire has ended and the train starts (R192, R195). -/
theorem txAdvance_acquired {s : State} (hp : s.tx.phase = .acquire) (hb : s.radio.busy = false) :
    txAdvance s = startTrain s := by
  simp [txAdvance, hp, hb]

/-- With no sequence running, the release has ended and the transmit is finished (R195, R196). -/
theorem txAdvance_released {s : State} (hp : s.tx.phase = .release) (hb : s.radio.busy = false) :
    txAdvance s = .next (txFinish s) := by
  simp [txAdvance, hp, hb]

/-- Settles O48: the branches of txAdvance in which no segment ends. -/
theorem transmitStepWaits : Obligations.TransmitStepWaits := by
  intro s
  refine ⟨fun hp => ?_, txAdvance_held, txAdvance_waits, txAdvance_released⟩
  rw [exec, execEvTxStep, txAdvance, hp]

/-- A state whose segment has one tick left is its own lastTick. -/
theorem lastTick_of_wait {s : State} (hw : s.tx.wait = 1#32) : lastTick s = s := by
  rw [lastTick, ← hw]

theorem txAdvance_pulseEnd {s : State} (hp : s.tx.phase = .pulse) (hw : s.tx.wait = 1#32) :
    txAdvance s = advancePulse { s with tx := { s.tx with wait := 0#32 } } := by
  rw [← txAdvance_lastTick hp, lastTick_of_wait hw]

theorem txAdvance_gapEnd {s : State} (hp : s.tx.phase = .gap) (hw : s.tx.wait = 1#32) :
    txAdvance s = advanceGap { s with tx := { s.tx with wait := 0#32 } } := by
  rw [← txAdvance_lastTick_gap hp, lastTick_of_wait hw]

/-- The end of the last half-pulse is the end of the transmission (R194). -/
theorem txAdvance_transmissionEnd {s : State} (hp : s.tx.phase = .pulse) (hw : s.tx.wait = 1#32)
    (hlast : s.buf.pulseCount.toNat ≤ s.tx.idx.toNat) :
    txAdvance s =
      endTransmission (repeatsLeft { s with tx := { s.tx with wait := 0#32 } })
        { s with tx := { s.tx with wait := 0#32 } } := by
  rw [txAdvance_pulseEnd hp hw, advancePulse, if_neg fun hlt => Nat.not_lt.2 hlast (BitVec.lt_def.1 hlt)]

/-- The pause between transmissions begun at the present tick, with the data output low (R194). -/
def pauseBegun (s : State) : State :=
  withPins [(.txData, false)]
    { s with tx := { s.tx with phase := .gap, wait := BitVec.ofNat 32 (s.buf.interRepeatDelayMs.toNat * 1000) } }

theorem toNat_pause (s : State) :
    (BitVec.ofNat 32 (s.buf.interRepeatDelayMs.toNat * 1000)).toNat = s.buf.interRepeatDelayMs.toNat * 1000 := by
  have hd := s.buf.interRepeatDelayMs.isLt
  rw [BitVec.toNat_ofNat, Nat.mod_eq_of_lt (by omega)]

/-- After a transmission that is not the last the pause begins; one of no ticks ends in the same step (R194). -/
theorem endTransmission_of_more {s : State} (hr : s.tx.rep.toNat < s.buf.repeats.toNat) :
    endTransmission (repeatsLeft s) s =
      if s.buf.interRepeatDelayMs.toNat * 1000 = 0 then txAdvance (lastTick (pauseBegun s))
      else .next (pauseBegun s) := by
  have hN := s.buf.repeats.isLt
  obtain ⟨n, hn⟩ : ∃ n, repeatsLeft s = n + 1 := ⟨repeatsLeft s - 1, by rw [repeatsLeft]; omega⟩
  have hpause : pauseTicks s = BitVec.ofNat 32 (s.buf.interRepeatDelayMs.toNat * 1000) :=
    BitVec.eq_of_toNat_eq (by simp [pauseTicks])
  have hbegun : ({ drivePin .txData false s with
      tx := { s.tx with phase := .gap, wait := pauseTicks s } } : State) = pauseBegun s := by
    rw [hpause]; rfl
  have hzero : (pauseBegun s).tx.wait = 0#32 ↔ s.buf.interRepeatDelayMs.toNat * 1000 = 0 := by
    rw [← BitVec.toNat_inj, ← toNat_pause s]; rfl
  have hstep : endTransmission (n + 1) s =
      if (pauseBegun s).tx.wait = 0#32 then
        playPulses (endTransmission n) (pulsesLeft (nextTransmission (pauseBegun s))) (nextTransmission (pauseBegun s))
      else .next (pauseBegun s) := by
    rw [← hbegun]; rfl
  have hleft : repeatsLeft (nextTransmission (pauseBegun s)) = n := by
    have hnext : repeatsLeft (nextTransmission (pauseBegun s)) = s.buf.repeats.toNat - (s.tx.rep + 1#16).toNat := rfl
    rw [repeatsLeft] at hn
    rw [hnext, BitVec.toNat_add, show (1#16).toNat = 1 from rfl]
    omega
  rw [hn, hstep]
  by_cases hD : s.buf.interRepeatDelayMs.toNat * 1000 = 0
  · have hw := hzero.2 hD
    rw [if_pos hw, if_pos hD, txAdvance_lastTick_gap rfl, ← hw, advanceGap, playTransmission, ← hleft]
  · rw [if_neg (mt hzero.1 hD), if_neg hD]

/-- After the last transmission the train is released, with the data output low (R194). -/
theorem endTransmission_of_last {s : State} (hr : s.buf.repeats.toNat ≤ s.tx.rep.toNat) :
    endTransmission (repeatsLeft s) s = .next (txRelease (drivePin .txData false s)) := by
  rw [repeatsLeft, Nat.sub_eq_zero_of_le hr]
  rfl

theorem txRelease_of_tx {s : State} (hp : s.tx.prior = .tx) : txRelease s = txFinish s := if_pos hp

theorem txRelease_of_not_tx {s : State} (hp : s.tx.prior ≠ .tx) :
    txRelease s = sequenceStarted s.tx.prior .tx { s with tx := { s.tx with phase := .release } } := by
  rw [txRelease, if_neg hp, radioStart_eq_sequenceStarted]

/-- Settles O49: the next half-pulse by playTransmission_eq from each of the three boundaries before it, the rest by the
end of a transmission. -/
theorem transmitStepAdvances : Obligations.TransmitStepAdvances := by
  intro s hcap hcount last next
  refine ⟨fun hp hb => ?_, fun hp hw hk => ?_, fun hp hw hr => ?_, fun hp hw hk => ?_⟩
  · exact (txAdvance_acquired hp hb).trans (startTrain_eq hcount (hcount.trans hcap))
  · have hc := s.buf.pulseCount.isLt
    refine (txAdvance_pulseEnd hp hw).trans ?_
    rw [advancePulse, if_pos (BitVec.lt_def.2 hk)]
    exact playTransmission_eq rfl (by simp) (by rw [BitVec.ofNat_add]; simp) (by omega) hk (Nat.le_trans hk hcap)
  · refine (txAdvance_gapEnd hp hw).trans ?_
    exact playTransmission_eq rfl (by rw [BitVec.ofNat_add]; simp) rfl (by decide) hcount (hcount.trans hcap)
  · have hend := txAdvance_transmissionEnd hp hw hk
    refine ⟨fun hr => hend.trans (endTransmission_of_more hr), fun hr hprior => ?_, fun hr hprior => ?_⟩
    · exact (hend.trans (endTransmission_of_last hr)).trans (congrArg _ (txRelease_of_tx hprior))
    · exact (hend.trans (endTransmission_of_last hr)).trans (congrArg _ (txRelease_of_not_tx hprior))

/-! ### What a transmit leaves alone (R190 to R196) -/

/-- The frame as one state: s with the groups the TX engine may write. -/
theorem TxFrame.eq {s t : State} (h : TxFrame s t) :
    t = { s with tx := t.tx, radio := t.radio, pins := t.pins, trace := t.trace, ints := t.ints } := by
  obtain ⟨hbuild, hmem, hbuf, hcap, hedge, hpoll, hcfgSh, hcfg, herrs, -, -, hnow, hreads, henv, -, -, -⟩ := h
  rw [← hbuild, ← hmem, ← hbuf, ← hcap, ← hedge, ← hpoll, ← hcfgSh, ← hcfg, ← herrs, ← hnow, ← hreads, ← henv]

/-- Settles O50: TxFrame of the step and of an accepted RAW_SEND; a RAW_SEND turned away writes the error record. -/
theorem transmitFrame : Obligations.TransmitFrame := by
  refine fun s t => ⟨fun h => ?_, fun h => ?_⟩
  · have hframe := txAdvance_frame h
    exact ⟨hframe.eq, hframe.enable, hframe.irq, hframe.prior⟩
  · cases exec_effect h with
    | same => exact ⟨rfl, rfl, rfl⟩
    | error => exact ⟨rfl, rfl, rfl⟩
    | read _ _ _ _ hi => cases hi
    | shadowed hi => cases hi
    | sampled hi => simp [filteredEdge] at hi
    | sent _ _ _ _ _ haccept =>
      have hframe := rawSendAccept_frame haccept
      have herrs : t.errs = s.errs := hframe.errs
      exact ⟨by rw [herrs]; exact hframe.eq, hframe.enable, hframe.irq⟩

/-! ### The waveform of a transmit (R197) -/

/-- The ticks of one transmission of the stored train. -/
def transmissionTicks (s : State) : Nat :=
  ((train s.buf.pulseCount.toNat s).map fun v => v.toNat * s.cfg.sampleRate.toNat).sum

/-- The ticks from the start of the stored train to its release: its transmissions and the pauses between them. -/
def trainTicks (s : State) : Nat :=
  s.buf.repeats.toNat * transmissionTicks s + (s.buf.repeats.toNat - 1) * (s.buf.interRepeatDelayMs.toNat * 1000)

/-- The pin writes of the stored train, started at tick τ. -/
def trainPins (τ : Nat) (s : State) : List (Nat × Pin × Bool) :=
  (trainWrites s.cfg.sampleRate.toNat (transmissionTicks s) (s.buf.interRepeatDelayMs.toNat * 1000)
    (train s.buf.pulseCount.toNat s) s.buf.repeats.toNat τ).map fun w => (w.1, Pin.txData, w.2)

/-- A started train plays its writes and is released after its ticks (R193, R194, R197). -/
theorem run_startTrain {s : State} (t₀ : Word) (τ : Nat) (hcap : s.buf.pulseCount.toNat ≤ s.build.capacity)
    (hn : s.buf.pulseCount ≠ 0#16) (hN : s.buf.repeats ≠ 0#16) (hb : s.radio.busy = false)
    (hnow : s.now = t₀ + BitVec.ofNat 32 τ) :
    ∃ u, Run (startTrain s) (trainTicks s) (.next (txRelease u)) ∧ Playing s u ∧
      u.now = t₀ + BitVec.ofNat 32 (τ + trainTicks s) ∧ u.trace = s.trace ++ traceFrom t₀ (trainPins τ s) := by
  have hlen : (train s.buf.pulseCount.toNat s).length = s.buf.pulseCount.toNat := by simp [train]
  have hne : train s.buf.pulseCount.toNat s ≠ [] :=
    List.ne_nil_of_length_pos (hlen.symm ▸ one_le_toNat hn)
  obtain ⟨N, hrep⟩ : ∃ N, s.buf.repeats.toNat = N + 1 := ⟨_, (Nat.sub_add_cancel (one_le_toNat hN)).symm⟩
  obtain ⟨u, hrun, hplay, hunow, htrace⟩ := run_train t₀ _ hne N 1 τ s { s.tx with rep := 1#16, idx := 1#16 } hlen
    (fun j _ => by simp [train, Nat.add_comm]) hcap hb (by omega) rfl rfl rfl hnow
  have hticks : trainTicks s = (N + 1) * transmissionTicks s + N * (s.buf.interRepeatDelayMs.toNat * 1000) := by
    rw [trainTicks, hrep, Nat.add_sub_cancel]
  refine ⟨u, by rw [hticks]; exact hrun, hplay, by rw [hticks]; exact hunow, ?_⟩
  rw [trainPins, hrep]
  exact htrace

theorem traceFrom_append (t : Word) (a b : List (Nat × Pin × Bool)) :
    traceFrom t (a ++ b) = traceFrom t a ++ traceFrom t b := List.map_append ..

/-- Pin writes counted from e ticks later. -/
theorem traceFrom_pinsAt_later (t : Word) (e τ : Nat) (ws : List (Pin × Bool)) :
    traceFrom (t + BitVec.ofNat 32 e) (pinsAt τ ws) = traceFrom t (pinsAt (e + τ) ws) := by
  simp [traceFrom, pinsAt, BitVec.ofNat_add, BitVec.add_assoc]

/-- The train is read from the buffer and the configuration alone. -/
theorem train_congr {s u : State} (hmem : u.mem = s.mem) (hbuf : u.buf = s.buf) (hcfg : u.cfg = s.cfg) :
    trainTicks u = trainTicks s ∧ ∀ τ, trainPins τ u = trainPins τ s := by
  have htrain : train u.buf.pulseCount.toNat u = train s.buf.pulseCount.toNat s := by
    rw [hbuf]; unfold train pulse; rw [hmem]
  have hone : transmissionTicks u = transmissionTicks s := by rw [transmissionTicks, htrain, hcfg, transmissionTicks]
  refine ⟨?_, fun τ => ?_⟩
  · rw [trainTicks, hone, hbuf, trainTicks]
  · rw [trainPins, htrain, hone, hcfg, hbuf, trainPins]

/-- The acquire takes two settles and then starts the train (R192). -/
theorem run_acquire {s : State} (hN : s.buf.repeats ≠ 0#16) (hn : s.buf.pulseCount ≠ 0#16) (hm : s.radio.mode ≠ .tx)
    (hS : s.build.settleUs ≠ 0#32) :
    ∃ u, Run (rawSendAccept s) (2 * s.build.settleUs.toNat) (startTrain u) ∧
      u =
        { s with
          tx := { s.tx with prior := s.radio.mode, phase := .acquire }
          radio := u.radio, pins := u.pins, trace := u.trace, now := u.now, ints := u.ints } ∧
      u.radio.busy = false ∧ u.now = s.now + BitVec.ofNat 32 (2 * s.build.settleUs.toNat) ∧
      u.trace =
        s.trace ++
          traceFrom s.now (pinsAt 0 (firstPins .tx) ++ pinsAt s.build.settleUs.toNat (secondPins .tx)) := by
  obtain ⟨u, hrun, hframe, -, hbusy, -, hnow, htrace⟩ := run_sequence .tx
    (s := { s with tx := { s.tx with prior := s.radio.mode, phase := .acquire } }) (.inl rfl) hS
  rw [txAdvance_acquired (by rw [hframe]) hbusy] at hrun
  exact ⟨u, rawSendAccept_of_not_tx hN hn hm ▸ hrun, hframe, hbusy, hnow, htrace⟩

/-- The release to another mode takes two settles and then ends the transmit (R196). -/
theorem run_release {s : State} (hp : s.tx.prior ≠ .tx) (hS : s.build.settleUs ≠ 0#32) :
    ∃ z, Run (.next (txRelease s)) (2 * s.build.settleUs.toNat) (.next z) ∧ z.tx.phase = .idle ∧
      z.radio.mode = s.tx.prior ∧ z.radio.busy = false ∧
      z.now = s.now + BitVec.ofNat 32 (2 * s.build.settleUs.toNat) ∧
      z.trace =
        s.trace ++
          traceFrom s.now
            (pinsAt 0 (firstPins s.tx.prior) ++ pinsAt s.build.settleUs.toNat (secondPins s.tx.prior)) := by
  obtain ⟨w, hrun, hframe, hmode, hbusy, -, hnow, htrace⟩ := run_sequence s.tx.prior
    (s := { s with tx := { s.tx with phase := .release } }) (.inr rfl) hS
  rw [txAdvance_released (by rw [hframe]) hbusy] at hrun
  exact ⟨txFinish w, txRelease_of_not_tx hp ▸ hrun, rfl, hmode, hbusy, hnow, htrace⟩

/-- What the end of a transmit from s shows after n ticks with the pin writes ws, but for TX_DONE (R197). -/
structure TransmitEnd (s : State) (n : Nat) (ws : List (Nat × Pin × Bool)) (z : State) : Prop where
  phase : z.tx.phase = .idle
  mode : z.radio.mode = s.radio.mode
  busy : z.radio.busy = false
  now : z.now = s.now + BitVec.ofNat 32 n
  trace : z.trace = s.trace ++ traceFrom s.now ws

theorem TransmitEnd.of_like {s z t : State} {n : Nat} {ws : List (Nat × Pin × Bool)} (h : TransmitEnd s n ws z)
    (hl : Like z t) : TransmitEnd s n ws t :=
  ⟨hl.tx ▸ h.phase, hl.radio ▸ h.mode, hl.radio ▸ h.busy, hl.now ▸ h.now, hl.trace ▸ h.trace⟩

/-- The pin writes of a transmit of the stored train from OFF or RX: acquire, train and release (R192, R196, R197). -/
def acquiredPins (s : State) : List (Nat × Pin × Bool) :=
  let S := s.build.settleUs.toNat
  let e := 2 * S + trainTicks s
  pinsAt 0 (firstPins .tx) ++ pinsAt S (secondPins .tx) ++ trainPins (2 * S) s ++ pinsAt e (firstPins s.radio.mode) ++
    pinsAt (e + S) (secondPins s.radio.mode)

section
variable {s : State} (hi : BlockInv s) (hn : s.buf.pulseCount ≠ 0#16) (hN : s.buf.repeats ≠ 0#16)
include hi hn hN

/-- From TX the transmit is the train. -/
theorem run_transmit_of_tx (hb : s.radio.busy = false) (hm : s.radio.mode = .tx) :
    ∃ z, Run (rawSendAccept s) (trainTicks s) (.next z) ∧ TransmitEnd s (trainTicks s) (trainPins 0 s) z := by
  obtain ⟨u, hrun, hplay, hnow, htrace⟩ := run_startTrain (s := { s with tx := { s.tx with prior := .tx } }) s.now 0
    hi.buffer.count hn hN hb (by simp)
  rw [txRelease_of_tx hplay.prior] at hrun
  rw [rawSendAccept_of_tx hN hn hm]
  exact ⟨_, hrun, rfl, congrArg Radio.mode hplay.radio, (congrArg Radio.busy hplay.radio).trans hb,
    hnow.trans (by rw [Nat.zero_add]; rfl), htrace⟩

/-- From OFF or RX the transmit is the acquire, the train, and the release to the mode it came from. -/
theorem run_transmit_of_not_tx (hm : s.radio.mode ≠ .tx) :
    ∃ z, Run (rawSendAccept s) (2 * s.build.settleUs.toNat + trainTicks s + 2 * s.build.settleUs.toNat) (.next z) ∧
      TransmitEnd s (2 * s.build.settleUs.toNat + trainTicks s + 2 * s.build.settleUs.toNat) (acquiredPins s) z := by
  have hS := settle_ne_zero hi.buffer.build
  obtain ⟨u, hacquire, hframe, hubusy, hunow, hutrace⟩ := run_acquire hN hn hm hS
  have hubuild : u.build = s.build := by rw [hframe]
  have humem : u.mem = s.mem := by rw [hframe]
  have hubuf : u.buf = s.buf := by rw [hframe]
  have hucfg : u.cfg = s.cfg := by rw [hframe]
  have huprior : u.tx.prior = s.radio.mode := by rw [hframe]
  obtain ⟨hticks, hpins⟩ := train_congr humem hubuf hucfg
  obtain ⟨v, hplay, hframe', hvnow, hvtrace⟩ := run_startTrain s.now (2 * s.build.settleUs.toNat)
    (by rw [hubuf, hubuild]; exact hi.buffer.count) (by rw [hubuf]; exact hn) (by rw [hubuf]; exact hN) hubusy hunow
  have hvprior : v.tx.prior = s.radio.mode := hframe'.prior.trans huprior
  have hvbuild : v.build = s.build := hframe'.build.trans hubuild
  obtain ⟨z, hrelease, hphase, hmode, hbusy, hznow, hztrace⟩ := run_release (s := v) (by rw [hvprior]; exact hm)
    (by rw [hvbuild]; exact hS)
  rw [hticks] at hplay hvnow
  rw [hvbuild] at hrelease hznow hztrace
  rw [hvprior] at hmode hztrace
  refine ⟨z, (hacquire.trans hplay).trans hrelease, hphase, hmode, hbusy, ?_, ?_⟩
  · rw [BitVec.ofNat_add (2 * s.build.settleUs.toNat + trainTicks s), ← BitVec.add_assoc, ← hvnow, hznow]
  · have hlater : ∀ τ ws, traceFrom v.now (pinsAt τ ws) =
        traceFrom s.now (pinsAt (2 * s.build.settleUs.toNat + trainTicks s + τ) ws) :=
      fun τ ws => by rw [hvnow, traceFrom_pinsAt_later]
    simp only [hztrace, hvtrace, hutrace, hpins, acquiredPins, traceFrom_append, hlater, Nat.add_zero,
      List.append_assoc]

end

/-- Whole ticks show a run of the radio and the TX engine from o to z: the transmit is busy until its last tick, of which
phase A2 gives z, with TX_DONE set (R118, R197, R198). -/
theorem Run.transmit {o : Out} {n : Nat} {z : State} (hs : List BusTxn) (ts : Nat → TickInput)
    (hinv : ∀ w, o = .next w → BlockInv w ∧ Reported w) (hrun : Run o n (.next z)) :
    (∀ k, k < n → ∃ u, ticks ts k (restOfTick hs o) = .next u ∧ txBusy u = true) ∧
      ∃ t, (if n = 0 then o else throughTransmit (ts (n - 1)) (ticks ts (n - 1) (restOfTick hs o))) = .next t ∧
        Like z t ∧ Reported t := by
  rcases n with - | n
  · have ho : o = .next z := hrun.final
    exact ⟨fun k hk => absurd hk (Nat.not_lt_zero k), z, ho, Like.refl z, (hinv z ho).2⟩
  · obtain ⟨w, hw, -⟩ := hrun.busy 0 n.succ_pos
    obtain rfl : o = .next w := hw
    have hticks := ticks_follow hs ts (hinv w rfl).1 hrun
    refine ⟨fun k hk => ?_, ?_⟩
    · obtain ⟨-, u, -, hu, -, -, hbusy⟩ := hticks k hk
      exact ⟨u, hu, hbusy⟩
    · obtain ⟨v, u, hv, hu, hui, hlike, hbusy⟩ := hticks n n.lt_succ_self
      have hlast : transmitTick (.next v) = .next z := by
        rw [← hv, ← Function.iterate_succ_apply' transmitTick]
        exact hrun.final
      obtain ⟨t, ht, -, hzt, hreported⟩ := throughTransmit_follows (ts n) hui hlike hlast
      exact ⟨t, by rw [if_neg n.succ_ne_zero, Nat.add_sub_cancel, hu, ht], hzt, hreported hbusy⟩

/-- An accepted RAW_SEND that ends in its own step has reported (R191, R196). -/
theorem rawSendAccept_reported {s t : State} (h : rawSendAccept s = .next t) : Reported t := by
  unfold rawSendAccept at h
  simp only at h
  split at h
  · cases next_inj h
    intro _
    simp [setPending]
  · split at h
    · exact playTransmission_reported h
    · cases next_inj h
      intro hp
      simp at hp

/-- Settles O51: the run of the radio and the TX engine, from TX or not, shown by whole ticks (Run.transmit). -/
theorem transmitReplaysTrain : Obligations.TransmitReplaysTrain := by
  intro s hs ts hi hf hb hx hu hseek hcapt hn hN S M vs L D N m a e total data after
  have hcap := inCapture_eq_false hseek hcapt
  have hexec : exec .rawSend s = rawSendAccept s := execRawSend_eq_accept hf hb hx hu hcap
  have hinv : ∀ w, rawSendAccept s = .next w → BlockInv w ∧ Reported w := fun w hw => by
    have haccept := rawSendAccept_inv hi hb (by simp [txBusy, hx]) hu hcap
    exact ⟨of_answer haccept hw, rawSendAccept_reported hw⟩
  have hrun : ∃ z, Run (rawSendAccept s) total (.next z) ∧
      TransmitEnd s total
        (if m = .tx then data
        else
          pinsAt 0 (firstPins .tx) ++ pinsAt S (secondPins .tx) ++ data ++ pinsAt e (firstPins m) ++
            pinsAt (e + S) (secondPins m)) z := by
    by_cases hm : s.radio.mode = .tx
    · simp only [total, e, a, m, data, hm, if_true, Nat.zero_add]
      exact run_transmit_of_tx hi hn hN hb hm
    · simp only [total, e, a, m, data, hm, if_false, Nat.add_assoc (2 * S) (N * L)]
      exact run_transmit_of_not_tx hi hn hN hm
  obtain ⟨z, hrun, hend⟩ := hrun
  obtain ⟨hbusy, t, ht, hlike, hreported⟩ := hrun.transmit hs ts hinv
  rw [← hexec] at hbusy ht
  obtain ⟨hphase, hmode, hstill, hnow, htrace⟩ := hend.of_like hlike
  exact ⟨hbusy, t, ht, hphase, hmode, hstill, hreported hphase, hnow, htrace⟩

/-! ### A transmit is not interruptible (R198) -/

/-- Settles O52: with a transmit running no other operation touches it (effect_steady; the radio's step by its own
frame), and each command and each gated write stops at the check that finds the transmit. -/
theorem transmitIsNotInterruptible : Obligations.TransmitIsNotInterruptible := by
  intro s hi hx
  have hbusy : txBusy s = true := by simpa [txBusy] using hx
  have hq := (busy_closed hi hbusy).1
  have hor : s.radio.busy = true ∨ s.tx.phase ≠ .idle := .inr hx
  refine ⟨fun i t hne h => ?_, fun hf => ⟨execRawSend_of_busy hf hor, ?_, ?_, ?_, ?_, execSetMode_unset hf⟩,
    fun d => ?_⟩
  · by_cases hradio : i = .evRadioStep
    · subst hradio
      cases next_inj h
      exact ⟨radioAdvance_tx s, radioAdvance_mem s, radioAdvance_buf s, radioAdvance_cfg s⟩
    · have hst := effect_steady (exec_effect h) hi (active_of_busy hbusy) hradio hne
      exact ⟨hst.tx, hst.train hbusy⟩
  · rw [exec, execRefreshConfig, unlessFatal_of_not_fatal _ _ hf, refreshConfigBody, hq]
    rfl
  · exact (execSetMode_of_ne_unset hf (by decide)).trans (congrArg _ (if_pos hor))
  · exact (execSetMode_of_ne_unset hf (by decide)).trans (congrArg _ (if_pos hor))
  · exact (execSetMode_of_ne_unset hf (by decide)).trans (congrArg _ (if_pos hor))
  · obtain ⟨-, -, -, hcount, hrepeats, hdelay⟩ := parameterWritesAreGated d s
    rw [hcount, hrepeats, hdelay, hq]
    exact ⟨rfl, rfl, rfl, fun i => (pulseWriteIsGated i d s).2.2 hq⟩

end Sys2Proof.Machine

/-!
The family of 44_control.md: the command words and WR_CMD (R220), the commands NOP, REFRESH_CONFIG, UPDATE_SLICER and
SCAN (R210, R212 to R214), and the reads and writes of the registers (R211, R215 to R219, R221).
-/
namespace Sys2Proof.Machine

/-! ### The command words (R92, R93, R220) -/

/-- The commands, each with its one word (R92, R93). -/
def commandWords : List (Instr × Word) :=
  [(.nop, 0x00000000#32), (.consume, 0x00000001#32), (.refreshConfig, 0x00000002#32), (.setMode .off, 0x00000003#32),
    (.setMode .rx, 0x00000103#32), (.setMode .tx, 0x00000203#32), (.setMode .unset, 0x00000303#32),
    (.rawSend, 0x00000004#32), (.updateSlicer .legacy, 0x00000005#32), (.updateSlicer .advanced, 0x00000105#32),
    (.scan, 0x00000006#32)]

theorem decodeCmd_commandWords : ∀ p ∈ commandWords, decodeCmd p.2 = .ok p.1 := by decide

/-- A word decodes to no command but the one whose word it is (R91 to R94). -/
theorem mem_commandWords_of_decodeCmd {w : Word} {i : Instr} (h : decodeCmd w = .ok i) : (i, w) ∈ commandWords := by
  have hword := encode_of_decodeCmd h
  rcases decodeCmd_cases h with rfl | rfl | rfl | ⟨_ | _ | _ | _, rfl⟩ | rfl | ⟨_ | _, rfl⟩ | rfl <;> cases hword <;>
    decide

/-- Every command row is the FATAL lock with the command's own word before its body (R220; log entry 10). -/
theorem exec_command_eq_unlessFatal {w : Word} {i : Instr} (h : decodeCmd w = .ok i) :
    ∃ run, ∀ s, exec i s = unlessFatal w run s := by
  have hword := encode_of_decodeCmd h
  rcases decodeCmd_cases h with rfl | rfl | rfl | ⟨m, rfl⟩ | rfl | ⟨v, rfl⟩ | rfl <;> cases hword <;>
    exact ⟨_, fun _ => rfl⟩

/-- Under FATAL a command is R231's record of CMD_REJECTED with the command's own word (R220). -/
theorem exec_command_of_fatal {w : Word} {i : Instr} {s : State} (h : decodeCmd w = .ok i)
    (hf : s.errs.flags.getLsbD 6 = true) : exec i s = .next (recorded 2 0x028#14 w s) := by
  obtain ⟨run, hrun⟩ := exec_command_eq_unlessFatal h
  exact (hrun s).trans (unlessFatal_of_fatal w run hf)

/-- Without FATAL a legal word runs its command (R220). -/
theorem exec_wrCmd_of_decodeCmd {w : Word} {i : Instr} {s : State} (h : decodeCmd w = .ok i)
    (hf : s.errs.flags.getLsbD 6 = false) : exec (.wrCmd w) s = exec i s := by
  rw [exec, execWrCmd, unlessFatal_of_not_fatal _ _ hf, runCommand, h]
  rcases decodeCmd_cases h with rfl | rfl | rfl | ⟨m, rfl⟩ | rfl | ⟨v, rfl⟩ | rfl <;> rfl

/-- Without FATAL, NOP is its empty body (R210). -/
theorem exec_nop {s : State} (hf : s.errs.flags.getLsbD 6 = false) : exec .nop s = .next s :=
  unlessFatal_of_not_fatal _ _ hf

/-- Settles O26: past the FATAL lock an illegal word is recorded and a legal one runs the command it decodes to, and the
words that decode are those of commandWords. -/
theorem commandWriteDecodesAndRuns : Obligations.CommandWriteDecodesAndRuns := by
  refine ⟨fun w s hf => unlessFatal_of_fatal _ _ hf, fun w s hf hw => ?_, fun s hf => ?_, fun w hw => ?_⟩
  · rw [exec, execWrCmd, unlessFatal_of_not_fatal _ _ hf, runCommand_of_illegalWord s hw]
  · have hrun : ∀ p ∈ commandWords, exec (.wrCmd p.2) s = exec p.1 s :=
      fun p hp => exec_wrCmd_of_decodeCmd (decodeCmd_commandWords p hp) hf
    simp only [commandWords, List.forall_mem_cons, List.not_mem_nil, false_imp_iff, implies_true, and_true] at hrun
    exact ⟨hrun.1.trans (exec_nop hf), hrun⟩
  · have hlegal : ∃ i, decodeCmd w = .ok i := by simpa [illegalWord_iff] using hw
    obtain ⟨i, h⟩ := hlegal
    exact List.mem_map_of_mem (f := Prod.snd) (mem_commandWords_of_decodeCmd h)

/-- Settles O28: every word of the list decodes to its command, and both the command and WR_CMD carry the lock. -/
theorem fatalLocksEveryCommand : Obligations.FatalLocksEveryCommand :=
  fun _ hf p hp => ⟨exec_command_of_fatal (decodeCmd_commandWords p hp) hf, unlessFatal_of_fatal _ _ hf⟩

/-! ### NOP, REFRESH_CONFIG, UPDATE_SLICER and SCAN (R210, R212 to R214) -/

/-- Settles O31: without FATAL the command is its empty body, under FATAL the record of its word. -/
theorem nopDoesNothing : Obligations.NopDoesNothing := by
  have hdecode : decodeCmd 0x00000000#32 = .ok .nop := by decide
  exact ⟨hdecode, fun _ => ⟨exec_nop, exec_command_of_fatal hdecode⟩⟩

/-- `Q` (R58). -/
theorem quiescent_iff (s : State) :
    quiescent s = true ↔
      s.tx.phase = .idle ∧ (s.cap.state = .done ∨ s.cap.state = .idle ∧ (s.cap.hold = true ∨ armed s = false)) := by
  simp [quiescent, txBusy]

/-- `valid` (R39). -/
theorem cfgValid_iff (capacity : Nat) (c : TimingConfig) :
    cfgValid capacity c = true ↔
      1 ≤ c.sampleRate.toNat ∧ c.minRawPulses.toNat ≤ capacity ∧ 1 ≤ c.signalEndTimeoutUs.toNat ∧
        c.signalEndTimeoutUs.toNat < 2 ^ 31 ∧ c.minPreambleUs.toNat < 2 ^ 31 ∧ c.minPulseLenUs.toNat < 2 ^ 31 := by
  simp only [cfgValid, Bool.and_eq_true, decide_eq_true_eq, and_assoc]

/-- Settles O33: past the FATAL lock the two checks are Q and `valid`, and a shadow that passes both is copied whole. -/
theorem refreshAppliesShadow : Obligations.RefreshAppliesShadow := by
  refine ⟨by decide, fun s hf => ?_⟩
  rw [exec, execRefreshConfig, unlessFatal_of_not_fatal _ _ hf, refreshConfigBody]
  simp only [← quiescent_iff, ← cfgValid_iff, ite_not]
  rfl

/-- A capture is open in SEEKING and CAPTURING. -/
theorem inCapture_iff (s : State) : inCapture s = true ↔ s.cap.state = .seeking ∨ s.cap.state = .capturing := by
  simp [inCapture]

/-- Settles O37: past the FATAL lock the open capture is tested first, then the variant. -/
theorem updateSlicerCases : Obligations.UpdateSlicerCases := by
  refine ⟨by decide, by decide, fun v s hf => ?_⟩
  rw [exec, execUpdateSlicer, unlessFatal_of_not_fatal _ _ hf]
  cases v <;> exact congrArg _ (if_congr (inCapture_iff s) rfl rfl)

/-- The poll window is the seek timeout in milliseconds, counted in ticks of 1 us (R214). -/
theorem pollTicks_eq (s : State) : pollTicks s = BitVec.ofNat 32 (s.cfg.seekTimeoutMs.toNat * 1000) :=
  BitVec.eq_of_toNat_eq (by simp [pollTicks])

/-- Settles O38: past the FATAL lock SCAN tests the mode and the timeout and opens a window of pollTicks. -/
theorem scanOpensWindow : Obligations.ScanOpensWindow := by
  refine ⟨by decide, fun s hf => ?_⟩
  rw [exec, execScan, unlessFatal_of_not_fatal _ _ hf, scanBody, pollTicks_eq]
  exact congrArg _ (if_congr (by simp [Nat.pos_iff_ne_zero, BitVec.toNat_ne]) rfl rfl)

/-! ### The registers read (R211) -/

/-- STATUS right after reset: no field depends on the build, and all are 0 but the mode, which is UNSET (R86, R260). -/
theorem statusWord_resetOf (b : Build) : statusWord (State.resetOf b) = 0x00000300#32 :=
  calc statusWord (State.resetOf b)
    _ = statusWord State.reset := rfl
    _ = 0x00000300#32 := by decide

/-- Settles O14: the register's offset decodes to RD_REG, which returns the register's value. -/
theorem registerReadReturnsValue : Obligations.RegisterReadReturnsValue :=
  ⟨fun _ _ => rfl, bus_hostRead, fun _ => rfl, statusWord_resetOf⟩

/-! ### The registers written (R215 to R219, R221) -/

/-- Settles O20: the offset of CTRL decodes to WR_CTRL, whose rule tests nothing. -/
theorem ctrlWriteSetsHold : Obligations.CtrlWriteSetsHold :=
  fun d s => ⟨bus_hostWrite .ctrl d s, rfl⟩

/-- Bit k of data[n-1:0] (R98). -/
theorem lowField_bit {n k : Nat} (d : Word) (hk : k < n) : (d.extractLsb' 0 n).getLsbD k = d.getLsbD k := by
  rw [BitVec.getLsbD_extractLsb', Nat.zero_add, decide_eq_true hk, Bool.true_and]

/-- Settles O21: each offset decodes to its write; the enables are data[3:0], and a pending bit falls where it is 1. -/
theorem interruptRegisterWrites : Obligations.InterruptRegisterWrites := by
  refine fun d s => ⟨bus_hostWrite .intEn d s, bus_hostWrite .intPend d s, ⟨_, rfl, fun k => lowField_bit d⟩,
    _, rfl, fun k hk => ?_⟩
  rw [clearOnes_bit, lowField_bit d hk]

/-- Each of a list of registers is written through its offset (R81). -/
theorem bus_hostWrite_registers (rs : List Reg) (d : Word) (s : State) :
    ∀ p ∈ rs.map fun r => (r.writeInstr d, r.offset), bus (hostWrite p.2 d) s = exec p.1 s :=
  List.forall_mem_map.2 fun r _ => bus_hostWrite r d s

/-- Settles O22: each offset decodes to its write, a narrow field takes data[15:0], and the gap flag is cut by the
build. -/
theorem configWritesStoreOneField : Obligations.ConfigWritesStoreOneField := by
  intro d s
  rw [← lowHalf_eq_ofNat_mod]
  refine ⟨bus_hostWrite_registers [.cfgSampleRate, .cfgMinRawPulses, .cfgSeekTimeoutMs, .cfgMinPreambleUs,
    .cfgMinPulseLenUs, .cfgSignalEndTimeoutUs, .cfgFlags] d s, rfl, rfl, rfl, rfl, rfl, rfl, ?_⟩
  rw [exec, execWrCfgFlags]
  cases s.build.hasAdaptiveGap <;> rfl

/-- The registers a host only reads (R83 RO). -/
def readOnlyRegisters : List Reg :=
  [.id, .caps, .settleUs, .status, .errInfo, .errData, .nowUs, .capturedAt, .signalStrength, .actSampleRate,
    .actMinRawPulses, .actSeekTimeoutMs, .actMinPreambleUs, .actMinPulseLenUs, .actSignalEndTimeoutUs, .actFlags]

/-- A write to a read-only register is R231's record of BUS_ERR with the register's offset (R221). -/
theorem exec_writeInstr_readOnly {r : Reg} (d : Word) (s : State) (hr : r ∈ readOnlyRegisters) :
    exec (r.writeInstr d) s = .next (recorded 5 r.offset d s) := by
  cases r with
  | id | caps | settleUs | status | errInfo | errData | nowUs | capturedAt | signalStrength | actSampleRate
  | actMinRawPulses | actSeekTimeoutMs | actMinPreambleUs | actMinPulseLenUs | actSignalEndTimeoutUs | actFlags => rfl
  | ctrl | err | intEn | intPend | cmd | pulseCount | repeats | interRepeatDelayMs | cfgSampleRate | cfgMinRawPulses
  | cfgSeekTimeoutMs | cfgMinPreambleUs | cfgMinPulseLenUs | cfgSignalEndTimeoutUs | cfgFlags =>
    exact absurd hr (by decide)

/-- Settles O23: the list is that of the read-only registers, each with its row and its offset. -/
theorem readOnlyWritesRecordBusErr : Obligations.ReadOnlyWritesRecordBusErr := by
  intro d s
  have hwrites : ∀ p ∈ readOnlyRegisters.map fun r => (r.writeInstr d, r.offset),
      bus (hostWrite p.2 d) s = exec p.1 s ∧ exec p.1 s = .next (recorded 5 p.2 d s) :=
    List.forall_mem_map.2 fun r hr => ⟨bus_hostWrite r d s, exec_writeInstr_readOnly d s hr⟩
  exact hwrites

end Sys2Proof.Machine

/-!
The family of 60_exceptions.md: the precision of the error record, which is read off the effects of all operations
(Laws/Exec.lean), and the independence of the events from it, which is that of their rules (Laws/Errors.lean).
-/
namespace Sys2Proof.Machine

/-! ### An error is its record and nothing else (R47, R231) -/

/-- The record of an error is R231's, for the code of its cause (R230). -/
theorem raiseErr_eq_recorded (c : ErrCause) (a : Offset) (d : Word) (s : State) :
    raiseErr c a d s = recorded c.code a d s := rfl

/-- The cause codes end at 6 (R230). -/
theorem ErrCause.code_le_six (c : ErrCause) : c.code ≤ 6 := by cases c <;> decide

/-- No host-side error is recorded from e to e': ERR_INFO and ERR_DATA stand, and of the ERR bits at most bit 0, the
flag of a dropped edge, rises (R231, R233). -/
structure Errors.NothingRecorded (e e' : Errors) : Prop where
  cause : e'.cause = e.cause
  addr : e'.addr = e.addr
  data : e'.data = e.data
  flags : ∀ k, 1 ≤ k → e'.flags.getLsbD k = true → e.flags.getLsbD k = true

theorem Errors.NothingRecorded.of_eq {e e' : Errors} (h : e' = e) : e.NothingRecorded e' :=
  h ▸ ⟨rfl, rfl, rfl, fun _ _ hk => hk⟩

/-- The flag of a dropped edge is bit 0 alone (R140). -/
theorem dropEdge_nothingRecorded (s : State) : s.errs.NothingRecorded (dropEdge s).errs := by
  refine ⟨rfl, rfl, rfl, fun k hk h => ?_⟩
  have hone : (1#7).getLsbD k = false := by simpa using Nat.one_le_iff_ne_zero.1 hk
  simpa [dropEdge, hone] using h

/-- A write-1-to-clear raises no bit (R83). -/
theorem getLsbD_of_clearOnes {n k : Nat} {old written : BitVec n} (h : (clearOnes old written).getLsbD k = true) :
    old.getLsbD k = true := by
  rw [clearOnes, BitVec.getLsbD_and, Bool.and_eq_true] at h
  exact h.1

/-- The next state of an operation is the record of an error on the state before, or has no error recorded (R231). -/
theorem effect_record_cases {i : Instr} {s t : State} (he : Effect i s t) :
    (∃ c a d, t = raiseErr c a d s) ∨ s.errs.NothingRecorded t.errs := by
  induction he with
  | error _ c a d => exact .inl ⟨c, a, d, rfl⟩
  | command _ _ ih => exact ih
  | errCleared d s => exact .inr ⟨rfl, rfl, rfl, fun _ _ h => getLsbD_of_clearOnes h⟩
  | dropped => exact .inr (dropEdge_nothingRecorded (sampleEdge _))
  | modeStarted => exact .inr (.of_eq (by simp))
  | sent _ _ _ _ _ h => exact .inr (.of_eq (rawSendAccept_frame h).errs)
  | seeking => exact .inr (.of_eq (by simp))
  | committed _ _ _ h =>
    rcases seekCommit_eq_next h with rfl | rfl <;> exact .inr (.of_eq (by simp))
  | accepted _ _ _ h =>
    cases acceptPulse_eq_next h
    exact .inr (.of_eq (by simp))
  | timedOut => exact .inr (.of_eq (by simp))
  | radioStepped => exact .inr (.of_eq (by simp))
  | txStepped h => exact .inr (.of_eq (txAdvance_frame h).errs)
  | _ => exact .inr (.of_eq rfl)

/-- Settles O27: `raiseErr` is R231's record for each cause, and it is the only effect that records an error. -/
theorem errorsArePrecise : Obligations.ErrorsArePrecise := by
  refine ⟨fun c a d s => by cases c <;> rfl, fun i s t h hchanged => ?_⟩
  rcases effect_record_cases (exec_effect h) with ⟨c, a, d, rfl⟩ | hnone
  · exact ⟨c.code, a, d, c.code_le_six, raiseErr_eq_recorded c a d s⟩
  · rcases hchanged with hc | ha | hd | ⟨k, hk, ht, hs⟩
    · exact absurd hnone.cause hc
    · exact absurd hnone.addr ha
    · exact absurd hnone.data hd
    · rw [hnone.flags k hk ht] at hs; cases hs

/-! ### Events do not read the error record (R232) -/

theorem deadlineRow_withErrs (e : Errors) (c : CapState) {f : State → State}
    (hf : ∀ s, f (withErrs e s) = withErrs e (f s)) (s : State) :
    deadlineRow c f (withErrs e s) = withErrs e (deadlineRow c f s) := by
  unfold deadlineRow
  rw [show (deadlineDue (withErrs e s) && decide ((withErrs e s).cap.state = c)) =
    (deadlineDue s && decide (s.cap.state = c)) from rfl]
  split
  · exact hf s
  · rfl

theorem execEvPollEnd_withErrs (e : Errors) (s : State) :
    execEvPollEnd (withErrs e s) = outErrs e (execEvPollEnd s) := by
  unfold execEvPollEnd
  rw [show pollDue (withErrs e s) = pollDue s from rfl]
  split <;> rfl

/-- Every event but an edge in DONE leaves the error record in place and does the same under any other. -/
theorem exec_withErrs {i : Instr} (hi : eventRow i = true) (hne : i ≠ .evEdgeDone) (e : Errors) (s : State) :
    exec i (withErrs e s) = outErrs e (exec i s) := by
  cases i with
  | evEdgeIdle =>
    exact edgeRow_withErrs e .idle false (f := fun s => .next (startSeeking s))
      (fun s => congrArg Host.Outcome.next (startSeeking_withErrs e s)) s
  | evEdgeSeekingShort | evEdgeCapturingGlitch => exact edgeRow_withErrs e _ _ (fun _ => rfl) s
  | evEdgeSeekingCommit => exact edgeRow_withErrs e _ _ (seekCommit_withErrs e) s
  | evEdgeCapturingAccept => exact edgeRow_withErrs e _ _ (acceptPulse_withErrs e) s
  | evEdgeDone => exact absurd rfl hne
  | evDeadlineSeeking =>
    exact congrArg Host.Outcome.next (deadlineRow_withErrs e .seeking (f := seekAbandon) (fun _ => rfl) s)
  | evDeadlineCapturing =>
    exact congrArg Host.Outcome.next (deadlineRow_withErrs e .capturing (f := captureTimeout)
      (fun s => finish_withErrs e (timeoutReason s) s) s)
  | evPollEnd => exact execEvPollEnd_withErrs e s
  | evRadioStep => exact congrArg Host.Outcome.next (radioAdvance_withErrs e s)
  | evTxStep => exact txAdvance_withErrs e s
  | _ => cases hi

/-- An edge in DONE does the same to everything but the error record, where it sets bit 0 of whatever flags it finds
(R140). -/
theorem execEvEdgeDone_withErrs {s t : State} (e : Errors) (h : execEvEdgeDone s = .next t) :
    ∃ e', execEvEdgeDone (withErrs e s) = .next (withErrs e' t) := by
  unfold execEvEdgeDone edgeRow at h
  split at h
  · rename_i hedge
    cases next_inj h
    exact ⟨(dropEdge (withErrs e s)).errs, if_pos hedge⟩
  · rename_i hnone
    cases next_inj h
    exact ⟨e, if_neg hnone⟩

/-- Settles O30: an edge in DONE writes its flag into whatever record stands; every other event passes the record by. -/
theorem errorsStopNoEvent : Obligations.ErrorsStopNoEvent := by
  intro i hi
  have hrow : eventRow i = true := by revert i; decide
  intro s t e h
  by_cases hdone : i = .evEdgeDone
  · subst hdone
    exact execEvEdgeDone_withErrs e h
  · exact ⟨e, (exec_withErrs hrow hdone e s).trans (congrArg (outErrs e) h)⟩

end Sys2Proof.Machine

/-!
The family of 70_reset_and_hazards.md: the values of the reset state, its invariants, and the reset of a running block.
The invariants of the reset state are lemmas of the family of 10_state.md (resetOf_inv, platformReset_traceInv); a reset
at any time answers that state again, with the environment as it stands.
-/
namespace Sys2Proof.Machine

/-- Every word of the buffer is 0 right after reset (R26, R260). -/
theorem pulse_resetOf (b : Build) (k : Nat) : pulse (State.resetOf b) k = 0#16 := memory_readPulse_nil k

/-- Settles O11: every field is its literal of R260 by definition, and the words of the buffer and STATUS are read
from these. -/
theorem resetValues : Obligations.ResetValues := by
  intro b s
  have hpulse : ∀ k, pulse s k = 0#16 := pulse_resetOf b
  have hstatus : readval s .status = 0x00000300#32 := statusWord_resetOf b
  exact ⟨rfl, rfl, rfl, rfl, rfl, hpulse, rfl, rfl, rfl, rfl, rfl, rfl, rfl, rfl, rfl, rfl, rfl, rfl, rfl, rfl, rfl,
    rfl, rfl, rfl, rfl, rfl, rfl, rfl, hstatus⟩

/-- No output is driven by a reset: its trace is empty, and its outputs are low (R43, R260). -/
theorem resetOf_traceInv (b : Build) : TraceInv (State.resetOf b) := platformReset_traceInv (State.resetOf b)

/-- Settles O12: the build of State.reset is in range, so the reset of any build in range covers it. -/
theorem resetStateSatisfiesInvariant : Obligations.ResetStateSatisfiesInvariant :=
  ⟨fun b hb => ⟨resetOf_inv hb, resetOf_traceInv b⟩, resetOf_inv (by decide)⟩

/-- A step whose input is a reset is the platform's reset, with that input taken (R261). -/
theorem step_of_reset {s : State} {rest : List Input} (h : s.env.inputs = .reset :: rest) :
    step s = .next (platformReset (takeInput s)) := by
  simp only [step, nextInput, h, runInput]

/-- Settles O13: the answer is the reset state in all but the environment, which has lost the one
input. -/
theorem resetEndsAllActivity : Obligations.ResetEndsAllActivity := by
  intro s rest h
  have hrest : (takeInput s).env.inputs = rest := by simp only [takeInput, h, List.tail_cons]
  exact ⟨platformReset (takeInput s), step_of_reset h, rfl, hrest, rfl, rfl, rfl, rfl, pulse_resetOf s.build⟩

end Sys2Proof.Machine
